-- ==== Sys2Proof/Word.lean ====
section
/-! DEFINITION. The widths of PFT-LZD: bytes of BUF and OUT, 16-bit stream values, 32-bit registers. -/

namespace Sys2Proof

/-- One byte of BUF or OUT (20_memory.md R60, R61). -/
abbrev Byte := BitVec 8

/-- A 16-bit value of the stream or of the registers BLEN, RAWN, MASK and SEL (10_state.md R30). -/
abbrev Half := BitVec 16

/-- A 32-bit register (00_scope.md R6, "register width"). -/
abbrev Word := BitVec 32

end Sys2Proof
end

