-- ==== Sys2Proof/Config.lean ====
section
/-! DEFINITION. The configuration of PFT-LZD, an argument of its step (00_scope.md R6, R7, R16), and the free values
the spec leaves open. UNVERIFIED: R3 calls the numeric literals unaudited (log entry 7). -/

namespace Sys2Proof

/-- How the raw-block cases are selected (00_scope.md R6, 43_lzd_blocks.md R124). -/
inductive RawSelect
  | byValue         -- on the length after substitution
  | bySubstitution  -- only when the header was the sentinel
  deriving DecidableEq, Repr

/-- The configuration record: one field for each row of the table of 00_scope.md R6 that is a number or a choice (R7).
The two width rows are the types `Word` and `Nat` (log entry 7). It is an argument of the step and no part of the state
(00_scope.md R16). -/
structure Config where
  /-- `P_BUF_CAP`: capacity of BUF in bytes; a 32-bit value, as the register BUF_CAP reads it. -/
  bufCap : Word
  /-- `OUT_CAP`: capacity of OUT in bytes. -/
  outCap : Nat
  /-- `STREAM_START`: BUF offset of the first block header. -/
  streamStart : Nat
  /-- `SIG_OFF`: BUF offset of the 16-bit compression signature. -/
  sigOff : Nat
  /-- `MAX_BLOCK`: largest legal unsubstituted block length. -/
  maxBlock : Half
  /-- `SENTINEL`: the model-dependent block-length sentinel. -/
  sentinel : Half
  /-- `SUB_M1`: length substituted for the sentinel when MODEL is 1. -/
  subM1 : Nat
  /-- `SUB_M2`: length substituted for the sentinel when MODEL is 2. -/
  subM2 : Nat
  /-- `MARGIN`: the header and trailer margin of the block-fit check. -/
  margin : Nat
  /-- `MIN_COPY`: added to the 5-bit copy length field. -/
  minCopy : Nat
  /-- `ESC_LEN`: the copy length that selects the extended length encoding. -/
  escLen : Nat
  /-- `GROUP`: tokens per mask word. -/
  group : Nat
  /-- `BLOCK_SIZE`: XOR block size in bytes. -/
  blockSize : Nat
  /-- `KEY_WORDS`: key schedule length in 32-bit words, at most the 32 registers of KEY (10_state.md R29). -/
  keyWords : Nat
  /-- `IV_WORDS`: IV length in 32-bit words. -/
  ivWords : Nat
  /-- `P_RAW_SELECT`: how the raw-block cases are selected. -/
  rawSelect : RawSelect
  /-- `P_MODEL_OFF`: BUF offset of the sub-model digit, used by the host only. -/
  modelOff : Nat
  deriving DecidableEq, Repr

/-- The configuration this hardware takes, for a given `P_BUF_CAP`, which the spec leaves open (00_scope.md R6, R7):
`P_RAW_SELECT` is decided `by_value` (92_eei_decisions.md D14) and `P_MODEL_OFF` 10 (D12, 90_conflicts.md C1). -/
abbrev Config.withBufCap (cap : Word) : Config where
  bufCap := cap
  outCap := 0x2000000
  streamStart := 0x200
  sigOff := 0x1F6
  maxBlock := 0x8000
  sentinel := 0xE000
  subM1 := 0xC002
  subM2 := 0x6000
  margin := 6
  minCopy := 3
  escLen := 10
  group := 16
  blockSize := 0x80
  keyWords := 32
  ivWords := 4
  rawSelect := .byValue
  modelOff := 10

/-- FREE VALUE: `P_BUF_CAP` less one. The spec gives only `1 <= P_BUF_CAP <= 2^32 - 1` (R6, R7; log entry 6). -/
opaque Config.pBufCapPred : Fin 4294967295

/-- `P_BUF_CAP`, the capacity of BUF in bytes: any value of `1 .. 2^32 - 1` (00_scope.md R6; log entry 6). -/
def Config.pBufCap : Word := BitVec.ofNat 32 (Config.pBufCapPred.val + 1)

/-- The configuration of the machine behind the host's interface: P_BUF_CAP stays unknown (log entry 6). -/
abbrev Config.hw : Config := Config.withBufCap Config.pBufCap

/-- FREE VALUE: what the read numbered by the first argument gives for the BUF byte at the second, where the byte
has no value (10_state.md R39, 70_reset_and_hazards.md R161; log entries 1 and 2). -/
opaque Config.freeBufByte : Nat → Nat → Byte

/-- FREE VALUE: the same for OUT (10_state.md R39, 70_reset_and_hazards.md R161; log entries 1 and 2). -/
opaque Config.freeOutByte : Nat → Nat → Byte

/-- FREE VALUE: what a 32-bit capture register holds for an exact value of 2^32 or more, which the spec does not
state (10_state.md R27, 41_xke_keystream.md R108, R110; log entry 10). -/
opaque Config.wideCapture : Nat → Word

end Sys2Proof
end

