-- ==== Sys2Proof/Syntax.lean ====
section
/-! DEFINITION. The instructions of PFT-LZD: one constructor per row of spec/opcode_table.json, with the fields of
30_encoding.md R81 to R87. -/

namespace Sys2Proof

/-- Byte order of the XKE word accesses, CTRL bit 3 (10_state.md R21). -/
inductive Endian
  | little
  | big
  deriving DecidableEq, Repr

/-- The stream elements and the host command words. -/
inductive Instr
  -- block headers (format H16, phase L_HDR)
  | endMarker                                          -- END
  | blk (h : Half)                                     -- BLK
  | raw1                                               -- RAW1
  | raw2                                               -- RAW2
  | raw2v                                              -- RAW2V
  | illegalSentinel                                    -- ILLEGAL_SENTINEL (OversizedBlock)
  | illegalOversized (h : Half)                        -- ILLEGAL_OVERSIZED (OversizedBlock)
  -- token stream (formats M16, LIT8, CPY16, EXT8, phase L_TOK)
  | mask (m : Half)                                    -- MASK
  | lit (b : Byte)                                     -- LIT
  | cpy (ohi : BitVec 3) (lf : BitVec 5) (olo : Byte)  -- CPY
  | cpyx (ohi : BitVec 3) (olo : Byte)                 -- CPYX
  | ext (e : Byte)                                     -- EXT
  | illegalZeroOffset (lf : BitVec 5)                  -- ILLEGAL_ZERO_OFFSET (ZeroOffsetCopy)
  -- trailer (format TRL16, phase L_TRL)
  | trl                                                -- TRL
  | illegalTrailer (t : Half)                          -- ILLEGAL_TRAILER (MissingBlockTrailer)
  -- host writes to CTRL (format CTRL32)
  | cmdDecompress (endian : Endian) (ie : Bool)        -- CMD_DECOMPRESS
  | cmdXorRegion (endian : Endian) (ie : Bool)         -- CMD_XOR_REGION
  | cmdKeygen (endian : Endian) (ie : Bool)            -- CMD_KEYGEN
  | illegalCommand (endian : Endian) (ie : Bool)       -- ILLEGAL_COMMAND (IllegalCommand)
  | cfgCtrl (op : BitVec 2) (endian : Endian) (ie : Bool)  -- CFG_CTRL
  -- host write to STATUS (format STAT32)
  | ack (clrDone clrErr : Bool)                        -- ACK
  deriving DecidableEq, Repr

end Sys2Proof
end

