-- ==== Sys2Proof/WellFormed.lean ====
section
/-! DEFINITION. Which terms of `Instr` an encoding can give: the constraints of the opcode table's rows
(30_encoding.md R88, R89). -/

namespace Sys2Proof

/-- The field constraints of the opcode table, as a check under a configuration. -/
def Instr.wf (cfg : Config) : Instr → Bool
  | .blk h => h != 0 && decide (h ≤ cfg.maxBlock)
  | .illegalOversized h => decide (cfg.maxBlock < h) && h != cfg.sentinel
  | .cpy ohi lf olo => lf.toNat + cfg.minCopy != cfg.escLen && !(ohi == 0 && olo == 0)
  | .cpyx ohi olo => !(ohi == 0 && olo == 0)
  | .illegalTrailer t => t != 0
  | .endMarker | .raw1 | .raw2 | .raw2v | .illegalSentinel => true
  | .mask _ | .lit _ | .ext _ | .illegalZeroOffset _ | .trl => true
  | .cmdDecompress _ _ | .cmdXorRegion _ _ | .cmdKeygen _ _ | .illegalCommand _ _ => true
  | .cfgCtrl _ _ _ | .ack _ _ => true

/-- An instruction whose fields obey its row's constraints. -/
abbrev Instr.WellFormed (i : Instr) : Prop := i.wf Config.hw = true

end Sys2Proof
end

