-- ==== Sys2Proof/Decode.lean ====
section
/-! DEFINITION. The decoder and the encoder (30_encoding.md). The bytes alone select no element: the decoder also
takes where it stands (R89). -/

namespace Sys2Proof

/-- Where the decoder stands (30_encoding.md R89, first column). -/
inductive Ctx
  | header (model : Byte)   -- phase L_HDR; MODEL takes part
  | mask                    -- phase L_TOK, SEL = 0
  | token (copy : Bool)     -- phase L_TOK, the mask bit of the token
  | extension               -- inside a CPYX token
  | trailer                 -- phase L_TRL
  | ctrlWrite               -- a host write to CTRL
  | statusWrite             -- a host write to STATUS
  deriving DecidableEq, Repr

/-- What is decoded: bytes of the stream, or a 32-bit host word, whose byte order cannot be observed
(20_memory.md R65). -/
inductive Code
  | bytes (bs : List Byte)
  | word (w : Word)
  deriving DecidableEq, Repr

/-- Why the decoder gives no instruction; every element the contexts admit is decoded. -/
inductive Reject
  | truncated        -- fewer bytes than the element has
  | notStreamBytes   -- a host word where stream bytes are decoded
  | notHostWord      -- stream bytes where a host word is decoded
  deriving DecidableEq, Repr

/-- The decoder's answer: an instruction and how many bytes it takes (4 for a host word), or a rejection. -/
inductive Decoded
  | ok (i : Instr) (len : Nat)
  | rejected (r : Reject)
  deriving DecidableEq, Repr

/-- `be16` of two bytes in stream order (00_scope.md R11). -/
def be16 (b0 b1 : Byte) : Half := b0 ++ b1

/-- The bytes of a 16-bit value in stream order (00_scope.md R11). -/
def be16Bytes (v : Half) : List Byte := [v.extractLsb' 8 8, v.extractLsb' 0 8]

/-- The 11-bit copy offset `(zext(ohi) << 8) | olo` (30_encoding.md R88). -/
def copyOffset (ohi : BitVec 3) (olo : Byte) : BitVec 11 := ohi ++ olo

/-- The length a copy token's field gives before any extension (30_encoding.md R88). -/
def copyLength (cfg : Config) (lf : BitVec 5) : Nat := lf.toNat + cfg.minCopy

/-- The length field that gives the escape length: 7 (30_encoding.md R84, R88). -/
def escapeField (cfg : Config) : BitVec 5 := BitVec.ofNat 5 (cfg.escLen - cfg.minCopy)

/-- Block-length interpretation of a non-zero header value: the length and whether it was substituted, or none for
OversizedBlock (43_lzd_blocks.md R122). -/
def blockLen (cfg : Config) (model : Byte) (v : Half) : Option (Nat × Bool) :=
  if v = cfg.sentinel then
    if model = 1 then some (cfg.subM1, true)
    else if model = 2 then some (cfg.subM2, true)
    else none
  else if cfg.maxBlock < v then none
  else some (v.toNat, false)

/-- The kinds of block (43_lzd_blocks.md R124). -/
inductive BlockKind
  | raw1
  | raw2
  | token
  deriving DecidableEq, Repr

/-- `blockkind(L, subst)` (43_lzd_blocks.md R124). -/
def blockKind (cfg : Config) (model : Byte) (len : Nat) (subst : Bool) : BlockKind :=
  let sel := decide (cfg.rawSelect = .byValue) || subst
  if model = 1 ∧ len = cfg.subM1 ∧ sel = true then .raw1
  else if model = 2 ∧ len = cfg.subM2 ∧ sel = true then .raw2
  else .token

/-- The element a header value selects (30_encoding.md R89, rows of L_HDR). -/
def decodeHeader (cfg : Config) (model : Byte) (v : Half) : Instr :=
  if v = 0 then .endMarker
  else
    match blockLen cfg model v with
    | none => if v = cfg.sentinel then .illegalSentinel else .illegalOversized v
    | some (len, subst) =>
      match blockKind cfg model len subst with
      | .raw1 => .raw1
      | .raw2 => if subst then .raw2 else .raw2v
      | .token => .blk v

/-- The element a copy token's two bytes select (30_encoding.md R84, R89). -/
def decodeCopy (cfg : Config) (s0 s1 : Byte) : Instr :=
  let ohi := s0.extractLsb' 5 3
  let lf := s0.extractLsb' 0 5
  if ohi = 0 ∧ s1 = 0 then .illegalZeroOffset lf
  else if copyLength cfg lf = cfg.escLen then .cpyx ohi s1
  else .cpy ohi lf s1

/-- The byte order a CTRL bit 3 selects (10_state.md R21). -/
def endianOfBit : Bool → Endian
  | false => .little
  | true => .big

/-- CTRL bit 3 of a byte order (10_state.md R21). -/
def bitOfEndian : Endian → Bool
  | .little => false
  | .big => true

/-- The instruction a host word written to CTRL stands for (30_encoding.md R87, R89); bits [31:5] are ignored. -/
def decodeCtrl (w : Word) : Instr :=
  let op : BitVec 2 := w.extractLsb' 1 2
  let endian := endianOfBit (w.getLsbD 3)
  let ie := w.getLsbD 4
  if w.getLsbD 0 then
    if op = 0 then .cmdDecompress endian ie
    else if op = 1 then .cmdXorRegion endian ie
    else if op = 2 then .cmdKeygen endian ie
    else .illegalCommand endian ie
  else .cfgCtrl op endian ie

/-- The instruction a host word written to STATUS stands for (30_encoding.md R87); every other bit is ignored. -/
def decodeStatus (w : Word) : Instr := .ack (w.getLsbD 1) (w.getLsbD 2)

/-- The decoder: total on any bytes and any word, rejecting by name. -/
def decode (cfg : Config) (c : Ctx) (x : Code) : Decoded :=
  match c, x with
  | .header model, .bytes (b0 :: b1 :: _) => .ok (decodeHeader cfg model (be16 b0 b1)) 2
  | .mask, .bytes (b0 :: b1 :: _) => .ok (.mask (be16 b0 b1)) 2
  | .token false, .bytes (b :: _) => .ok (.lit b) 1
  | .token true, .bytes (s0 :: s1 :: _) => .ok (decodeCopy cfg s0 s1) 2
  | .extension, .bytes (e :: _) => .ok (.ext e) 1
  | .trailer, .bytes (b0 :: b1 :: _) =>
    .ok (if be16 b0 b1 = 0 then .trl else .illegalTrailer (be16 b0 b1)) 2
  | .ctrlWrite, .word w => .ok (decodeCtrl w) 4
  | .statusWrite, .word w => .ok (decodeStatus w) 4
  | .header _, .word _ | .mask, .word _ | .token _, .word _ => .rejected .notStreamBytes
  | .extension, .word _ | .trailer, .word _ => .rejected .notStreamBytes
  | .ctrlWrite, .bytes _ | .statusWrite, .bytes _ => .rejected .notHostWord
  | .header _, .bytes _ | .mask, .bytes _ | .token _, .bytes _ => .rejected .truncated
  | .extension, .bytes _ | .trailer, .bytes _ => .rejected .truncated

/-! ### The encoder -/

/-- The CTRL32 word with the given fields (30_encoding.md R87). -/
def ctrlWord (start : Bool) (op : BitVec 2) (endian : Endian) (ie : Bool) : Word :=
  ((0 : BitVec 27) ++ BitVec.ofBool ie ++ BitVec.ofBool (bitOfEndian endian) ++ op ++ BitVec.ofBool start : BitVec 32)

/-- The STAT32 word with the given fields (30_encoding.md R87). -/
def statWord (clrDone clrErr : Bool) : Word :=
  ((0 : BitVec 29) ++ BitVec.ofBool clrErr ++ BitVec.ofBool clrDone ++ (0 : BitVec 1) : BitVec 32)

/-- The two bytes of a copy token (30_encoding.md R84). -/
def copyBytes (ohi : BitVec 3) (lf : BitVec 5) (olo : Byte) : List Byte := [ohi ++ lf, olo]

/-- The words of an instruction, from the encoding tables of 30_encoding.md R81 to R87. -/
def encode (cfg : Config) : Instr → Code
  | .endMarker => .bytes [0x00, 0x00]
  | .blk h => .bytes (be16Bytes h)
  | .raw1 => .bytes (be16Bytes cfg.sentinel)
  | .raw2 => .bytes (be16Bytes cfg.sentinel)
  | .raw2v => .bytes (be16Bytes (BitVec.ofNat 16 cfg.subM2))
  | .illegalSentinel => .bytes (be16Bytes cfg.sentinel)
  | .illegalOversized h => .bytes (be16Bytes h)
  | .mask m => .bytes (be16Bytes m)
  | .lit b => .bytes [b]
  | .cpy ohi lf olo => .bytes (copyBytes ohi lf olo)
  | .cpyx ohi olo => .bytes (copyBytes ohi (escapeField cfg) olo)
  | .ext e => .bytes [e]
  | .illegalZeroOffset lf => .bytes (copyBytes 0 lf 0)
  | .trl => .bytes [0x00, 0x00]
  | .illegalTrailer t => .bytes (be16Bytes t)
  | .cmdDecompress endian ie => .word (ctrlWord true 0 endian ie)
  | .cmdXorRegion endian ie => .word (ctrlWord true 1 endian ie)
  | .cmdKeygen endian ie => .word (ctrlWord true 2 endian ie)
  | .illegalCommand endian ie => .word (ctrlWord true 3 endian ie)
  | .cfgCtrl op endian ie => .word (ctrlWord false op endian ie)
  | .ack clrDone clrErr => .word (statWord clrDone clrErr)

/-- Whether a context can select the instruction at all (30_encoding.md R89, the phase and MODEL columns). -/
def Ctx.admits (cfg : Config) (c : Ctx) (i : Instr) : Bool :=
  match i with
  | .endMarker | .illegalOversized _ => match c with | .header _ => true | _ => false
  | .blk h =>
    match c with
    | .header model => !(model == 2 && h.toNat == cfg.subM2 && cfg.rawSelect == .byValue)
    | _ => false
  | .raw1 => match c with | .header model => model == 1 | _ => false
  | .raw2 => match c with | .header model => model == 2 | _ => false
  | .raw2v => match c with | .header model => model == 2 && cfg.rawSelect == .byValue | _ => false
  | .illegalSentinel => match c with | .header model => model != 1 && model != 2 | _ => false
  | .mask _ => c == .mask
  | .lit _ => c == .token false
  | .cpy _ _ _ | .cpyx _ _ | .illegalZeroOffset _ => c == .token true
  | .ext _ => c == .extension
  | .trl | .illegalTrailer _ => c == .trailer
  | .cmdDecompress _ _ | .cmdXorRegion _ _ | .cmdKeygen _ _ | .illegalCommand _ _ => c == .ctrlWrite
  | .cfgCtrl _ _ _ => c == .ctrlWrite
  | .ack _ _ => c == .statusWrite

/-- How many bytes an instruction takes (30_encoding.md R92; 4 for a host word). -/
def Instr.length : Instr → Nat
  | .endMarker | .blk _ | .raw1 | .raw2 | .raw2v | .illegalSentinel | .illegalOversized _ => 2
  | .mask _ | .cpy _ _ _ | .cpyx _ _ | .illegalZeroOffset _ | .trl | .illegalTrailer _ => 2
  | .lit _ | .ext _ => 1
  | .cmdDecompress _ _ | .cmdXorRegion _ _ | .cmdKeygen _ _ | .illegalCommand _ _ => 4
  | .cfgCtrl _ _ _ | .ack _ _ => 4

/-! ### A word of the opcode table, which names no context -/

/-- The context in which a bare word of the opcode table is read. DESIGN CHOICE (log entry 5): R89 says that the bytes
alone never select an element, so one context is fixed per word. 8 bits are a literal; 32 bits are a CTRL write, but
for 0x06, the ACK word of R95; 16 bits are a block header (under MODEL 1 for the sentinel and MODEL 2 for 0x6000), but
for the words up to 0x8000 that have a copy token's zero offset or the escape length. -/
def tableCtx (nbits w : Nat) : Option Ctx :=
  if nbits = 8 then some (.token false)
  else if nbits = 32 then some (if w % 2 ^ 32 = 0x06 then .statusWrite else .ctrlWrite)
  else if nbits = 16 then
    let v := BitVec.ofNat 16 w
    if v = Config.hw.sentinel then some (.header 1)
    else if v.toNat = Config.hw.subM2 then some (.header 2)
    else if v = 0 ∨ Config.hw.maxBlock < v then some (.header 0)
    else if v &&& 0xE0FF = 0 ∨ v &&& 0x1F00 = 0x0700 then some (.token true)
    else some (.header 0)
  else none

/-- The bytes of a bare word as the stream holds them, with the zero byte that follows it; a host word stays one. -/
def tableCode (nbits w : Nat) : Code :=
  if nbits = 8 then .bytes [BitVec.ofNat 8 w, 0]
  else if nbits = 16 then .bytes (be16Bytes (BitVec.ofNat 16 w) ++ [0])
  else .word (BitVec.ofNat 32 w)

/-- The instruction the decoder reads from a bare word of the opcode table, in the context `tableCtx` gives it. -/
def decodeTableWord (nbits w : Nat) : Option Instr :=
  match tableCtx nbits w with
  | none => none
  | some c =>
    match decode Config.hw c (tableCode nbits w) with
    | .ok i _ => some i
    | .rejected _ => none

end Sys2Proof
end

