-- ==== Sys2Proof/Machine/Memory.lean ====
section
/-! DEFINITION. A byte memory (BUF or OUT): the bytes that have a value, by offset (20_memory.md R60, R61). -/

namespace Sys2Proof.Machine

/-- The bytes that have a value, each with its offset. A byte not listed has no value (70_reset_and_hazards.md R161),
so no entry equals what an unlisted offset reads as. -/
abbrev Memory := List Host.Cell

/-- The canonical form: offsets strictly rising. -/
def memoryWf (m : Memory) : Bool := decide (m.Pairwise fun x y => x.1 < y.1)

/-- The value of the byte at an offset, none where nothing has been stored. -/
def readCell : Memory → Nat → Option Byte
  | [], _ => none
  | (c, b) :: rest, a => if c = a then some b else readCell rest a

/-- Consecutive cells from an offset. -/
def cellRun (a : Nat) : List Byte → Memory
  | [] => []
  | b :: bs => (a, b) :: cellRun (a + 1) bs

/-- `MemWrite(S, a, n, bs)` (00_scope.md R10): store bytes at consecutive offsets. -/
def storeBytes (m : Memory) (a : Nat) (bs : List Byte) : Memory :=
  m.filter (fun x => decide (x.1 < a)) ++ cellRun a bs ++ m.filter (fun x => decide (a + bs.length ≤ x.1))

/-- Every listed offset is below a bound. -/
def memoryBelow (m : Memory) (n : Nat) : Bool := m.all fun x => decide (x.1 < n)

end Sys2Proof.Machine
end

