-- ==== Sys2Proof/Machine/State.lean ====
section
/-! DEFINITION. The state of PFT-LZD (10_state.md R17 to R39), the reasons a step stops, and the state after reset. -/

namespace Sys2Proof.Machine

/-- The state of the engine's state machine (10_state.md R36). -/
inductive Phase
  | idle | cmd | lCheck | lSig | lHdr | lTok | lTrl | lRaw | xIv | xChk | xBlk
  deriving DecidableEq, Repr

/-- The fault kinds of 60_exceptions.md R140. A hardware fault is a NEXT state, not a stop of the model. -/
inductive Cause
  | unrecognizedFormat | alignmentError | outOfBounds | checksumFailure | missingCompressionSignature
  | oversizedBlock | incompleteBlock | zeroOffsetCopy | missingBlockTrailer | outputCapacityExceeded
  | offsetBeforeStart | illegalCommand
  deriving DecidableEq, Repr

/-- A copy token whose extension bytes are being read: the temporaries t, len and off of 44_lzd_tokens.md R129. -/
structure PendingCopy where
  /-- Offset of the token's first byte. -/
  t : Nat
  /-- The length so far; an unbounded temporary (10_state.md R31). -/
  len : Nat
  /-- The backward offset. -/
  off : BitVec 11
  deriving DecidableEq, Repr

/-- The temporaries p, m and s of the token step in progress (44_lzd_tokens.md R129). -/
structure Work where
  /-- Offset of the next byte to read. -/
  p : Nat
  /-- The mask word. -/
  m : Half
  /-- The one-hot selector. -/
  s : Half
  /-- The copy token whose extension bytes come next, if there is one. -/
  copy : Option PendingCopy
  deriving DecidableEq, Repr

/-- A bit of STATUS the host branches on (70_reset_and_hazards.md R163 step 8). -/
inductive StatusFlag
  | done  -- STATUS.DONE
  | err   -- STATUS.ERR
  deriving DecidableEq, Repr

/-- One action of the host (30_encoding.md R95, 70_reset_and_hazards.md R163 to R165, R173; log entries 3 and 26). -/
inductive HostOp
  | wr (off : Nat) (v : Word)           -- a 32-bit write to REG
  | rd (off : Nat)                      -- a 32-bit read of REG
  | load (off : Nat) (bs : List Byte)   -- store bytes in BUF
  | storeOut (off : Nat) (bs : List Byte)  -- store bytes in OUT
  | readBuf (off n : Nat)               -- read bytes of BUF
  | readOut (off n : Nat)               -- read bytes of OUT
  | readImage                           -- read OUT[0 .. OUT_LEN - 1]
  | wait                                -- read STATUS until BUSY is 0
  | waitIrq                             -- wait until the interrupt output is 1
  | tick                                -- let the engine take one step
  | onlyIf (flag : StatusFlag) (n : Nat)  -- read STATUS; leave out the next n actions unless the flag is 1
  | stopOnErr                           -- give up the remaining actions if STATUS.ERR is 1
  | reset                               -- reset the block
  deriving DecidableEq, Repr

/-- The state of PFT-LZD, its free-value counter, and the host actions it has yet to see. -/
structure State where
  /-- CTRL.OP (R21). -/
  op : BitVec 2
  /-- CTRL.ENDIAN (R21). -/
  endian : Endian
  /-- CTRL.IE (R21). -/
  ie : Bool
  /-- STATUS.DONE (R22). -/
  done : Bool
  /-- STATUS.ERR (R22). -/
  err : Bool
  /-- STATUS.ERR_CODE (R22). -/
  errCode : Byte
  /-- BUF_LEN (R23). -/
  bufLen : Word
  /-- MODEL bits [7:0] (R24). -/
  model : Byte
  /-- XBASE (R25). -/
  xbase : Word
  /-- XIVOFF (R25). -/
  xivoff : Word
  /-- XSTART (R25). -/
  xstart : Word
  /-- XLEN (R25). -/
  xlen : Word
  /-- ERR_IN (R27). -/
  errIn : Word
  /-- ERR_OUT (R27). -/
  errOut : Word
  /-- ERR_VAL (R27). -/
  errVal : Word
  /-- KEY[0] .. KEY[31] (R29, R35). -/
  key : Vector Word 32
  /-- IC, the input cursor and program counter, read as IN_POS (R26, R30, R32). -/
  ic : Word
  /-- OC, the output cursor, read as OUT_LEN (R26, R30). -/
  oc : Word
  /-- BSTART (R30). -/
  bstart : Word
  /-- BLEN (R30). -/
  blen : Half
  /-- BEND (R30). -/
  bend : Word
  /-- RAWN (R30). -/
  rawn : Half
  /-- MASK (R30). -/
  mask : Half
  /-- SEL (R30). -/
  sel : Half
  /-- PHASE (R36). -/
  phase : Phase
  /-- BUF (R38, R60). -/
  buf : Memory
  /-- OUT (R38, R61). -/
  out : Memory
  /-- The model's own: the temporaries of the token step in progress, none between steps (log entry 8). -/
  work : Option Work
  /-- The model's own: numbers the reads that may meet a byte without a value (log entry 2). -/
  draws : Nat
  /-- The model's own: the host's actions yet to happen, first one first (log entry 3). -/
  pending : List HostOp
  /-- The model's own: the word the host's last REG read returned (log entry 12). -/
  rdData : Word
  /-- The model's own: the bytes the host's last memory read returned (log entry 12). -/
  memData : List Byte
  deriving DecidableEq, Repr

/-- Why the machine stops with a fault of the model (not a fault code of the hardware). -/
inductive Fault
  /-- Raised by a host store to or read of BUF at an offset the BUF memory does not have (R60). Safe. -/
  | bufOffsetAbsent
  /-- Raised by a host store to or read of OUT at an offset the OUT memory does not have (R61). Safe. -/
  | outOffsetAbsent
  deriving DecidableEq, Repr

/-- Why a move has no meaning. -/
inductive Refusal
  /-- Raised by `exec` for an instruction that has no meaning yet. Safe. -/
  | notModelled (mnemonic : String)
  /-- Raised by a host REG access at an offset that is not a multiple of 4: no operation of this hardware (R20). Safe. -/
  | regMisaligned
  /-- Raised by a host REG access outside the 0x100-byte window (R19, R20). Safe. -/
  | regOutsideWindow
  /-- Raised by a host access to BUF or OUT while BUSY is 1, which the spec says a model refuses (R173). Safe. -/
  | memoryWhileBusy
  /-- Raised by an extension byte with no copy token before it, which no stream holds (R85). Safe. -/
  | extOutsideCopy
  /-- Raised where the decoder rejects what was fetched; the fetch gives it whole elements, so never. Safe. -/
  | undecodable (r : Reject)
  /-- Raised by a token step that does not end within its token region; it always does, so never. Safe. -/
  | tokenStepUnended
  deriving DecidableEq, Repr

/-- The machine right after reset (10_state.md R39, 70_reset_and_hazards.md R160 to R162). -/
def State.reset : State where
  op := 0
  endian := .little
  ie := false
  done := false
  err := false
  errCode := 0
  bufLen := 0
  model := 0
  xbase := 0
  xivoff := 0
  xstart := 0
  xlen := 0
  errIn := 0
  errOut := 0
  errVal := 0
  key := Vector.replicate 32 0
  ic := 0
  oc := 0
  bstart := 0
  blen := 0
  bend := 0
  rawn := 0
  mask := 0
  sel := 0
  phase := .idle
  buf := []
  out := []
  work := none
  draws := 0
  pending := []
  rdData := 0
  memData := []

end Sys2Proof.Machine
end

