-- ==== Sys2Proof/Machine/Flags.lean ====
section
/-! DEFINITION. The flags BUSY, DONE and ERR, the words CTRL and STATUS read as, and the interrupt output
(10_state.md R21, R22, R34; 60_exceptions.md R140, R146). -/

namespace Sys2Proof.Machine

/-- STATUS.BUSY: 1 exactly when PHASE is not IDLE (10_state.md R22, R36). -/
def State.busy (s : State) : Bool := decide (s.phase ≠ .idle)

/-- The IRQ output, a level: `CTRL.IE & (STATUS.DONE | STATUS.ERR)` (60_exceptions.md R146). -/
def State.irq (s : State) : Bool := s.ie && (s.done || s.err)

/-- The code of a fault in STATUS.ERR_CODE (60_exceptions.md R140). -/
def causeCode : Cause → Byte
  | .unrecognizedFormat => 1
  | .alignmentError => 2
  | .outOfBounds => 3
  | .checksumFailure => 4
  | .missingCompressionSignature => 5
  | .oversizedBlock => 6
  | .incompleteBlock => 7
  | .zeroOffsetCopy => 8
  | .missingBlockTrailer => 9
  | .outputCapacityExceeded => 10
  | .offsetBeforeStart => 11
  | .illegalCommand => 12

/-- What a read of CTRL returns: START reads 0, bits [31:5] read 0 (10_state.md R21). -/
def State.ctrlWord (s : State) : Word := Sys2Proof.ctrlWord false s.op s.endian s.ie

/-- What a read of STATUS returns: BUSY, DONE and ERR in bits 0 to 2, ERR_CODE in bits [15:8], the rest 0
(10_state.md R22). -/
def State.statusWord (s : State) : Word :=
  ((0 : BitVec 16) ++ s.errCode ++ (0 : BitVec 5) ++ BitVec.ofBool s.err ++ BitVec.ofBool s.done ++
    BitVec.ofBool s.busy : BitVec 32)

end Sys2Proof.Machine
end

