-- ==== Sys2Proof/Machine/Ops.lean ====
section
/-! DEFINITION. The named operations over memory and registers: reading a byte, taking a fault, completing a command,
starting one, and committing a token step. -/

namespace Sys2Proof.Machine

/-! ### Memory -/

/-- `BUF[a]`: the byte stored there; where none has been, a free value (70_reset_and_hazards.md R161; log entry 1). -/
def bufByte (s : State) (a : Nat) : Byte := (readCell s.buf a).getD (Config.freeBufByte s.draws a)

/-- `OUT[a]`: the byte stored there; where none has been, a free value (70_reset_and_hazards.md R161; log entry 1). -/
def outByte (s : State) (a : Nat) : Byte := (readCell s.out a).getD (Config.freeOutByte s.draws a)

/-- `MemRead(BUF, a, n)` (00_scope.md R10). -/
def bufBytes (s : State) (a : Nat) : Nat → List Byte
  | 0 => []
  | n + 1 => bufByte s a :: bufBytes s (a + 1) n

/-- `MemRead(OUT, a, n)` (00_scope.md R10). -/
def outBytes (s : State) (a : Nat) : Nat → List Byte
  | 0 => []
  | n + 1 => outByte s a :: outBytes s (a + 1) n

/-- The next read of a byte without a value is a new draw (10_state.md R39; log entry 2). -/
def redraw (s : State) : State := { s with draws := s.draws + 1 }

/-! ### Faults and completion -/

/-- What a 32-bit register captures of an exact value: the value itself below 2^32, a free value from there on, where
the spec states none (10_state.md R27; log entry 10). -/
def capture (n : Nat) : Word := if n < 2 ^ 32 then BitVec.ofNat 32 n else Config.wideCapture n

/-- TAKING A FAULT: `raise F(in, val)` (60_exceptions.md R141). Applied to the state as it was before the step, so none
of the step's other writes is committed; ERR_OUT takes OC from before the step and the engine goes idle. There is no
return from a fault (R149): ACK (R101) or the next START (R100) clears it. -/
def raiseFault (c : Cause) (inp val : Nat) (s : State) : State :=
  { s with
    err := true, errCode := causeCode c, errIn := capture inp, errVal := capture val, errOut := s.oc,
    phase := .idle, work := none }

/-- The step that raises `F(in, val)`: a next state. -/
def fault (c : Cause) (inp val : Nat) (s : State) : Host.Outcome State Fault Refusal :=
  .next (raiseFault c inp val s)

/-- COMPLETION: `done` in a step, applied to the state with the step's writes committed (60_exceptions.md R143). -/
def complete (s : State) : State := { s with done := true, phase := .idle, work := none }

/-! ### Host command words -/

/-- The effect of an accepted START (40_host_commands.md R100). -/
def startCommand (s : State) : State :=
  { s with
    done := false, err := false, errCode := 0, errIn := 0, errOut := 0, errVal := 0, ic := 0, oc := 0,
    phase := .cmd, draws := s.draws + 1 }

/-- CTRL's OP, ENDIAN and IE take the written bits (40_host_commands.md R100). -/
def setCtrl (op : BitVec 2) (endian : Endian) (ie : Bool) (s : State) : State :=
  { s with op := op, endian := endian, ie := ie }

/-- A write to CTRL (40_host_commands.md R100): while BUSY only IE is taken. -/
def writeCtrl (start : Bool) (op : BitVec 2) (endian : Endian) (ie : Bool) (s : State) : State :=
  if s.busy then { s with ie := ie }
  else if start then startCommand (setCtrl op endian ie s)
  else setCtrl op endian ie s

/-- A write to STATUS (40_host_commands.md R101): ERR and ERR_CODE are cleared together, ERR_IN, ERR_OUT and ERR_VAL
keep their values. -/
def acknowledge (clrDone clrErr : Bool) (s : State) : State :=
  { s with
    done := if clrDone then false else s.done
    err := if clrErr then false else s.err
    errCode := if clrErr then 0 else s.errCode }

/-! ### Block headers (43_lzd_blocks.md R121) -/

/-- The first check of the header step, `h + 2 <= BUF_LEN` with h = IC. -/
def headerInBounds (s : State) : Bool := decide (s.ic.toNat + 2 ≤ s.bufLen.toNat)

/-- A header element: OutOfBounds(h, 2) if the header does not fit, else what the element does. -/
def withHeader (k : State → State) (s : State) : Host.Outcome State Fault Refusal :=
  if headerInBounds s then .next (k s) else fault .outOfBounds s.ic.toNat 2 s

/-- The block-fit check (43_lzd_blocks.md R123): `L + MARGIN <= BUF_LEN - b`, with b just after the header. -/
def blockFits (cfg : Config) (len : Nat) (s : State) : Bool :=
  decide (len + cfg.margin ≤ s.bufLen.toNat - (s.ic.toNat + 2))

/-- BSTART, BLEN and IC of an accepted block (43_lzd_blocks.md R121). -/
def enterBlock (len : Nat) (s : State) : State :=
  { s with
    bstart := BitVec.ofNat 32 (s.ic.toNat + 2), blen := BitVec.ofNat 16 len, ic := BitVec.ofNat 32 (s.ic.toNat + 2) }

/-- A raw block's header: RAWN bytes are to be copied (43_lzd_blocks.md R121). -/
def openRaw (cfg : Config) (len n : Nat) (s : State) : State :=
  if blockFits cfg len s then { enterBlock len s with rawn := BitVec.ofNat 16 n, phase := .lRaw }
  else raiseFault .incompleteBlock s.ic.toNat len s

/-- A token block's header: a fresh group, and straight to the trailer if the token region is empty
(43_lzd_blocks.md R121). -/
def openTokens (cfg : Config) (len : Nat) (s : State) : State :=
  if blockFits cfg len s then
    if len < 2 then raiseFault .missingBlockTrailer s.ic.toNat len s
    else
      { enterBlock len s with
        bend := BitVec.ofNat 32 (s.ic.toNat + 2 + len - 2), mask := 0, sel := 0,
        phase := if len = 2 then .lTrl else .lTok }
  else raiseFault .incompleteBlock s.ic.toNat len s

/-- The end of a block: IC moves past it and the next header is read (43_lzd_blocks.md R126, R127). -/
def leaveBlock (s : State) : State :=
  { s with ic := BitVec.ofNat 32 (s.bstart.toNat + s.blen.toNat), phase := .lHdr }

/-! ### The token step (44_lzd_tokens.md R129) -/

/-- The step's temporaries: `p = IC; m = MASK; s = SEL` where the step has read nothing yet. -/
def State.cursor (s : State) : Work :=
  s.work.getD { p := s.ic.toNat, m := s.mask, s := s.sel, copy := none }

/-- `need(a, n)` (00_scope.md R13). -/
def need (s : State) (a n : Nat) : Bool := decide (a + n ≤ s.bend.toNat)

/-- The fault of a `need(a, n)` that fails: `IncompleteBlock(a, BLEN)` (00_scope.md R13). -/
def incomplete (a : Nat) (s : State) : Host.Outcome State Fault Refusal :=
  fault .incompleteBlock a s.blen.toNat s

/-- The selector of a group's first token: 0x8000 for a group of 16 (44_lzd_tokens.md R130). It moves one bit right per
token, so it is 0 after GROUP tokens. -/
def firstSelector (cfg : Config) : Half := BitVec.ofNat 16 (2 ^ (cfg.group - 1))

/-- Keep the temporaries: the step goes on with its next element. -/
def continueStep (w : Work) (s : State) : State := { s with work := some w }

/-- The last line of the token step: IC, MASK and SEL are committed, and the region may have ended. -/
def commitToken (w : Work) (s : State) : State :=
  { s with
    ic := BitVec.ofNat 32 w.p, mask := w.m, sel := w.s >>> 1,
    phase := if BitVec.ofNat 32 w.p = s.bend then .lTrl else s.phase, work := none }

/-- Room for n more bytes in OUT: `OC + n <= OUT_CAP` (20_memory.md R61). -/
def outRoom (cfg : Config) (s : State) (n : Nat) : Bool := decide (s.oc.toNat + n ≤ cfg.outCap)

/-- Store bytes at OC and advance it (20_memory.md R61). -/
def emit (bs : List Byte) (s : State) : State :=
  { s with out := storeBytes s.out s.oc.toNat bs, oc := BitVec.ofNat 32 (s.oc.toNat + bs.length) }

/-- The first k bytes of a copy: byte k is `OUT[OC + k - off]`, and a read sees the bytes already written. -/
def copyLoop (off : Nat) (s : State) : Nat → State
  | 0 => s
  | k + 1 => let s' := copyLoop off s k; emit [outByte s' (s'.oc.toNat - off)] s'

/-- The checks of a complete copy token and its effect, in the order of 44_lzd_tokens.md R134: zero offset, offset
before the start of the output, capacity; then the copy and the commit. -/
def finishCopy (cfg : Config) (w : Work) (c : PendingCopy) (s : State) : State :=
  if c.off = 0 then raiseFault .zeroOffsetCopy c.t c.len s
  else if s.oc.toNat < c.off.toNat then raiseFault .offsetBeforeStart c.t c.off.toNat s
  else if outRoom cfg s c.len = false then raiseFault .outputCapacityExceeded c.t c.len s
  else commitToken w (redraw (copyLoop c.off.toNat s c.len))

/-- The two bytes of a copy token (44_lzd_tokens.md R129): with the escape length the step goes on with the extension
bytes, otherwise the copy is complete. -/
def copyToken (cfg : Config) (ohi : BitVec 3) (lf : BitVec 5) (olo : Byte) (s : State) :
    Host.Outcome State Fault Refusal :=
  let w := s.cursor
  if need s w.p 2 then
    let c : PendingCopy := { t := w.p, len := copyLength cfg lf, off := copyOffset ohi olo }
    if c.len = cfg.escLen then .next (continueStep { w with p := w.p + 2, copy := some c } s)
    else .next (finishCopy cfg { w with p := w.p + 2 } c s)
  else incomplete w.p s

end Sys2Proof.Machine
end

