-- ==== Sys2Proof/Machine/Commands.lean ====
section
/-! DEFINITION. The meanings of the host command words: the writes to CTRL and STATUS (40_host_commands.md R100, R101,
R103 to R105). The steps of the commands are the engine's (Xke.lean, Lzd.lean). -/

namespace Sys2Proof.Machine

/-- CMD_DECOMPRESS (40_host_commands.md R100, R103): START with OP = 0. -/
def execCmdDecompress (endian : Endian) (ie : Bool) (s : State) : Host.Outcome State Fault Refusal :=
  .next (writeCtrl true 0 endian ie s)

/-- CMD_XOR_REGION (40_host_commands.md R100, R104): START with OP = 1. -/
def execCmdXorRegion (endian : Endian) (ie : Bool) (s : State) : Host.Outcome State Fault Refusal :=
  .next (writeCtrl true 1 endian ie s)

/-- CMD_KEYGEN (40_host_commands.md R100, R105): START with OP = 2. -/
def execCmdKeygen (endian : Endian) (ie : Bool) (s : State) : Host.Outcome State Fault Refusal :=
  .next (writeCtrl true 2 endian ie s)

/-- ILLEGAL_COMMAND (40_host_commands.md R100, R102): START with OP = 3 is accepted; the command's first step raises
IllegalCommand. -/
def execIllegalCommand (endian : Endian) (ie : Bool) (s : State) : Host.Outcome State Fault Refusal :=
  .next (writeCtrl true 3 endian ie s)

/-- CFG_CTRL (40_host_commands.md R100): OP, ENDIAN and IE are stored and nothing starts. -/
def execCfgCtrl (op : BitVec 2) (endian : Endian) (ie : Bool) (s : State) : Host.Outcome State Fault Refusal :=
  .next (writeCtrl false op endian ie s)

/-- ACK (40_host_commands.md R101): DONE and ERR are cleared as asked. -/
def execAck (clrDone clrErr : Bool) (s : State) : Host.Outcome State Fault Refusal :=
  .next (acknowledge clrDone clrErr s)

end Sys2Proof.Machine
end

