-- ==== Sys2Proof/Machine/Headers.lean ====
section
/-! DEFINITION. The meanings of the block headers: END, BLK, RAW1, RAW2, RAW2V and the two illegal headers
(43_lzd_blocks.md R121 to R125). A meaning that reads the configuration is `run…`, of any configuration, and `exec…`
is it for the hardware's own (00_scope.md R16). The payload of a raw block is the engine step L_RAW, in Lzd.lean. -/

namespace Sys2Proof.Machine

/-- END (43_lzd_blocks.md R125): IC moves past the header and the command completes. -/
def execEndMarker (s : State) : Host.Outcome State Fault Refusal :=
  withHeader (fun s => complete { s with ic := BitVec.ofNat 32 (s.ic.toNat + 2) }) s

/-- BLK (43_lzd_blocks.md R121, R124): a token block of length h. -/
def runBlk (cfg : Config) (h : Half) (s : State) : Host.Outcome State Fault Refusal :=
  withHeader (openTokens cfg h.toNat) s

/-- BLK (43_lzd_blocks.md R121, R124), on this hardware. -/
def execBlk (h : Half) (s : State) : Host.Outcome State Fault Refusal :=
  runBlk Config.hw h s

/-- RAW1 (43_lzd_blocks.md R121, R124): a raw block of SUB_M1 bytes, whose last two are dropped. -/
def runRaw1 (cfg : Config) (s : State) : Host.Outcome State Fault Refusal :=
  withHeader (openRaw cfg cfg.subM1 (cfg.subM1 - 2)) s

/-- RAW1 (43_lzd_blocks.md R121, R124), on this hardware. -/
def execRaw1 (s : State) : Host.Outcome State Fault Refusal :=
  runRaw1 Config.hw s

/-- RAW2 (43_lzd_blocks.md R121, R124): a raw block of SUB_M2 bytes, by the sentinel. -/
def runRaw2 (cfg : Config) (s : State) : Host.Outcome State Fault Refusal :=
  withHeader (openRaw cfg cfg.subM2 cfg.subM2) s

/-- RAW2 (43_lzd_blocks.md R121, R124), on this hardware. -/
def execRaw2 (s : State) : Host.Outcome State Fault Refusal :=
  runRaw2 Config.hw s

/-- RAW2V (43_lzd_blocks.md R121, R124): a raw block of SUB_M2 bytes, by a literal header of that value. -/
def runRaw2v (cfg : Config) (s : State) : Host.Outcome State Fault Refusal :=
  withHeader (openRaw cfg cfg.subM2 cfg.subM2) s

/-- RAW2V (43_lzd_blocks.md R121, R124), on this hardware. -/
def execRaw2v (s : State) : Host.Outcome State Fault Refusal :=
  runRaw2v Config.hw s

/-- ILLEGAL_SENTINEL (43_lzd_blocks.md R122): the sentinel under a MODEL other than 1 and 2 is OversizedBlock. -/
def runIllegalSentinel (cfg : Config) (s : State) : Host.Outcome State Fault Refusal :=
  withHeader (fun s => raiseFault .oversizedBlock s.ic.toNat cfg.sentinel.toNat s) s

/-- ILLEGAL_SENTINEL (43_lzd_blocks.md R122), on this hardware. -/
def execIllegalSentinel (s : State) : Host.Outcome State Fault Refusal :=
  runIllegalSentinel Config.hw s

/-- ILLEGAL_OVERSIZED (43_lzd_blocks.md R122): a header above MAX_BLOCK is OversizedBlock. -/
def execIllegalOversized (h : Half) (s : State) : Host.Outcome State Fault Refusal :=
  withHeader (fun s => raiseFault .oversizedBlock s.ic.toNat h.toNat s) s

end Sys2Proof.Machine
end

