-- ==== Sys2Proof/Machine/Tokens.lean ====
section
/-! DEFINITION. The meanings of the elements of the token stream: MASK, LIT, CPY, CPYX, EXT and the zero-offset copy
(44_lzd_tokens.md R129 to R134). One engine step runs the elements of one token in order (Engine.lean); an element
that does not end the token leaves the registers as they are and keeps the step's temporaries (log entry 8). `run…` is
the meaning of any configuration, and `exec…` is it for the hardware's own (00_scope.md R16). -/

namespace Sys2Proof.Machine

/-- MASK (44_lzd_tokens.md R130): the mask word that opens a group; the token follows it in the same step. -/
def runMask (cfg : Config) (m : Half) (s : State) : Host.Outcome State Fault Refusal :=
  let w := s.cursor
  if need s w.p 2 then .next (continueStep { p := w.p + 2, m := m, s := firstSelector cfg, copy := none } s)
  else incomplete w.p s

/-- MASK (44_lzd_tokens.md R130), on this hardware. -/
def execMask (m : Half) (s : State) : Host.Outcome State Fault Refusal :=
  runMask Config.hw m s

/-- LIT (44_lzd_tokens.md R131): one byte to OUT. -/
def runLit (cfg : Config) (b : Byte) (s : State) : Host.Outcome State Fault Refusal :=
  let w := s.cursor
  if need s w.p 1 = false then incomplete w.p s
  else if outRoom cfg s 1 = false then fault .outputCapacityExceeded w.p 1 s
  else .next (commitToken { w with p := w.p + 1 } (emit [b] s))

/-- LIT (44_lzd_tokens.md R131), on this hardware. -/
def execLit (b : Byte) (s : State) : Host.Outcome State Fault Refusal :=
  runLit Config.hw b s

/-- CPY (44_lzd_tokens.md R132): a copy of `lf + 3` bytes. -/
def runCpy (cfg : Config) (ohi : BitVec 3) (lf : BitVec 5) (olo : Byte) (s : State) :
    Host.Outcome State Fault Refusal :=
  copyToken cfg ohi lf olo s

/-- CPY (44_lzd_tokens.md R132), on this hardware. -/
def execCpy (ohi : BitVec 3) (lf : BitVec 5) (olo : Byte) (s : State) : Host.Outcome State Fault Refusal :=
  runCpy Config.hw ohi lf olo s

/-- CPYX (44_lzd_tokens.md R133): the escape length; the extension bytes follow in the same step. -/
def runCpyx (cfg : Config) (ohi : BitVec 3) (olo : Byte) (s : State) : Host.Outcome State Fault Refusal :=
  copyToken cfg ohi (escapeField cfg) olo s

/-- CPYX (44_lzd_tokens.md R133), on this hardware. -/
def execCpyx (ohi : BitVec 3) (olo : Byte) (s : State) : Host.Outcome State Fault Refusal :=
  runCpyx Config.hw ohi olo s

/-- EXT (44_lzd_tokens.md R133): added to the length; 0xFF means another follows, any other value ends the copy
token, whose checks and copy then happen. -/
def runExt (cfg : Config) (e : Byte) (s : State) : Host.Outcome State Fault Refusal :=
  let w := s.cursor
  match w.copy with
  | none => .refused .extOutsideCopy
  | some c =>
    let c' : PendingCopy := { c with len := c.len + e.toNat }
    if need s w.p 1 = false then incomplete w.p s
    else if e = 0xFF then .next (continueStep { w with p := w.p + 1, copy := some c' } s)
    else .next (finishCopy cfg { w with p := w.p + 1 } c' s)

/-- EXT (44_lzd_tokens.md R133), on this hardware. -/
def execExt (e : Byte) (s : State) : Host.Outcome State Fault Refusal :=
  runExt Config.hw e s

/-- ILLEGAL_ZERO_OFFSET (44_lzd_tokens.md R132, R133): a copy token of offset 0; with the escape length its extension
bytes are read first. -/
def runIllegalZeroOffset (cfg : Config) (lf : BitVec 5) (s : State) : Host.Outcome State Fault Refusal :=
  copyToken cfg 0 lf 0 s

/-- ILLEGAL_ZERO_OFFSET (44_lzd_tokens.md R132, R133), on this hardware. -/
def execIllegalZeroOffset (lf : BitVec 5) (s : State) : Host.Outcome State Fault Refusal :=
  runIllegalZeroOffset Config.hw lf s

end Sys2Proof.Machine
end

