-- ==== Sys2Proof/Machine/Trailers.lean ====
section
/-! DEFINITION. The meanings of the trailers: TRL and the illegal trailer (43_lzd_blocks.md R127). -/

namespace Sys2Proof.Machine

/-- TRL (43_lzd_blocks.md R127): the block ends and the next header is read. -/
def execTrl (s : State) : Host.Outcome State Fault Refusal := .next (leaveBlock s)

/-- ILLEGAL_TRAILER (43_lzd_blocks.md R127): MissingBlockTrailer(BEND, t). -/
def execIllegalTrailer (t : Half) (s : State) : Host.Outcome State Fault Refusal :=
  fault .missingBlockTrailer s.bend.toNat t.toNat s

end Sys2Proof.Machine
end

