-- ==== Sys2Proof/Machine/Dispatch.lean ====
section
/-! DEFINITION. The dispatch: one arm per instruction, each one call of its meaning. -/

namespace Sys2Proof.Machine

def exec (i : Instr) (s : State) : Host.Outcome State Fault Refusal :=
  match i with
  | .endMarker => Sys2Proof.Machine.execEndMarker s
  | .blk h => Sys2Proof.Machine.execBlk h s
  | .raw1 => Sys2Proof.Machine.execRaw1 s
  | .raw2 => Sys2Proof.Machine.execRaw2 s
  | .raw2v => Sys2Proof.Machine.execRaw2v s
  | .illegalSentinel => Sys2Proof.Machine.execIllegalSentinel s
  | .illegalOversized h => Sys2Proof.Machine.execIllegalOversized h s
  | .mask m => Sys2Proof.Machine.execMask m s
  | .lit b => Sys2Proof.Machine.execLit b s
  | .cpy ohi lf olo => Sys2Proof.Machine.execCpy ohi lf olo s
  | .cpyx ohi olo => Sys2Proof.Machine.execCpyx ohi olo s
  | .ext e => Sys2Proof.Machine.execExt e s
  | .illegalZeroOffset lf => Sys2Proof.Machine.execIllegalZeroOffset lf s
  | .trl => Sys2Proof.Machine.execTrl s
  | .illegalTrailer t => Sys2Proof.Machine.execIllegalTrailer t s
  | .cmdDecompress endian ie => Sys2Proof.Machine.execCmdDecompress endian ie s
  | .cmdXorRegion endian ie => Sys2Proof.Machine.execCmdXorRegion endian ie s
  | .cmdKeygen endian ie => Sys2Proof.Machine.execCmdKeygen endian ie s
  | .illegalCommand endian ie => Sys2Proof.Machine.execIllegalCommand endian ie s
  | .cfgCtrl op endian ie => Sys2Proof.Machine.execCfgCtrl op endian ie s
  | .ack clrDone clrErr => Sys2Proof.Machine.execAck clrDone clrErr s

end Sys2Proof.Machine
end

