-- ==== Sys2Proof/Machine/Operands.lean ====
section
/-! DEFINITION. The operands the engine assembles from BUF: the WordCodec of 00_scope.md R11 and the element the
decoder stands at (30_encoding.md R89). -/

namespace Sys2Proof.Machine

/-- `be16(a)` (00_scope.md R11). -/
def be16At (s : State) (a : Nat) : Half := be16 (bufByte s a) (bufByte s (a + 1))

/-- A 32-bit word of four bytes in memory order: `le32` or `be32` (00_scope.md R11). -/
def assembleWord (e : Endian) (b0 b1 b2 b3 : Byte) : Word :=
  match e with
  | .little => b3 ++ b2 ++ b1 ++ b0
  | .big => b0 ++ b1 ++ b2 ++ b3

/-- `rdw(a, E)` (00_scope.md R11). -/
def rdw (s : State) (e : Endian) (a : Nat) : Word :=
  assembleWord e (bufByte s a) (bufByte s (a + 1)) (bufByte s (a + 2)) (bufByte s (a + 3))

/-- The four bytes of `wrw(a, E, v)` in memory order (00_scope.md R11). -/
def wordBytes (e : Endian) (v : Word) : List Byte :=
  match e with
  | .little => [v.extractLsb' 0 8, v.extractLsb' 8 8, v.extractLsb' 16 8, v.extractLsb' 24 8]
  | .big => [v.extractLsb' 24 8, v.extractLsb' 16 8, v.extractLsb' 8 8, v.extractLsb' 0 8]

/-- Where the decoder stands inside a token step (30_encoding.md R89): a mask word if SEL is 0, an extension byte
inside a copy token, else the token its mask bit selects. -/
def tokenCtx (w : Work) : Ctx :=
  match w.copy with
  | some _ => .extension
  | none => if w.s = 0 then .mask else .token (decide (w.m &&& w.s ≠ 0))

/-- How many bytes the decoder reads there (30_encoding.md R92). -/
def ctxBytes : Ctx → Nat
  | .header _ | .mask | .token true | .trailer => 2
  | .token false | .extension => 1
  | .ctrlWrite | .statusWrite => 0

/-- Where the decoder stands at the engine's next element, and the BUF offset of that element (10_state.md R36;
none in the phases whose step decodes nothing). -/
def fetchPoint (s : State) : Option (Ctx × Nat) :=
  match s.phase with
  | .lHdr => some (.header s.model, s.ic.toNat)
  | .lTok => some (tokenCtx s.cursor, s.cursor.p)
  | .lTrl => some (.trailer, s.bend.toNat)
  | .idle | .cmd | .lCheck | .lSig | .lRaw | .xIv | .xChk | .xBlk => none

/-- Whether the bytes of the next element may be read: below BUF_LEN for a header (43_lzd_blocks.md R121), below BEND
for a token (00_scope.md R13), always for a trailer (R127). -/
def fetchAllowed (s : State) (c : Ctx) (a : Nat) : Bool :=
  match s.phase with
  | .lHdr => headerInBounds s
  | .lTok => need s a (ctxBytes c)
  | _ => true

/-- The fault of an element that may not be read: OutOfBounds for a header (43_lzd_blocks.md R121), IncompleteBlock
for a token (00_scope.md R13). -/
def fetchFault (s : State) (a : Nat) : Host.Outcome State Fault Refusal :=
  match s.phase with
  | .lHdr => fault .outOfBounds a 2 s
  | _ => incomplete a s

/-- The element the engine reads next, as the decoder answers it. -/
def fetchDecode (cfg : Config) (s : State) (c : Ctx) (a : Nat) : Decoded :=
  decode cfg c (.bytes (bufBytes s a (ctxBytes c)))

end Sys2Proof.Machine
end

