-- ==== Sys2Proof/Machine/Lzd.lean ====
section
/-! DEFINITION. The steps of the LZD unit that decode no element: checksum, signature and raw block payload
(42_lzd_checks.md R116, R118; 43_lzd_blocks.md R126). -/

namespace Sys2Proof.Machine

/-- The sum mod 2^32 of the first k little-endian words of BUF (42_lzd_checks.md R116). -/
def wordSum (s : State) : Nat → Word
  | 0 => 0
  | k + 1 => wordSum s k + rdw s .little (4 * k)

/-- Checksum step, PHASE = L_CHECK (42_lzd_checks.md R116). -/
def lCheckStep (s : State) : State :=
  let n := s.bufLen.toNat
  if n % 4 ≠ 0 then raiseFault .checksumFailure n (n % 4) s
  else
    let sum := wordSum s (n / 4)
    if sum ≠ 0 then raiseFault .checksumFailure 0 sum.toNat s
    else redraw { s with phase := .lSig }

/-- Signature step, PHASE = L_SIG (42_lzd_checks.md R118). -/
def lSigStep (cfg : Config) (s : State) : State :=
  if s.bufLen.toNat < cfg.sigOff + 2 then raiseFault .outOfBounds cfg.sigOff 2 s
  else if be16At s cfg.sigOff = 0 then raiseFault .missingCompressionSignature cfg.sigOff 0 s
  else { s with ic := BitVec.ofNat 32 cfg.streamStart, phase := .lHdr }

/-- Raw block step, PHASE = L_RAW (43_lzd_blocks.md R126). -/
def lRawStep (cfg : Config) (s : State) : State :=
  let n := s.rawn.toNat
  if outRoom cfg s n = false then raiseFault .outputCapacityExceeded s.bstart.toNat n s
  else leaveBlock (emit (bufBytes s s.bstart.toNat n) s)

end Sys2Proof.Machine
end

