-- ==== Sys2Proof/Machine/Xke.lean ====
section
/-! DEFINITION. The dispatch step and the XKE unit: the key schedule, the IV step, the region check and the XOR block
step (40_host_commands.md R102; 41_xke_keystream.md R107 to R112). -/

namespace Sys2Proof.Machine

/-- Dispatch step, PHASE = CMD (40_host_commands.md R102). -/
def cmdStep (cfg : Config) (s : State) : State :=
  if s.op = 3 then raiseFault .illegalCommand 0 3 s
  else if cfg.bufCap.toNat < s.bufLen.toNat then raiseFault .outOfBounds s.bufLen.toNat 0 s
  else if s.op = 0 then { s with phase := .lCheck }
  else { s with phase := .xIv }

/-- `tmp[i]` of the key schedule (41_xke_keystream.md R107): the first half of the words are `iv[i] + ~iv[i + 2]`, the
second half their complements. -/
def keyTmp (cfg : Config) (iv : Nat → Word) (i : Nat) : Word :=
  let half := cfg.ivWords / 2
  if i < half then iv i + ~~~(iv (i + half)) else ~~~(iv (i - half) + ~~~(iv i))

/-- Word n of the key schedule (41_xke_keystream.md R107): the one the loops give the index n = i + 8j or
n = i + 8j + 4. -/
def keyWord (cfg : Config) (iv : Nat → Word) (n : Nat) : Word :=
  let i := n % cfg.ivWords
  let j := n / (2 * cfg.ivWords)
  if n % (2 * cfg.ivWords) < cfg.ivWords then keyTmp cfg iv i + iv j - 1 else keyTmp cfg iv i - iv j - 1

/-- The key-schedule function `keysched`: `key[0 .. KEY_WORDS - 1]` (41_xke_keystream.md R107). -/
def keysched (cfg : Config) (iv : Nat → Word) : List Word := (List.range cfg.keyWords).map (keyWord cfg iv)

/-- `KEY <- key` (41_xke_keystream.md R108): a register the schedule has no word for keeps its value
(DESIGN CHOICE, log entry 7; with KEY_WORDS 32 there is none). -/
def loadKey (key : List Word) (old : Vector Word 32) : Vector Word 32 := Vector.ofFn fun i => key.getD i.val old[i]

/-- The IV read at an offset (41_xke_keystream.md R108). -/
def readIv (s : State) (a j : Nat) : Word := rdw s s.endian (a + 4 * j)

/-- IV step, PHASE = X_IV (41_xke_keystream.md R108). -/
def xIvStep (cfg : Config) (s : State) : State :=
  let a := s.xbase.toNat + s.xivoff.toNat
  let n := 4 * cfg.ivWords
  if s.bufLen.toNat < a + n then raiseFault .outOfBounds a n s
  else
    let s' := redraw { s with key := loadKey (keysched cfg (readIv s a)) s.key }
    if s.op = 2 then complete s' else { s' with phase := .xChk }

/-- Region check step, PHASE = X_CHK (41_xke_keystream.md R110). -/
def xChkStep (cfg : Config) (s : State) : State :=
  let a := s.xbase.toNat + s.xstart.toNat
  if s.xstart.toNat % cfg.blockSize ≠ 0 ∨ s.xlen.toNat % cfg.blockSize ≠ 0 then
    raiseFault .alignmentError s.xstart.toNat s.xlen.toNat s
  else if s.xlen = 0 then complete s
  else if s.bufLen.toNat < a + s.xlen.toNat then raiseFault .outOfBounds a s.xlen.toNat s
  else { s with ic := BitVec.ofNat 32 a, phase := .xBlk }

/-- The mask word i of the block at IC: `(KEY[i] - rel) mod 2^32` with `rel = IC - XBASE` (41_xke_keystream.md R111). -/
def xorMask (s : State) (i : Fin 32) : Word := s.key[i] - (s.ic - s.xbase)

/-- The four bytes `xor32` stores for word i of the block at IC (00_scope.md R11). -/
def xorWord (s : State) (i : Fin 32) : List Byte :=
  wordBytes s.endian (rdw s s.endian (s.ic.toNat + 4 * i.val) ^^^ xorMask s i)

/-- The block's bytes after the XOR. The words of a block do not overlap, so each is computed from the bytes the block
holds before it (41_xke_keystream.md R111; log entry 22). -/
def xorBlock (cfg : Config) (s : State) : List Byte := ((List.finRange 32).take cfg.keyWords).flatMap (xorWord s)

/-- XOR block step, PHASE = X_BLK (41_xke_keystream.md R111). -/
def xBlkStep (cfg : Config) (s : State) : State :=
  let s' := { s with
    buf := storeBytes s.buf s.ic.toNat (xorBlock cfg s), ic := BitVec.ofNat 32 (s.ic.toNat + cfg.blockSize) }
  if s.ic.toNat + cfg.blockSize = s.xbase.toNat + s.xstart.toNat + s.xlen.toNat then complete s' else s'

end Sys2Proof.Machine
end

