-- ==== Sys2Proof/Machine/Engine.lean ====
section
/-! DEFINITION. The engine: fetching an element, running it, and one engine step per phase (10_state.md R36), each
under a configuration (00_scope.md R16). -/

namespace Sys2Proof.Machine

/-- The meaning of an instruction under a configuration: `exec` is it for the hardware's own (00_scope.md R16). -/
def run (cfg : Config) (i : Instr) (s : State) : Host.Outcome State Fault Refusal :=
  match i with
  | .endMarker => execEndMarker s
  | .blk h => runBlk cfg h s
  | .raw1 => runRaw1 cfg s
  | .raw2 => runRaw2 cfg s
  | .raw2v => runRaw2v cfg s
  | .illegalSentinel => runIllegalSentinel cfg s
  | .illegalOversized h => execIllegalOversized h s
  | .mask m => runMask cfg m s
  | .lit b => runLit cfg b s
  | .cpy ohi lf olo => runCpy cfg ohi lf olo s
  | .cpyx ohi olo => runCpyx cfg ohi olo s
  | .ext e => runExt cfg e s
  | .illegalZeroOffset lf => runIllegalZeroOffset cfg lf s
  | .trl => execTrl s
  | .illegalTrailer t => execIllegalTrailer t s
  | .cmdDecompress endian ie => execCmdDecompress endian ie s
  | .cmdXorRegion endian ie => execCmdXorRegion endian ie s
  | .cmdKeygen endian ie => execCmdKeygen endian ie s
  | .illegalCommand endian ie => execIllegalCommand endian ie s
  | .cfgCtrl op endian ie => execCfgCtrl op endian ie s
  | .ack clrDone clrErr => execAck clrDone clrErr s

/-- Fetch, decode and run the element at an offset. -/
def elementStep (cfg : Config) (s : State) (c : Ctx) (a : Nat) : Host.Outcome State Fault Refusal :=
  if fetchAllowed s c a then
    match fetchDecode cfg s c a with
    | .ok i _ => run cfg i s
    | .rejected r => .refused (.undecodable r)
  else fetchFault s a

/-- The element at the engine's own place in a token step. -/
def tokenElement (cfg : Config) (s : State) : Host.Outcome State Fault Refusal :=
  elementStep cfg s (tokenCtx s.cursor) s.cursor.p

/-- The elements of one token in order, until one of them ends the step (44_lzd_tokens.md R129); the first argument
bounds their number. -/
def tokenLoop (cfg : Config) : Nat → State → Host.Outcome State Fault Refusal
  | 0, _ => .refused .tokenStepUnended
  | n + 1, s =>
    match tokenElement cfg s with
    | .next s' => if s'.work.isSome then tokenLoop cfg n s' else .next s'
    | .fault r => .fault r
    | .refused r => .refused r

/-- Enough elements for any token: each but the last takes at least one byte below BEND. -/
def tokenFuel (s : State) : Nat := s.bend.toNat - s.cursor.p + 1

/-- One engine step: the rule of the phase (10_state.md R36). In IDLE the engine takes no step. -/
def engineStep (cfg : Config) (s : State) : Host.Outcome State Fault Refusal :=
  match s.phase with
  | .idle => .next s
  | .cmd => .next (cmdStep cfg s)
  | .lCheck => .next (lCheckStep s)
  | .lSig => .next (lSigStep cfg s)
  | .lHdr => elementStep cfg s (.header s.model) s.ic.toNat
  | .lTok => tokenLoop cfg (tokenFuel s) s
  | .lTrl => elementStep cfg s .trailer s.bend.toNat
  | .lRaw => .next (lRawStep cfg s)
  | .xIv => .next (xIvStep cfg s)
  | .xChk => .next (xChkStep cfg s)
  | .xBlk => .next (xBlkStep cfg s)

end Sys2Proof.Machine
end

