-- ==== Sys2Proof/Machine/HostPort.lean ====
section
/-! DEFINITION. The host's side of PFT-LZD: reads and writes of REG, accesses to BUF and OUT, waiting, reset
(10_state.md R19 to R29; 30_encoding.md R95; 70_reset_and_hazards.md R160, R163 to R165, R173; log entry 3). -/

namespace Sys2Proof.Machine

/-- Why a REG access is no operation of this hardware (10_state.md R20), none if it is one. -/
def regRefusal (off : Nat) : Option Refusal :=
  if off % 4 ≠ 0 then some .regMisaligned
  else if 0x100 ≤ off then some .regOutsideWindow
  else none

/-- A configuration register is written only while idle (10_state.md R20). -/
def whileIdle (k : State → State) (s : State) : State := if s.busy then s else k s

/-- The registers a host write other than to CTRL and STATUS changes; RO and reserved offsets ignore it
(10_state.md R19, R20, R23 to R25). -/
def writeReg (off : Nat) (v : Word) (s : State) : State :=
  if off = 0x08 then whileIdle (fun s => { s with bufLen := v }) s
  else if off = 0x0C then whileIdle (fun s => { s with model := v.extractLsb' 0 8 }) s
  else if off = 0x10 then whileIdle (fun s => { s with xbase := v }) s
  else if off = 0x14 then whileIdle (fun s => { s with xivoff := v }) s
  else if off = 0x18 then whileIdle (fun s => { s with xstart := v }) s
  else if off = 0x1C then whileIdle (fun s => { s with xlen := v }) s
  else s

/-- What a host read of REG returns (10_state.md R19, R21 to R29); reserved offsets read 0. -/
def readReg (cfg : Config) (off : Nat) (s : State) : Word :=
  if off = 0x00 then s.ctrlWord
  else if off = 0x04 then s.statusWord
  else if off = 0x08 then s.bufLen
  else if off = 0x0C then s.model.setWidth 32
  else if off = 0x10 then s.xbase
  else if off = 0x14 then s.xivoff
  else if off = 0x18 then s.xstart
  else if off = 0x1C then s.xlen
  else if off = 0x20 then s.oc
  else if off = 0x24 then s.ic
  else if off = 0x28 then s.errIn
  else if off = 0x2C then s.errOut
  else if off = 0x30 then s.errVal
  else if off = 0x34 then BitVec.ofNat 32 cfg.outCap
  else if off = 0x38 then cfg.bufCap
  else if 0x80 ≤ off then s.key.toList.getD ((off - 0x80) / 4) 0
  else 0

/-- Reset of the block (70_reset_and_hazards.md R160, R161): every register at its reset value, no byte of BUF or OUT
with a value, a running command abandoned. The host, its pending actions and what it has read back, is not reset (log
entry 19). -/
def resetBlock (s : State) : State :=
  { State.reset with
    draws := s.draws + 1, pending := s.pending, rdData := s.rdData, memData := s.memData }

/-- A host access to BUF or OUT: refused while BUSY (70_reset_and_hazards.md R173), a fault past the memory's end
(20_memory.md R60, R61). -/
def memAccess (fits : Bool) (absent : Fault) (k : State → State) (s : State) : Host.Outcome State Fault Refusal :=
  if s.busy then .refused .memoryWhileBusy
  else if fits then .next (k s)
  else .fault absent

/-- The instruction a 32-bit REG write stands for: CTRL and STATUS words are decoded, no other write is one
(30_encoding.md R89). -/
def regWriteDecode (cfg : Config) (off : Nat) (v : Word) : Option Decoded :=
  if off = 0x00 then some (decode cfg .ctrlWrite (.word v))
  else if off = 0x04 then some (decode cfg .statusWrite (.word v))
  else none

/-- A host write to REG. -/
def hostWrite (cfg : Config) (off : Nat) (v : Word) (s : State) : Host.Outcome State Fault Refusal :=
  match regRefusal off with
  | some r => .refused r
  | none =>
    match regWriteDecode cfg off v with
    | none => .next (writeReg off v s)
    | some (.ok i _) => run cfg i s
    | some (.rejected r) => .refused (.undecodable r)

/-- A host read of REG. -/
def hostRead (cfg : Config) (off : Nat) (s : State) : Host.Outcome State Fault Refusal :=
  match regRefusal off with
  | some r => .refused r
  | none => .next { s with rdData := readReg cfg off s }

/-- One poll of `wait` (30_encoding.md R95): STATUS is read, and while BUSY is 1 the wait stands and the engine takes a
step. -/
def hostWait (cfg : Config) (s : State) : Host.Outcome State Fault Refusal :=
  let s' := { s with rdData := s.statusWord }
  if s.busy then engineStep cfg { s' with pending := .wait :: s.pending } else .next s'

/-- One turn of waiting for the interrupt (70_reset_and_hazards.md R163 step 7): over once IRQ is 1; until then the wait
stands and the engine takes a step, if it is running (log entry 26). -/
def hostWaitIrq (cfg : Config) (s : State) : Host.Outcome State Fault Refusal :=
  if s.irq then .next s else engineStep cfg { s with pending := .waitIrq :: s.pending }

/-- A bit of STATUS (10_state.md R22). -/
def statusFlag : StatusFlag → State → Bool
  | .done, s => s.done
  | .err, s => s.err

/-- The host branches on a read of STATUS: the next n actions are left out unless the flag is 1
(70_reset_and_hazards.md R163 step 8; log entry 26). -/
def hostOnlyIf (flag : StatusFlag) (n : Nat) (s : State) : State :=
  { s with rdData := s.statusWord, pending := if statusFlag flag s then s.pending else s.pending.drop n }

/-- One action of the host, already taken from the list. -/
def hostStep (cfg : Config) (op : HostOp) (s : State) : Host.Outcome State Fault Refusal :=
  match op with
  | .wr off v => hostWrite cfg off v s
  | .rd off => hostRead cfg off s
  | .load off bs =>
    memAccess (decide (off + bs.length ≤ cfg.bufCap.toNat)) .bufOffsetAbsent
      (fun s => { s with buf := storeBytes s.buf off bs }) s
  | .storeOut off bs =>
    memAccess (decide (off + bs.length ≤ cfg.outCap)) .outOffsetAbsent
      (fun s => { s with out := storeBytes s.out off bs }) s
  | .readBuf off n =>
    memAccess (decide (off + n ≤ cfg.bufCap.toNat)) .bufOffsetAbsent
      (fun s => redraw { s with memData := bufBytes s off n }) s
  | .readOut off n =>
    memAccess (decide (off + n ≤ cfg.outCap)) .outOffsetAbsent
      (fun s => redraw { s with memData := outBytes s off n }) s
  | .readImage =>
    memAccess (decide (s.oc.toNat ≤ cfg.outCap)) .outOffsetAbsent
      (fun s => redraw { s with memData := outBytes s 0 s.oc.toNat }) s
  | .wait => hostWait cfg s
  | .waitIrq => hostWaitIrq cfg s
  | .tick => engineStep cfg s
  | .onlyIf flag n => .next (hostOnlyIf flag n s)
  | .stopOnErr => .next (if s.err then { s with pending := [] } else s)
  | .reset => .next (resetBlock s)

/-- The step relation, with the configuration as its parameter (00_scope.md R6, R16): the host's next action if it has
one, else an engine step (log entry 3). -/
def advance (cfg : Config) (s : State) : Host.Outcome State Fault Refusal :=
  match s.pending with
  | [] => engineStep cfg s
  | op :: rest => hostStep cfg op { s with pending := rest }

/-! ### Placing one instruction where the next step fetches (log entry 4) -/

/-- BUF_LEN covers n bytes from an offset. -/
def coverLength (a n : Nat) (s : State) : Word :=
  BitVec.ofNat 32 (max s.bufLen.toNat (min (a + n) (2 ^ 32 - 1)))

/-- Store stream bytes where the next engine step decodes them in context c, and let the engine move next. -/
def placeStream (c : Ctx) (bs : List Byte) (s : State) : State :=
  let a := s.ic.toNat
  let s' := { s with buf := storeBytes s.buf a bs, work := none, pending := [] }
  match c with
  | .header model =>
    -- MODEL is set only for the two header values that depend on it; BUF_LEN covers the longest block
    { s' with
      phase := .lHdr, model := if model = 0 then s.model else model,
      bufLen := coverLength a (2 + Config.hw.subM1 + Config.hw.margin) s }
  | .token copy =>
    { s' with
      phase := .lTok, sel := firstSelector Config.hw, mask := if copy then firstSelector Config.hw else 0,
      bend := BitVec.ofNat 32 (a + bs.length), bufLen := coverLength a bs.length s }
  | .mask | .extension | .trailer | .ctrlWrite | .statusWrite => s'

/-- Make a bare word of the opcode table the next instruction, in the context `tableCtx` gives it. -/
def placeTableWord (nbits w : Nat) (s : State) : State :=
  match tableCtx nbits w, tableCode nbits w with
  | some .ctrlWrite, .word v => { s with pending := [.wr 0x00 v] }
  | some .statusWrite, .word v => { s with pending := [.wr 0x04 v] }
  | some c, .bytes bs => placeStream c bs s
  | _, _ => s

end Sys2Proof.Machine
end

