-- ==== Sys2Proof/Machine/Step.lean ====
section
/-! DEFINITION. One step of PFT-LZD. -/

namespace Sys2Proof.Machine

/-- One step under a configuration (00_scope.md R6, R16): the host's next action if one is pending, else one engine step
(HostPort.lean). -/
def stepWith (cfg : Config) (s : State) : Host.Outcome State Fault Refusal := Sys2Proof.Machine.advance cfg s

/-- One step of the machine behind the host's interface: `stepWith` at the configuration this hardware takes. -/
def step (s : State) : Host.Outcome State Fault Refusal := Sys2Proof.Machine.stepWith Config.hw s

/-- The state with one instruction of the opcode table placed where `step` fetches next (log entry 4). -/
def State.withFetchWord (s : State) (nbits w : Nat) : State := Sys2Proof.Machine.placeTableWord nbits w s

end Sys2Proof.Machine
end

