-- ==== Sys2Proof/Safety.lean ====
section
/-! DEFINITION. The terms of the claims: the invariant of the machine, and the engine running by itself. -/

namespace Sys2Proof.Machine

/-- SEL is 0 or one-hot (10_state.md R30). -/
def selLegal (v : Half) : Bool := v == 0 || (List.range 16).any fun k => v == BitVec.ofNat 16 (2 ^ k)

/-! Claims speak of the machine under `Config.withBufCap cap`: the values of 00_scope.md R6 with any P_BUF_CAP (R7). -/

/-- The facts about the registers of a running LZD command (10_state.md R30; 43_lzd_blocks.md R121, R123). -/
structure BlockInv (s : State) : Prop where
  /-- The block and its margin lie inside BUF. -/
  fits : s.bstart.toNat + s.blen.toNat + 6 ≤ s.bufLen.toNat
  /-- A token block holds its trailer. -/
  trailerRoom : 2 ≤ s.blen.toNat
  /-- BEND is the end of the token region. -/
  bendEq : s.bend.toNat = s.bstart.toNat + s.blen.toNat - 2

/-- The facts about the registers that hold in one phase, with a given P_BUF_CAP (10_state.md R36, R37). -/
def phaseInv (cap : Word) (s : State) : Prop :=
  match s.phase with
  | .idle => True
  | .cmd => s.ic = 0 ∧ s.oc = 0
  | .lCheck | .lSig => s.ic = 0 ∧ s.oc = 0 ∧ s.op = 0 ∧ s.bufLen.toNat ≤ cap.toNat
  | .lHdr =>
    s.op = 0 ∧ s.bufLen.toNat ≤ cap.toNat ∧
      (s.ic.toNat = 0x200 ∨ s.ic.toNat + 6 ≤ s.bufLen.toNat)
  | .lTok =>
    s.op = 0 ∧ s.bufLen.toNat ≤ cap.toNat ∧ BlockInv s ∧ s.bstart.toNat ≤ s.ic.toNat ∧
      s.ic.toNat < s.bend.toNat ∧ selLegal s.sel = true
  | .lTrl => s.op = 0 ∧ s.bufLen.toNat ≤ cap.toNat ∧ BlockInv s ∧ s.ic = s.bend
  | .lRaw =>
    s.op = 0 ∧ s.bufLen.toNat ≤ cap.toNat ∧
      s.bstart.toNat + s.blen.toNat + 6 ≤ s.bufLen.toNat ∧ s.rawn.toNat ≤ s.blen.toNat ∧
      0 < s.blen.toNat ∧ s.ic = s.bstart
  | .xIv => s.ic = 0 ∧ s.oc = 0 ∧ (s.op = 1 ∨ s.op = 2) ∧ s.bufLen.toNat ≤ cap.toNat
  | .xChk => s.ic = 0 ∧ s.oc = 0 ∧ s.op = 1 ∧ s.bufLen.toNat ≤ cap.toNat
  | .xBlk =>
    s.oc = 0 ∧ s.op = 1 ∧ s.bufLen.toNat ≤ cap.toNat ∧
      s.xbase.toNat + s.xstart.toNat + s.xlen.toNat ≤ s.bufLen.toNat ∧
      s.xbase.toNat + s.xstart.toNat ≤ s.ic.toNat ∧
      s.ic.toNat < s.xbase.toNat + s.xstart.toNat + s.xlen.toNat ∧
      (s.ic.toNat - (s.xbase.toNat + s.xstart.toNat)) % 0x80 = 0 ∧
      s.xlen.toNat % 0x80 = 0

/-- The invariant of the machine with a given P_BUF_CAP: memories in canonical form and inside their spaces, the flags as
10_state.md R22 and 60_exceptions.md R140 say, the output cursor inside OUT, no token step half done, and the facts of
the phase. -/
structure MachineInv (cap : Word) (s : State) : Prop where
  bufWf : memoryWf s.buf = true
  outWf : memoryWf s.out = true
  bufBelow : memoryBelow s.buf cap.toNat = true
  outBelow : memoryBelow s.out 0x2000000 = true
  /-- ERR_CODE is 0 exactly when ERR is 0 (R22). -/
  codeIff : s.errCode = 0 ↔ s.err = false
  /-- Codes 13 to 255 are never produced (R140). -/
  codeRange : s.errCode.toNat ≤ 12
  /-- DONE and ERR are never 1 together (R22). -/
  notBoth : ¬(s.done = true ∧ s.err = true)
  /-- While BUSY, DONE and ERR are 0 (40_host_commands.md R101). -/
  busyClear : s.busy = true → s.done = false ∧ s.err = false
  outputFits : s.oc.toNat ≤ 0x2000000
  noWork : s.work = none
  phaseFacts : phaseInv cap s

/-- The state after fault capture, with its five registers written out (60_exceptions.md R141). -/
def faultState (s : State) (code : Byte) (inp val : Word) : State :=
  { s with
    err := true, errCode := code, errIn := inp, errVal := val, errOut := s.oc, phase := .idle, work := none }

/-- The part of a token step's end that every token shares: IC after the token, the mask and the selector moved on,
L_TRL at the end of the region (44_lzd_tokens.md R129). -/
def afterToken (s : State) (w : Work) (p : Nat) : State :=
  { s with
    ic := BitVec.ofNat 32 p, mask := w.m, sel := w.s >>> 1,
    phase := if p = s.bend.toNat then .lTrl else s.phase, work := none }

/-- Byte k, in memory order, of a 32-bit mask in a byte order (41_xke_keystream.md R112). -/
def maskByte (e : Endian) (m : Word) (k : Nat) : Byte :=
  match e with
  | .little => (m >>> (8 * k)).setWidth 8
  | .big => (m >>> (24 - 8 * k)).setWidth 8

/-- The bound on a command's engine steps (40_host_commands.md R106). -/
def stepBound (s : State) : Nat :=
  if s.op = 0 then 3 + s.bufLen.toNat
  else if s.op = 1 then 3 + s.xlen.toNat / 0x80
  else if s.op = 2 then 2
  else 1

/-- The machine under a configuration; `Sys2Proof.core` is it at the hardware's own (00_scope.md R6, R16). -/
def coreWith (cfg : Config) : Host.Core :=
  { State := State, Fault := Fault, Refusal := Refusal, step := stepWith cfg, reset := State.reset }

/-- k steps of the machine under a configuration; where no host action is pending these are engine steps. -/
def runSteps (cfg : Config) (k : Nat) (s : State) : Host.Outcome State Fault Refusal :=
  Host.Core.run (coreWith cfg) k s

/-- What a claim reads of one byte of BUF: its value, or none where nothing has been stored. -/
abbrev State.bufAt (s : State) (a : Nat) : Option Byte := readCell s.buf a

/-- What a claim reads of one byte of OUT: its value, or none where nothing has been stored. -/
abbrev State.outAt (s : State) (a : Nat) : Option Byte := readCell s.out a

end Sys2Proof.Machine
end

