-- ==== Sys2Proof/Certificates/Slice0/Obligations.lean ====
section
/-! DEFINITION. The statements for the provers. Each docstring names the rules of spec/ it rests on. -/

open Sys2Proof Sys2Proof.Machine

/-! ### Encoding -/

/-- 30_encoding.md R81 to R89: in every context that admits it, a well-formed instruction's encoding decodes to it.
-/
def Obligations.DecodeEncodeRoundTrip : Prop :=
  ∀ (c : Ctx) (i : Instr), i.WellFormed → c.admits Config.hw i = true →
    decode Config.hw c (encode Config.hw i) = .ok i i.length

/-- 30_encoding.md R89, R90: the decoder answers only with well-formed instructions that the context admits, and
takes their length. Model's own: an extended copy token's two bytes are an element of length 2 and each extension
byte one of length 1, where R92 counts them together (log entry 8). -/
def Obligations.DecodedInstrIsAdmitted : Prop :=
  ∀ (c : Ctx) (x : Code) (i : Instr) (n : Nat), decode Config.hw c x = .ok i n →
    i.WellFormed ∧ c.admits Config.hw i = true ∧ n = i.length

/-- 30_encoding.md R84, R87, R89: words written out from the encoding tables decode to the elements they stand for.
-/
def Obligations.SpecWordsDecode : Prop :=
  decode Config.hw (.header 0) (.bytes [0x00, 0x14]) = .ok (.blk 20) 2 ∧
  decode Config.hw (.token true) (.bytes [0xE0, 0xFF]) = .ok (.cpy 7 0 0xFF) 2 ∧
  decode Config.hw (.token true) (.bytes [0x07, 0x01]) = .ok (.cpyx 0 0x01) 2 ∧
  decode Config.hw .ctrlWrite (.word 0x1B) = .ok (.cmdXorRegion .big true) 4

/-- 30_encoding.md R89, 43_lzd_blocks.md R122, R124: the element each header value selects, with P_RAW_SELECT
by_value. -/
def Obligations.HeaderValueSelectsElement : Prop :=
  ∀ (model : Byte) (v : Half),
    (v = 0 → decodeHeader Config.hw model v = .endMarker) ∧
    (v = 0xE000 → model = 1 → decodeHeader Config.hw model v = .raw1) ∧
    (v = 0xE000 → model = 2 → decodeHeader Config.hw model v = .raw2) ∧
    (v = 0xE000 → model ≠ 1 → model ≠ 2 → decodeHeader Config.hw model v = .illegalSentinel) ∧
    (v = 0x6000 → model = 2 → decodeHeader Config.hw model v = .raw2v) ∧
    (0x8000 < v → v ≠ 0xE000 → decodeHeader Config.hw model v = .illegalOversized v) ∧
    (v ≠ 0 → v ≤ 0x8000 → ¬(v = 0x6000 ∧ model = 2) → decodeHeader Config.hw model v = .blk v)

/-- 30_encoding.md R82, 44_lzd_tokens.md R130: token k of a group is a copy exactly when mask bit 15 - k is 1, and
after the 16th token a mask is due. -/
def Obligations.SelectorPicksMaskBit : Prop :=
  ∀ (p : Nat) (m : Half),
    (∀ k, k < 16 →
      tokenCtx { p := p, m := m, s := (0x8000 : Half) >>> k, copy := none } = .token (m.getLsbD (15 - k))) ∧
    tokenCtx { p := p, m := m, s := (0x8000 : Half) >>> 16, copy := none } = .mask

/-! ### The step -/

/-- 10_state.md R36, 43_lzd_blocks.md R121, 00_scope.md R13: with no host action pending, a step at a header or a
trailer is the decoded element's meaning, and a token step is its first element's meaning followed, where that
leaves the token unfinished, by the rest of the token. A header is read where it lies below BUF_LEN, a token's bytes
where they lie below BEND, a trailer always; where they may not be read the step is OutOfBounds(IC, 2) (3) at a
header and IncompleteBlock(a, BLEN) (7) at a token. Model's own: the element inside a token step (log entry 8). -/
def Obligations.StepRunsDecodedElement : Prop :=
  ∀ (s : State) (c : Ctx) (a : Nat), s.pending = [] → fetchPoint s = some (c, a) →
    (s.phase = .lHdr → (fetchAllowed s c a = true ↔ s.ic.toNat + 2 ≤ s.bufLen.toNat)) ∧
    (s.phase = .lTok → (fetchAllowed s c a = true ↔ a + ctxBytes c ≤ s.bend.toNat)) ∧
    (s.phase = .lTrl → fetchAllowed s c a = true) ∧
    (fetchAllowed s c a = true → ∀ i n, fetchDecode Config.hw s c a = .ok i n →
      (s.phase ≠ .lTok → step s = exec i s) ∧
      (s.phase = .lTok → ∀ t, exec i s = .next t →
        step s = if t.work.isSome then tokenLoop Config.hw (tokenFuel s - 1) t else .next t)) ∧
    (fetchAllowed s c a = false →
      (s.phase = .lHdr → step s = .next (faultState s 3 s.ic 2)) ∧
      (s.phase = .lTok → a < 2 ^ 32 →
        step s = .next (faultState s 7 (BitVec.ofNat 32 a) (s.blen.setWidth 32))))

/-- 30_encoding.md R89: a pending host write to CTRL or STATUS runs the decoded word, taken from the host's list.
Model's own: the host's list of actions (log entry 3). -/
def Obligations.StepRunsDecodedHostWord : Prop :=
  ∀ (s : State) (w : Word) (rest : List HostOp),
    (s.pending = .wr 0x00 w :: rest → step s = exec (decodeCtrl w) { s with pending := rest }) ∧
    (s.pending = .wr 0x04 w :: rest → step s = exec (decodeStatus w) { s with pending := rest })

/-! ### Block headers -/

/-- 43_lzd_blocks.md R125, 60_exceptions.md R143: END moves IC past the header and completes; nothing else changes.
-/
def Obligations.EndMarkerCompletes : Prop :=
  ∀ s : State, s.ic.toNat + 2 ≤ s.bufLen.toNat →
    exec .endMarker s =
      .next { s with ic := BitVec.ofNat 32 (s.ic.toNat + 2), done := true, phase := .idle, work := none }

/-- 43_lzd_blocks.md R121, R123: a token block that fits is entered with a fresh group, at its trailer if its token
region is empty; nothing else changes. -/
def Obligations.TokenBlockHeaderOpens : Prop :=
  ∀ (h : Half) (s : State), 2 ≤ h.toNat → s.ic.toNat + 2 + h.toNat + 6 ≤ s.bufLen.toNat →
    exec (.blk h) s =
      .next { s with
        bstart := BitVec.ofNat 32 (s.ic.toNat + 2), blen := h, ic := BitVec.ofNat 32 (s.ic.toNat + 2),
        bend := BitVec.ofNat 32 (s.ic.toNat + h.toNat), mask := 0, sel := 0,
        phase := if h.toNat = 2 then .lTrl else .lTok }

/-- 43_lzd_blocks.md R121, R124: a raw block that fits is entered with RAWN bytes to copy: all but the last two for
RAW1, all for RAW2 and RAW2V; nothing else changes. -/
def Obligations.RawBlockHeadersOpen : Prop :=
  ∀ s : State,
    (s.ic.toNat + 2 + 0xC002 + 6 ≤ s.bufLen.toNat →
      exec .raw1 s =
        .next { s with
          bstart := BitVec.ofNat 32 (s.ic.toNat + 2), blen := 0xC002, ic := BitVec.ofNat 32 (s.ic.toNat + 2),
          rawn := 0xC000, phase := .lRaw }) ∧
    (s.ic.toNat + 2 + 0x6000 + 6 ≤ s.bufLen.toNat →
      ∀ i : Instr, i = .raw2 ∨ i = .raw2v →
        exec i s =
          .next { s with
            bstart := BitVec.ofNat 32 (s.ic.toNat + 2), blen := 0x6000, ic := BitVec.ofNat 32 (s.ic.toNat + 2),
            rawn := 0x6000, phase := .lRaw })

/-- 43_lzd_blocks.md R122: a header that is no block length is OversizedBlock (code 6) at the header, with its value.
-/
def Obligations.IllegalHeadersFaultOversized : Prop :=
  ∀ (h : Half) (s : State), s.ic.toNat + 2 ≤ s.bufLen.toNat →
    exec .illegalSentinel s = .next (faultState s 6 s.ic 0xE000) ∧
    exec (.illegalOversized h) s = .next (faultState s 6 s.ic (h.setWidth 32))

/-- 43_lzd_blocks.md R121, R123, 60_exceptions.md R148: the order of the faults of a block header: OutOfBounds (of
the meaning and of the step, which does not read such a header), then IncompleteBlock, then MissingBlockTrailer for
a token block of length 1. Model's own: no host action pending (log entry 3). -/
def Obligations.HeaderFaultOrder : Prop :=
  ∀ s : State,
    (s.bufLen.toNat < s.ic.toNat + 2 →
      (∀ i : Instr, Ctx.admits Config.hw (.header s.model) i = true → exec i s = .next (faultState s 3 s.ic 2)) ∧
      (s.phase = .lHdr → s.pending = [] → step s = .next (faultState s 3 s.ic 2))) ∧
    (s.ic.toNat + 2 ≤ s.bufLen.toNat →
      (∀ h : Half, s.bufLen.toNat < s.ic.toNat + 2 + h.toNat + 6 →
        exec (.blk h) s = .next (faultState s 7 s.ic (h.setWidth 32))) ∧
      (s.bufLen.toNat < s.ic.toNat + 2 + 0xC002 + 6 → exec .raw1 s = .next (faultState s 7 s.ic 0xC002)) ∧
      (s.bufLen.toNat < s.ic.toNat + 2 + 0x6000 + 6 →
        exec .raw2 s = .next (faultState s 7 s.ic 0x6000) ∧ exec .raw2v s = .next (faultState s 7 s.ic 0x6000)) ∧
      (s.ic.toNat + 2 + 1 + 6 ≤ s.bufLen.toNat → exec (.blk 1) s = .next (faultState s 9 s.ic 1)))

/-! ### The token stream -/

/-- 44_lzd_tokens.md R129, R130: a mask word inside the token region is kept for the token that follows in the same
step, with the selector at the top; no register changes. Model's own: where the step's temporaries stand (log entry
8). -/
def Obligations.MaskOpensGroup : Prop :=
  ∀ (m : Half) (s : State), s.cursor.p + 2 ≤ s.bend.toNat →
    exec (.mask m) s =
      .next { s with work := some { p := s.cursor.p + 2, m := m, s := 0x8000, copy := none } }

/-- 44_lzd_tokens.md R131: a literal's effect and its two faults, IncompleteBlock (7) and OutputCapacityExceeded
(10); the byte is stored at OC and every other byte of OUT is as before. Model's own: `cursor`, the step's
temporaries (log entry 8). -/
def Obligations.LiteralToken : Prop :=
  ∀ (b : Byte) (s : State), s.cursor.p < 2 ^ 32 →
    (s.bend.toNat < s.cursor.p + 1 →
      exec (.lit b) s = .next (faultState s 7 (BitVec.ofNat 32 s.cursor.p) (s.blen.setWidth 32))) ∧
    (s.cursor.p + 1 ≤ s.bend.toNat → 0x2000000 ≤ s.oc.toNat →
      exec (.lit b) s = .next (faultState s 10 (BitVec.ofNat 32 s.cursor.p) 1)) ∧
    (s.cursor.p + 1 ≤ s.bend.toNat → s.oc.toNat < 0x2000000 →
      ∃ t, exec (.lit b) s = .next t ∧
        t = { afterToken s s.cursor (s.cursor.p + 1) with out := t.out, oc := s.oc + 1 } ∧
        ∀ a, t.outAt a = if a = s.oc.toNat then some b else s.outAt a)

/-- 44_lzd_tokens.md R132, R135: a short copy appends `lf + 3` bytes; byte k is `OUT[OC - off + (k mod off)]` from
before the token; every byte of OUT outside the new ones is as before. Model's own: `cursor` (log entry 8) and
`draws` (log entry 2). -/
def Obligations.ShortCopyToken : Prop :=
  ∀ (ohi : BitVec 3) (lf : BitVec 5) (olo : Byte) (s : State) (off len : Nat),
    off = ohi.toNat * 256 + olo.toNat → len = lf.toNat + 3 → lf ≠ 7 → 0 < off → off ≤ s.oc.toNat →
    s.oc.toNat + len ≤ 0x2000000 → s.cursor.p + 2 ≤ s.bend.toNat →
    ∃ t, exec (.cpy ohi lf olo) s = .next t ∧
      t = { afterToken s s.cursor (s.cursor.p + 2) with
            out := t.out, oc := BitVec.ofNat 32 (s.oc.toNat + len), draws := s.draws + 1 } ∧
      (∀ k, k < len → t.outAt (s.oc.toNat + k) = some (outByte s (s.oc.toNat - off + k % off))) ∧
      ∀ a, a < s.oc.toNat ∨ s.oc.toNat + len ≤ a → t.outAt a = s.outAt a

/-- 44_lzd_tokens.md R133: the two bytes of an extended copy token start the length at 10 and leave every register as
it is; the extension bytes follow in the same step. Model's own: where the step's temporaries stand (log entry 8).
-/
def Obligations.ExtendedCopyAwaitsExtension : Prop :=
  ∀ (ohi : BitVec 3) (olo : Byte) (s : State), s.cursor.p + 2 ≤ s.bend.toNat →
    exec (.cpyx ohi olo) s =
      .next { s with
        work := some { p := s.cursor.p + 2, m := s.cursor.m, s := s.cursor.s,
                       copy := some { t := s.cursor.p, len := 10, off := ohi ++ olo } } }

/-- 44_lzd_tokens.md R133: an extension byte 0xFF inside a copy token adds 255 to the length and asks for another; no
register changes. Model's own: where the step's temporaries stand (log entry 8). -/
def Obligations.ExtensionByteContinues : Prop :=
  ∀ (s : State) (w : Work) (c : PendingCopy), s.work = some w → w.copy = some c → w.p + 1 ≤ s.bend.toNat →
    exec (.ext 0xFF) s =
      .next { s with work := some { p := w.p + 1, m := w.m, s := w.s, copy := some { c with len := c.len + 255 } } }

/-- 44_lzd_tokens.md R133, R135: an extension byte other than 0xFF ends the copy token: the copy of the accumulated
length happens. Model's own: the step's temporaries (log entry 8) and `draws` (log entry 2). -/
def Obligations.ExtensionByteEndsCopy : Prop :=
  ∀ (e : Byte) (s : State) (w : Work) (c : PendingCopy) (len : Nat),
    s.work = some w → w.copy = some c → len = c.len + e.toNat → e ≠ 0xFF → w.p + 1 ≤ s.bend.toNat →
    0 < c.off.toNat → c.off.toNat ≤ s.oc.toNat → s.oc.toNat + len ≤ 0x2000000 →
    ∃ t, exec (.ext e) s = .next t ∧
      t = { afterToken s w (w.p + 1) with
            out := t.out, oc := BitVec.ofNat 32 (s.oc.toNat + len), draws := s.draws + 1 } ∧
      (∀ k, k < len → t.outAt (s.oc.toNat + k) = some (outByte s (s.oc.toNat - c.off.toNat + k % c.off.toNat))) ∧
      ∀ a, a < s.oc.toNat ∨ s.oc.toNat + len ≤ a → t.outAt a = s.outAt a

/-- 44_lzd_tokens.md R129, R133: one engine step runs a whole extended copy token: `s0 s1`, m bytes 0xFF and a byte e
that is not, for a length of 10 + 255 m + e; IC passes them all. Model's own: no host action pending (log entry 3)
and `draws` (log entry 2). -/
def Obligations.ExtendedCopyStep : Prop :=
  ∀ (s : State) (s0 s1 e : Byte) (m off len : Nat),
    s.pending = [] → s.phase = .lTok → s.work = none → s.sel ≠ 0 → s.mask &&& s.sel ≠ 0 →
    s.bufAt s.ic.toNat = some s0 → s.bufAt (s.ic.toNat + 1) = some s1 → s0.extractLsb' 0 5 = (7 : BitVec 5) →
    (∀ k, k < m → s.bufAt (s.ic.toNat + 2 + k) = some 0xFF) → s.bufAt (s.ic.toNat + 2 + m) = some e → e ≠ 0xFF →
    s.ic.toNat + 3 + m ≤ s.bend.toNat →
    off = (s0.extractLsb' 5 3).toNat * 256 + s1.toNat → len = 10 + 255 * m + e.toNat →
    0 < off → off ≤ s.oc.toNat → s.oc.toNat + len ≤ 0x2000000 →
    ∃ t, step s = .next t ∧
      t = { afterToken s s.cursor (s.ic.toNat + 3 + m) with
            out := t.out, oc := BitVec.ofNat 32 (s.oc.toNat + len), draws := s.draws + 1 } ∧
      (∀ k, k < len → t.outAt (s.oc.toNat + k) = some (outByte s (s.oc.toNat - off + k % off))) ∧
      ∀ a, a < s.oc.toNat ∨ s.oc.toNat + len ≤ a → t.outAt a = s.outAt a

/-- 44_lzd_tokens.md R132, R133: a copy token of offset 0 is ZeroOffsetCopy (8) with its length; with the escape
length its extension bytes are read first. Model's own: where the step's temporaries stand (log entry 8). -/
def Obligations.ZeroOffsetCopyFaults : Prop :=
  ∀ (lf : BitVec 5) (s : State), s.cursor.p + 2 ≤ s.bend.toNat →
    (lf ≠ 7 →
      exec (.illegalZeroOffset lf) s =
        .next (faultState s 8 (BitVec.ofNat 32 s.cursor.p) (BitVec.ofNat 32 (lf.toNat + 3)))) ∧
    (lf = 7 →
      exec (.illegalZeroOffset lf) s =
        .next { s with
          work := some { p := s.cursor.p + 2, m := s.cursor.m, s := s.cursor.s,
                         copy := some { t := s.cursor.p, len := 10, off := 0 } } })

/-- 44_lzd_tokens.md R129, R132, R134: once the length of a copy token is known, after its two bytes or after its
last extension byte, its checks are zero offset (8), offset before the start (11), capacity (10), in that order; the
short form CPY has no zero offset. Model's own: where the step's temporaries stand (log entry 8). -/
def Obligations.CopyFaultOrder : Prop :=
  (∀ (e : Byte) (s : State) (w : Work) (c : PendingCopy) (len : Nat),
    s.work = some w → w.copy = some c → len = c.len + e.toNat → e ≠ 0xFF → w.p + 1 ≤ s.bend.toNat →
    len < 2 ^ 32 → c.t < 2 ^ 32 →
    (c.off = 0 → exec (.ext e) s = .next (faultState s 8 (BitVec.ofNat 32 c.t) (BitVec.ofNat 32 len))) ∧
    (c.off ≠ 0 → s.oc.toNat < c.off.toNat →
      exec (.ext e) s = .next (faultState s 11 (BitVec.ofNat 32 c.t) (c.off.setWidth 32))) ∧
    (c.off ≠ 0 → c.off.toNat ≤ s.oc.toNat → 0x2000000 < s.oc.toNat + len →
      exec (.ext e) s = .next (faultState s 10 (BitVec.ofNat 32 c.t) (BitVec.ofNat 32 len)))) ∧
  ∀ (ohi : BitVec 3) (lf : BitVec 5) (olo : Byte) (s : State) (off len : Nat),
    off = ohi.toNat * 256 + olo.toNat → len = lf.toNat + 3 → lf ≠ 7 → 0 < off → s.cursor.p + 2 ≤ s.bend.toNat →
    (s.oc.toNat < off →
      exec (.cpy ohi lf olo) s = .next (faultState s 11 (BitVec.ofNat 32 s.cursor.p) (BitVec.ofNat 32 off))) ∧
    (off ≤ s.oc.toNat → 0x2000000 < s.oc.toNat + len →
      exec (.cpy ohi lf olo) s = .next (faultState s 10 (BitVec.ofNat 32 s.cursor.p) (BitVec.ofNat 32 len)))

/-- 00_scope.md R13, 44_lzd_tokens.md R129: a token read that would pass BEND is IncompleteBlock (7) at that read,
with BLEN: of each element's meaning, and of the step for the mask word, a literal, the two bytes of a copy, the
token after a mask word, and a chain of extension bytes 0xFF that reaches BEND. Model's own: `cursor`, the step's
temporaries (log entry 8), and no host action pending (log entry 3). -/
def Obligations.TokenReadPastRegionFaults : Prop :=
  (∀ (s : State), s.cursor.p < 2 ^ 32 →
    (s.bend.toNat < s.cursor.p + 2 →
      ∀ i : Instr, Ctx.admits Config.hw .mask i = true ∨ Ctx.admits Config.hw (.token true) i = true →
        exec i s = .next (faultState s 7 (BitVec.ofNat 32 s.cursor.p) (s.blen.setWidth 32))) ∧
    (s.bend.toNat < s.cursor.p + 1 → s.cursor.copy ≠ none →
      ∀ e : Byte, exec (.ext e) s = .next (faultState s 7 (BitVec.ofNat 32 s.cursor.p) (s.blen.setWidth 32)))) ∧
  ∀ (s : State) (m : Half), s.pending = [] → s.phase = .lTok → s.work = none →
    m = be16 (bufByte s s.ic.toNat) (bufByte s (s.ic.toNat + 1)) →
    (s.sel = 0 → s.bend.toNat < s.ic.toNat + 2 → step s = .next (faultState s 7 s.ic (s.blen.setWidth 32))) ∧
    (s.sel = 0 → s.ic.toNat + 2 ≤ s.bend.toNat → s.bend.toNat < s.ic.toNat + 2 + (if m.getLsbD 15 then 2 else 1) →
      step s = .next (faultState s 7 (BitVec.ofNat 32 (s.ic.toNat + 2)) (s.blen.setWidth 32))) ∧
    (s.sel ≠ 0 → s.mask &&& s.sel = 0 → s.bend.toNat < s.ic.toNat + 1 →
      step s = .next (faultState s 7 s.ic (s.blen.setWidth 32))) ∧
    (s.sel ≠ 0 → s.mask &&& s.sel ≠ 0 → s.bend.toNat < s.ic.toNat + 2 →
      step s = .next (faultState s 7 s.ic (s.blen.setWidth 32))) ∧
    (s.sel ≠ 0 → s.mask &&& s.sel ≠ 0 → s.ic.toNat + 2 ≤ s.bend.toNat →
      (bufByte s s.ic.toNat).extractLsb' 0 5 = (7 : BitVec 5) →
      (∀ a, s.ic.toNat + 2 ≤ a → a < s.bend.toNat → s.bufAt a = some 0xFF) →
      step s = .next (faultState s 7 s.bend (s.blen.setWidth 32)))

/-- 44_lzd_tokens.md R135: the overlap law of an in-order copy. -/
def Obligations.OverlapLaw : Prop :=
  ∀ (s : State) (off len k : Nat), 0 < off → off ≤ s.oc.toNat → s.oc.toNat + len ≤ 0x2000000 → k < len →
    (copyLoop off s len).outAt (s.oc.toNat + k) = some (outByte s (s.oc.toNat - off + k % off)) ∧
    (off = 1 → (copyLoop off s len).outAt (s.oc.toNat + k) = some (outByte s (s.oc.toNat - 1)))

/-! ### Trailers -/

/-- 43_lzd_blocks.md R127: a zero trailer ends the block, changing only IC and PHASE; any other trailer is
MissingBlockTrailer (9) at BEND, with its value. -/
def Obligations.TrailerEndsBlockOrFaults : Prop :=
  ∀ (t : Half) (s : State),
    exec .trl s = .next { s with ic := BitVec.ofNat 32 (s.bstart.toNat + s.blen.toNat), phase := .lHdr } ∧
    exec (.illegalTrailer t) s = .next (faultState s 9 s.bend (t.setWidth 32))

/-! ### Host command words -/

/-- 40_host_commands.md R100: a START while idle stores OP, ENDIAN and IE, clears the flags, the error registers and
the cursors, and enters CMD; OUT, KEY and every other register are as before. Model's own: `draws` (log entry 2). -/
def Obligations.StartBeginsCommand : Prop :=
  ∀ (e : Endian) (ie : Bool) (s : State) (i : Instr) (op : BitVec 2), s.phase = .idle →
    (i = .cmdDecompress e ie ∧ op = 0) ∨ (i = .cmdXorRegion e ie ∧ op = 1) ∨ (i = .cmdKeygen e ie ∧ op = 2) ∨
      (i = .illegalCommand e ie ∧ op = 3) →
    exec i s =
      .next { s with
        op := op, endian := e, ie := ie, done := false, err := false, errCode := 0, errIn := 0, errOut := 0,
        errVal := 0, ic := 0, oc := 0, phase := .cmd, draws := s.draws + 1 }

/-- 40_host_commands.md R100, 10_state.md R21: a write with START = 0 while idle stores OP, ENDIAN and IE and starts
nothing. -/
def Obligations.CfgCtrlStoresFields : Prop :=
  ∀ (op : BitVec 2) (e : Endian) (ie : Bool) (s : State), s.phase = .idle →
    exec (.cfgCtrl op e ie) s = .next { s with op := op, endian := e, ie := ie }

/-- 40_host_commands.md R100: a CTRL write while busy takes only IE: the START is dropped. -/
def Obligations.CtrlWriteWhileBusyTakesOnlyIe : Prop :=
  ∀ (w : Word) (s : State), s.phase ≠ .idle → exec (decodeCtrl w) s = .next { s with ie := w.getLsbD 4 }

/-- 40_host_commands.md R101: ACK clears DONE, and ERR with ERR_CODE, as asked; ERR_IN, ERR_OUT and ERR_VAL keep
their values; where DONE and ERR are already 0 nothing changes; with both cleared IRQ is 0. -/
def Obligations.AckClearsFlags : Prop :=
  ∀ (w : Word) (s : State),
    exec (decodeStatus w) s =
      .next { s with
        done := if w.getLsbD 1 then false else s.done
        err := if w.getLsbD 2 then false else s.err
        errCode := if w.getLsbD 2 then 0 else s.errCode } ∧
    (s.done = false → s.err = false → s.errCode = 0 → exec (decodeStatus w) s = .next s) ∧
    (w.getLsbD 1 = true → w.getLsbD 2 = true → ∀ t, exec (decodeStatus w) s = .next t → t.irq = false)

/-! ### Engine steps -/

/-- 40_host_commands.md R102: the dispatch step and its two faults. -/
def Obligations.DispatchStep : Prop :=
  ∀ (cap : Word) (s : State), s.phase = .cmd →
    (s.op = 3 → engineStep (.withBufCap cap) s = .next (faultState s 12 0 3)) ∧
    (s.op ≠ 3 → cap.toNat < s.bufLen.toNat → engineStep (.withBufCap cap) s = .next (faultState s 3 s.bufLen 0)) ∧
    (s.op = 0 → s.bufLen.toNat ≤ cap.toNat → engineStep (.withBufCap cap) s = .next { s with phase := .lCheck }) ∧
    (s.op = 1 ∨ s.op = 2 → s.bufLen.toNat ≤ cap.toNat → engineStep (.withBufCap cap) s = .next { s with phase := .xIv })

/-- 42_lzd_checks.md R116: the checksum step: the length fault, the sum fault, or the signature step next. Model's
own: `draws` (log entry 2). -/
def Obligations.ChecksumStep : Prop :=
  ∀ (cap : Word) (s : State) (sum : Word), s.phase = .lCheck →
    sum = ((List.range (s.bufLen.toNat / 4)).map fun k => rdw s .little (4 * k)).sum →
    (s.bufLen.toNat % 4 ≠ 0 →
      engineStep (.withBufCap cap) s = .next (faultState s 4 s.bufLen (BitVec.ofNat 32 (s.bufLen.toNat % 4)))) ∧
    (s.bufLen.toNat % 4 = 0 → sum ≠ 0 → engineStep (.withBufCap cap) s = .next (faultState s 4 0 sum)) ∧
    (s.bufLen.toNat % 4 = 0 → sum = 0 →
      engineStep (.withBufCap cap) s = .next { s with phase := .lSig, draws := s.draws + 1 })

/-- 42_lzd_checks.md R118: the signature step: OutOfBounds for a short buffer, MissingCompressionSignature for a zero
value, else the first header at 0x200. -/
def Obligations.SignatureStep : Prop :=
  ∀ (cap : Word) (s : State), s.phase = .lSig →
    (s.bufLen.toNat < 0x1F8 → engineStep (.withBufCap cap) s = .next (faultState s 3 0x1F6 2)) ∧
    (0x1F8 ≤ s.bufLen.toNat → bufByte s 0x1F6 = 0 → bufByte s 0x1F7 = 0 →
      engineStep (.withBufCap cap) s = .next (faultState s 5 0x1F6 0)) ∧
    (0x1F8 ≤ s.bufLen.toNat → ¬(bufByte s 0x1F6 = 0 ∧ bufByte s 0x1F7 = 0) →
      engineStep (.withBufCap cap) s = .next { s with ic := 0x200, phase := .lHdr })

/-- 43_lzd_blocks.md R126: the raw block step: the capacity fault for the whole block, or RAWN bytes copied from
BSTART to OC, IC past the block, and every other byte of OUT as before. -/
def Obligations.RawPayloadStep : Prop :=
  ∀ (cap : Word) (s : State), s.phase = .lRaw →
    (0x2000000 < s.oc.toNat + s.rawn.toNat →
      engineStep (.withBufCap cap) s = .next (faultState s 10 s.bstart (s.rawn.setWidth 32))) ∧
    (s.oc.toNat + s.rawn.toNat ≤ 0x2000000 →
      ∃ t, engineStep (.withBufCap cap) s = .next t ∧
        t = { s with
              out := t.out, oc := BitVec.ofNat 32 (s.oc.toNat + s.rawn.toNat),
              ic := BitVec.ofNat 32 (s.bstart.toNat + s.blen.toNat), phase := .lHdr } ∧
        (∀ k, k < s.rawn.toNat → t.outAt (s.oc.toNat + k) = some (bufByte s (s.bstart.toNat + k))) ∧
        ∀ a, a < s.oc.toNat ∨ s.oc.toNat + s.rawn.toNat ≤ a → t.outAt a = s.outAt a)

/-- 41_xke_keystream.md R108: the IV step: KEY takes the key schedule of the four IV words, or OutOfBounds (3) with
ERR_VAL 16. ERR_IN is the sum where it fits; from 2^32 on the spec states no value for it (log entry 10). Model's
own: `draws` (log entry 2). -/
def Obligations.IvStep : Prop :=
  ∀ (cap : Word) (s : State) (a : Nat), s.phase = .xIv → a = s.xbase.toNat + s.xivoff.toNat →
    (s.bufLen.toNat < a + 16 →
      ∃ w, engineStep (.withBufCap cap) s = .next (faultState s 3 w 16) ∧ (a < 2 ^ 32 → w = BitVec.ofNat 32 a)) ∧
    (a + 16 ≤ s.bufLen.toNat →
      ∃ key : Vector Word 32, key.toList = keysched (.withBufCap cap) (fun j => rdw s s.endian (a + 4 * j)) ∧
        (s.op = 2 →
          engineStep (.withBufCap cap) s =
            .next { s with key := key, draws := s.draws + 1, done := true, phase := .idle, work := none }) ∧
        (s.op ≠ 2 →
          engineStep (.withBufCap cap) s = .next { s with key := key, draws := s.draws + 1, phase := .xChk }))

/-- 41_xke_keystream.md R110: the region check step: AlignmentError (2), nothing to do, OutOfBounds (3) with ERR_VAL
XLEN, or the first block. ERR_IN is the sum where it fits; from 2^32 on the spec states no value for it (log entry
10). -/
def Obligations.RegionCheckStep : Prop :=
  ∀ (cap : Word) (s : State) (a : Nat), s.phase = .xChk → a = s.xbase.toNat + s.xstart.toNat →
    (s.xstart.toNat % 0x80 ≠ 0 ∨ s.xlen.toNat % 0x80 ≠ 0 →
      engineStep (.withBufCap cap) s = .next (faultState s 2 s.xstart s.xlen)) ∧
    (s.xstart.toNat % 0x80 = 0 → s.xlen.toNat % 0x80 = 0 →
      (s.xlen = 0 → engineStep (.withBufCap cap) s = .next { s with done := true, phase := .idle, work := none }) ∧
      (s.xlen ≠ 0 → s.bufLen.toNat < a + s.xlen.toNat →
        ∃ w, engineStep (.withBufCap cap) s = .next (faultState s 3 w s.xlen) ∧ (a < 2 ^ 32 → w = BitVec.ofNat 32 a)) ∧
      (s.xlen ≠ 0 → a + s.xlen.toNat ≤ s.bufLen.toNat →
        engineStep (.withBufCap cap) s = .next { s with ic := BitVec.ofNat 32 a, phase := .xBlk }))

/-- 41_xke_keystream.md R111, R112: the XOR block step, byte by byte: byte k of word i is XORed with byte k of
`(KEY[i] - rel) mod 2^32` in the command's byte order; every other byte of BUF is as before; the last block
completes. -/
def Obligations.XorBlockStep : Prop :=
  ∀ (cap : Word) (s : State), s.phase = .xBlk →
    ∃ t, engineStep (.withBufCap cap) s = .next t ∧
      (s.ic.toNat + 0x80 ≠ s.xbase.toNat + s.xstart.toNat + s.xlen.toNat →
        t = { s with buf := t.buf, ic := BitVec.ofNat 32 (s.ic.toNat + 0x80) }) ∧
      (s.ic.toNat + 0x80 = s.xbase.toNat + s.xstart.toNat + s.xlen.toNat →
        t = { s with
              buf := t.buf, ic := BitVec.ofNat 32 (s.ic.toNat + 0x80), done := true, phase := .idle, work := none }) ∧
      (∀ (i : Fin 32) (k : Nat), k < 4 →
        t.bufAt (s.ic.toNat + 4 * i.val + k) =
          some (bufByte s (s.ic.toNat + 4 * i.val + k) ^^^ maskByte s.endian (s.key[i] - (s.ic - s.xbase)) k)) ∧
      ∀ a, a < s.ic.toNat ∨ s.ic.toNat + 0x80 ≤ a → t.bufAt a = s.bufAt a

/-! ### The key schedule and XOR_REGION -/

/-- 41_xke_keystream.md R107: the two words the loops give each pair (i, j), the closed forms of tmp, that the index
pairs cover 0 to 31 exactly once each, and the zero-IV example. -/
def Obligations.KeyScheduleFormula : Prop :=
  (∀ (iv : Nat → Word) (i j : Fin 4) (tmp : Word),
    tmp = (match i with
      | 0 => iv 0 + ~~~(iv 2)
      | 1 => iv 1 + ~~~(iv 3)
      | 2 => ~~~(iv 0 + ~~~(iv 2))
      | 3 => ~~~(iv 1 + ~~~(iv 3))) →
    (keysched Config.hw iv)[i.val + 8 * j.val]? = some (tmp + iv j.val - 1) ∧
    (keysched Config.hw iv)[i.val + 8 * j.val + 4]? = some (tmp - iv j.val - 1) ∧
    tmp = (match i with
      | 0 => iv 0 - iv 2 - 1
      | 1 => iv 1 - iv 3 - 1
      | 2 => iv 2 - iv 0
      | 3 => iv 3 - iv 1)) ∧
  (∀ iv : Nat → Word, (keysched Config.hw iv).length = 32) ∧
  (∀ n : Fin 32, ∃! p : Fin 4 × Fin 4 × Bool, n.val = p.1.val + 8 * p.2.1.val + if p.2.2 then 4 else 0) ∧
  (∀ n : Fin 32, (keysched Config.hw fun _ => 0)[n.val]? = some (if n.val % 4 < 2 then 0xFFFFFFFE else 0xFFFFFFFF))

/-- 41_xke_keystream.md R109: adding d to one IV word adds d to a key word, so the key changes where d is not 0;
equal IVs give equal keys. -/
def Obligations.KeyScheduleSensitivity : Prop :=
  (∀ iv iv' : Nat → Word, (∀ j, j < 4 → iv j = iv' j) → keysched Config.hw iv = keysched Config.hw iv') ∧
  ∀ (iv : Nat → Word) (j : Fin 4) (d : Word),
    let iv' := fun k => if k = j.val then iv k + d else iv k
    let n := if j.val % 2 = 0 then 1 + 8 * j.val else 8 * j.val
    (keysched Config.hw iv')[n]? = ((keysched Config.hw iv)[n]?).map (· + d) ∧
    (d ≠ 0 → keysched Config.hw iv' ≠ keysched Config.hw iv)

/-- 41_xke_keystream.md R113: two XOR_REGION commands with the same registers restore BUF, provided the 16 IV bytes
do not overlap the region (and every byte of the buffer has been stored, R173). Model's own: no host action pending
(log entry 3). -/
def Obligations.XorRegionInvolution : Prop :=
  ∀ (cap : Word) (s t u v : State) (ie : Bool) (n : Nat),
    s.phase = .cmd → s.op = 1 → s.pending = [] →
    (∀ a, a < s.bufLen.toNat → (s.bufAt a).isSome = true) →
    s.xbase.toNat + s.xivoff.toNat + 16 ≤ s.xbase.toNat + s.xstart.toNat ∨
      s.xbase.toNat + s.xstart.toNat + s.xlen.toNat ≤ s.xbase.toNat + s.xivoff.toNat →
    n = 3 + s.xlen.toNat / 0x80 →
    runSteps (.withBufCap cap) n s = .next t →
    exec (.cmdXorRegion s.endian ie) t = .next u → runSteps (.withBufCap cap) n u = .next v →
    ∀ a, v.bufAt a = s.bufAt a

/-- 41_xke_keystream.md R114: a run of an XKE command that has ended in a fault has left BUF as it was, and a KEYGEN
never writes BUF. Model's own: no host action pending (log entry 3). -/
def Obligations.XkeFaultLeavesBuf : Prop :=
  ∀ (cap : Word) (k : Nat) (s t : State),
    s.phase = .cmd → s.pending = [] → s.err = false → s.op = 1 ∨ s.op = 2 → runSteps (.withBufCap cap) k s = .next t →
    t.err = true ∨ s.op = 2 → t.buf = s.buf

/-! ### Faults, completion and the memories -/

/-- 60_exceptions.md R141, R142: a step that raises a fault changes the five error registers and PHASE and nothing
else; ERR_OUT is OC from before the step; the code is one of 2 to 12. Model's own: no token step half done (log
entry 8). -/
def Obligations.FaultsArePrecise : Prop :=
  ∀ (cap : Word) (s t : State), s.work = none → s.err = false → s.busy = true →
    engineStep (.withBufCap cap) s = .next t → t.err = true →
    t = faultState s t.errCode t.errIn t.errVal ∧ 2 ≤ t.errCode.toNat ∧ t.errCode.toNat ≤ 12

/-- 60_exceptions.md R143: completion happens in exactly these steps. -/
def Obligations.CompletionSteps : Prop :=
  ∀ (cap : Word) (s t : State), s.busy = true → s.done = false → engineStep (.withBufCap cap) s = .next t →
    (t.done = true ↔
      (s.phase = .lHdr ∧ s.ic.toNat + 2 ≤ s.bufLen.toNat ∧ be16At s s.ic.toNat = 0) ∨
      (s.phase = .xIv ∧ s.op = 2 ∧ s.xbase.toNat + s.xivoff.toNat + 16 ≤ s.bufLen.toNat) ∨
      (s.phase = .xChk ∧ s.xlen = 0 ∧ s.xstart.toNat % 0x80 = 0) ∨
      (s.phase = .xBlk ∧ s.ic.toNat + 0x80 = s.xbase.toNat + s.xstart.toNat + s.xlen.toNat))

/-- 20_memory.md R62: the LZD steps write neither BUF nor KEY; the XKE steps touch neither OUT nor OC; only the block
step writes BUF. -/
def Obligations.CommandsKeepTheirMemories : Prop :=
  ∀ (cap : Word) (s t : State), engineStep (.withBufCap cap) s = .next t →
    (s.phase ∈ [Phase.lCheck, .lSig, .lHdr, .lTok, .lTrl, .lRaw] → t.buf = s.buf ∧ t.key = s.key) ∧
    (s.phase ∈ [Phase.cmd, .xIv, .xChk, .xBlk] → t.out = s.out ∧ t.oc = s.oc) ∧
    (s.phase ≠ .xBlk → t.buf = s.buf) ∧ (s.phase ≠ .xIv → t.key = s.key)

/-- 20_memory.md R61, 44_lzd_tokens.md R132: an LZD step stores exactly at the offsets OC passes over: OUT below the
old OC and from the new OC on is as before, and every byte between has a value. Model's own: which bytes have a
value (log entry 1). -/
def Obligations.OutputOnlyAppended : Prop :=
  ∀ (cap : Word) (s t : State), MachineInv cap s → s.phase ∈ [Phase.lHdr, .lTok, .lTrl, .lRaw] →
    engineStep (.withBufCap cap) s = .next t →
    s.oc.toNat ≤ t.oc.toNat ∧ t.oc.toNat ≤ 0x2000000 ∧
    (∀ a, a < s.oc.toNat ∨ t.oc.toNat ≤ a → t.outAt a = s.outAt a) ∧
    ∀ a, s.oc.toNat ≤ a → a < t.oc.toNat → (t.outAt a).isSome = true

/-- 10_state.md R33: after L_SIG every step of a DECOMPRESS ends in a fault or moves IC forward. -/
def Obligations.CursorStrictlyAdvances : Prop :=
  ∀ (cap : Word) (s t : State), MachineInv cap s → s.phase ∈ [Phase.lHdr, .lTok, .lTrl, .lRaw] →
    engineStep (.withBufCap cap) s = .next t →
    t.err = true ∨ s.ic.toNat < t.ic.toNat

/-- 10_state.md R36, 93_implementation_defined.md (a command that never ends: there is no stuck state): the engine
always has its next step; in IDLE, where R36 gives it none, an engine step and a step of the machine leave the state
as it is, so that a fault's record stands (60_exceptions.md R145). Model's own: the idle stutter (log entry 16), no
token step half done (log entry 8), no host action pending (log entry 3). -/
def Obligations.EngineNeverStops : Prop :=
  (∀ (cap : Word) (s : State), s.work = none → ∃ t, engineStep (.withBufCap cap) s = .next t) ∧
  (∀ (cap : Word) (s : State), s.phase = .idle → engineStep (.withBufCap cap) s = .next s) ∧
  ∀ s : State, s.phase = .idle → s.pending = [] → step s = .next s

/-- 40_host_commands.md R106: every command has ended, by completion (DONE) or by fault (ERR), within its bound of
engine steps. Model's own: no host action pending (log entry 3), no token step half done (log entry 8), and an ended
command's further steps leave the idle machine as it is (log entry 16). -/
def Obligations.EveryCommandEnds : Prop :=
  ∀ (cap : Word) (s : State), s.pending = [] → s.work = none → s.phase = .cmd →
    ∃ t, runSteps (.withBufCap cap) (stepBound s) s = .next t ∧ t.phase = .idle ∧ (t.done = true ∨ t.err = true)

/-- 20_memory.md R67, R60: a DECOMPRESS depends on the bytes of BUF below BUF_LEN, MODEL and the configuration alone:
from two idle machines that agree on these (with every such byte stored, R173), whatever their OUT, KEY and other
registers hold, after any number of steps phase, cursors and fault record are the same, and so is OUT below OC.
Model's own: no host action pending (log entry 3), no token step half done (log entry 8), bytes without a value (log
entry 1), and the idle stutter after the command's end (log entry 16). -/
def Obligations.ImageDependsOnBufAndModel : Prop :=
  ∀ (cap : Word) (k : Nat) (s₁ s₂ u₁ u₂ t₁ : State) (e₁ e₂ : Endian) (ie₁ ie₂ : Bool),
    s₁.phase = .idle → s₂.phase = .idle → s₁.pending = [] → s₂.pending = [] → s₁.work = none → s₂.work = none →
    s₁.bufLen = s₂.bufLen → s₁.model = s₂.model →
    (∀ a, a < s₁.bufLen.toNat → s₁.bufAt a = s₂.bufAt a ∧ (s₁.bufAt a).isSome = true) →
    exec (.cmdDecompress e₁ ie₁) s₁ = .next u₁ → exec (.cmdDecompress e₂ ie₂) s₂ = .next u₂ →
    runSteps (.withBufCap cap) k u₁ = .next t₁ →
    ∃ t₂, runSteps (.withBufCap cap) k u₂ = .next t₂ ∧ t₁.phase = t₂.phase ∧ t₁.ic = t₂.ic ∧ t₁.oc = t₂.oc ∧
      t₁.statusWord = t₂.statusWord ∧ t₁.errIn = t₂.errIn ∧ t₁.errOut = t₂.errOut ∧ t₁.errVal = t₂.errVal ∧
      ∀ a, a < t₁.oc.toNat → t₁.outAt a = t₂.outAt a

/-! ### The invariant -/

/-- The invariant holds right after reset (10_state.md R39). Model's own: as in StepKeepsInv. -/
def Obligations.ResetHasInv : Prop := ∀ cap : Word, MachineInv cap State.reset

/-- Every step, the host's and the engine's, keeps the invariant, whatever P_BUF_CAP is, and so does the step of the
machine behind the host's interface (10_state.md R22, R30, R36; 20_memory.md R60, R61; 60_exceptions.md R140).
Model's own: the memories' canonical form and that no token step is half done between steps (log entries 1 and 8).
-/
def Obligations.StepKeepsInv : Prop :=
  (∀ (cap : Word) (s t : State), MachineInv cap s → stepWith (.withBufCap cap) s = .next t → MachineInv cap t) ∧
  ∀ s t : State, MachineInv Config.pBufCap s → step s = .next t → MachineInv Config.pBufCap t

/-! ### The host's side -/

/-- 10_state.md R20: while busy, a host write to any register other than CTRL and STATUS has no effect. Model's own:
the host's list (log entry 3). -/
def Obligations.BusyWritesIgnored : Prop :=
  ∀ (s : State) (off : Nat) (v : Word) (rest : List HostOp),
    s.phase ≠ .idle → off % 4 = 0 → off < 0x100 → 8 ≤ off → s.pending = .wr off v :: rest →
    step s = .next { s with pending := rest }

/-- 10_state.md R19, R23 to R25: what a host write while idle changes: one configuration register, MODEL by its low
byte. Model's own: the host's list (log entry 3). -/
def Obligations.IdleWritesSetOneRegister : Prop :=
  ∀ (s : State) (v : Word) (rest : List HostOp), s.phase = .idle →
    (s.pending = .wr 0x08 v :: rest → step s = .next { s with pending := rest, bufLen := v }) ∧
    (s.pending = .wr 0x0C v :: rest → step s = .next { s with pending := rest, model := v.extractLsb' 0 8 }) ∧
    (s.pending = .wr 0x10 v :: rest → step s = .next { s with pending := rest, xbase := v }) ∧
    (s.pending = .wr 0x14 v :: rest → step s = .next { s with pending := rest, xivoff := v }) ∧
    (s.pending = .wr 0x18 v :: rest → step s = .next { s with pending := rest, xstart := v }) ∧
    (s.pending = .wr 0x1C v :: rest → step s = .next { s with pending := rest, xlen := v })

/-- 10_state.md R19, R20: writes to read-only and reserved offsets have no effect, and reserved offsets read 0.
Model's own: the host's list and what it has read (log entries 3 and 12). -/
def Obligations.ReadOnlyAndReservedOffsets : Prop :=
  ∀ (s : State) (off : Nat) (v : Word) (rest : List HostOp), off % 4 = 0 → off < 0x100 → 0x20 ≤ off →
    (s.pending = .wr off v :: rest → step s = .next { s with pending := rest }) ∧
    (s.pending = .rd off :: rest → 0x3C ≤ off → off < 0x80 → step s = .next { s with pending := rest, rdData := 0 })

/-- 10_state.md R21, R23 to R29: what a read of each register but STATUS returns, and that it changes nothing of the
block: CTRL's START and bits [31:5] and MODEL's bits [31:8] read 0. Model's own: the host's list and what it has
read (log entries 3 and 12). -/
def Obligations.RegisterReads : Prop :=
  ∀ (s : State) (rest : List HostOp),
    (s.pending = .rd 0x00 :: rest →
      ∃ w, step s = .next { s with pending := rest, rdData := w } ∧
        w.getLsbD 0 = false ∧ w.extractLsb' 1 2 = s.op ∧ (w.getLsbD 3 = true ↔ s.endian = .big) ∧
        w.getLsbD 4 = s.ie ∧ w.extractLsb' 5 27 = 0) ∧
    (s.pending = .rd 0x08 :: rest → step s = .next { s with pending := rest, rdData := s.bufLen }) ∧
    (s.pending = .rd 0x0C :: rest →
      ∃ w, step s = .next { s with pending := rest, rdData := w } ∧
        w.extractLsb' 0 8 = s.model ∧ w.extractLsb' 8 24 = 0) ∧
    (s.pending = .rd 0x10 :: rest → step s = .next { s with pending := rest, rdData := s.xbase }) ∧
    (s.pending = .rd 0x14 :: rest → step s = .next { s with pending := rest, rdData := s.xivoff }) ∧
    (s.pending = .rd 0x18 :: rest → step s = .next { s with pending := rest, rdData := s.xstart }) ∧
    (s.pending = .rd 0x1C :: rest → step s = .next { s with pending := rest, rdData := s.xlen }) ∧
    (s.pending = .rd 0x20 :: rest → step s = .next { s with pending := rest, rdData := s.oc }) ∧
    (s.pending = .rd 0x24 :: rest → step s = .next { s with pending := rest, rdData := s.ic }) ∧
    (s.pending = .rd 0x28 :: rest → step s = .next { s with pending := rest, rdData := s.errIn }) ∧
    (s.pending = .rd 0x2C :: rest → step s = .next { s with pending := rest, rdData := s.errOut }) ∧
    (s.pending = .rd 0x30 :: rest → step s = .next { s with pending := rest, rdData := s.errVal }) ∧
    (s.pending = .rd 0x34 :: rest → step s = .next { s with pending := rest, rdData := 0x02000000 }) ∧
    (s.pending = .rd 0x38 :: rest → step s = .next { s with pending := rest, rdData := Config.pBufCap }) ∧
    ∀ i : Fin 32, s.pending = .rd (0x80 + 4 * i.val) :: rest →
      step s = .next { s with pending := rest, rdData := s.key[i] }

/-- 10_state.md R22: the bits a read of STATUS returns, and that the read changes nothing of the block. Model's own:
the host's list and what it has read (log entries 3 and 12). -/
def Obligations.StatusRead : Prop :=
  ∀ (s : State) (rest : List HostOp), s.pending = .rd 0x04 :: rest →
    ∃ w, step s = .next { s with pending := rest, rdData := w } ∧
      w.getLsbD 0 = decide (s.phase ≠ .idle) ∧ w.getLsbD 1 = s.done ∧ w.getLsbD 2 = s.err ∧
      w.extractLsb' 8 8 = s.errCode ∧ w.extractLsb' 3 5 = 0 ∧ w.extractLsb' 16 16 = 0

/-- 60_exceptions.md R146: IRQ is the level `CTRL.IE & (STATUS.DONE | STATUS.ERR)`: a completion or a fault raises it
while IE is 1, and a START drops it. -/
def Obligations.IrqLevel : Prop :=
  ∀ s : State,
    (s.irq = true ↔ s.ie = true ∧ (s.done = true ∨ s.err = true)) ∧
    (s.ie = true → (complete s).irq = true ∧ ∀ c inp val, (raiseFault c inp val s).irq = true) ∧
    ∀ i t, s.phase = .idle → Ctx.admits Config.hw .ctrlWrite i = true → (∀ op e ie, i ≠ .cfgCtrl op e ie) →
      exec i s = .next t → t.irq = false

/-- 10_state.md R39, R19, 70_reset_and_hazards.md R160: the registers after reset, in the words a host reads; BUF_CAP
reads P_BUF_CAP, whatever it is, and on this machine its unknown value. -/
def Obligations.ResetValues : Prop :=
  (∀ (cap : Word) (off : Nat), off < 0x100 → off % 4 = 0 → off ≠ 0x34 → off ≠ 0x38 →
    readReg (.withBufCap cap) off State.reset = 0) ∧
  (∀ cap : Word, readReg (.withBufCap cap) 0x34 State.reset = 0x02000000 ∧
    readReg (.withBufCap cap) 0x38 State.reset = cap) ∧
  readReg Config.hw 0x38 State.reset = Config.pBufCap ∧
  State.reset.phase = .idle ∧ State.reset.irq = false ∧
  State.reset.bstart = 0 ∧ State.reset.bend = 0 ∧ State.reset.blen = 0 ∧ State.reset.rawn = 0 ∧
  State.reset.mask = 0 ∧ State.reset.sel = 0

/-- 70_reset_and_hazards.md R160, R161: a reset, also while a command runs, puts every register and datapath register
in the reset state; no completion and no fault is reported, and no byte of BUF or OUT has a value. Model's own:
reset as a host action, which keeps the host's list and what it has read (log entries 3, 12 and 19), and `draws`
(log entry 2). -/
def Obligations.ResetAbandonsCommand : Prop :=
  ∀ (s : State) (rest : List HostOp), s.pending = .reset :: rest →
    ∃ t, step s = .next t ∧
      t = { State.reset with draws := s.draws + 1, pending := rest, rdData := s.rdData, memData := s.memData } ∧
      t.phase = .idle ∧ t.statusWord = 0 ∧ t.ctrlWord = 0 ∧ t.irq = false ∧
      t.bstart = 0 ∧ t.bend = 0 ∧ t.blen = 0 ∧ t.rawn = 0 ∧ t.mask = 0 ∧ t.sel = 0 ∧
      (∀ off, off < 0x100 → off % 4 = 0 → off ≠ 0x34 → off ≠ 0x38 → readReg Config.hw off t = 0) ∧
      ∀ a, t.bufAt a = none ∧ t.outAt a = none

/-- 70_reset_and_hazards.md R173, 20_memory.md R60, R61: while busy every host access to BUF or OUT is refused. While
idle a store inside BUF or OUT changes the stored bytes and no others; a read of BUF, of OUT or of the image `OUT[0
.. OUT_LEN - 1]` gives the bytes in order and changes nothing of the block; and an access past the memory's end
faults. Model's own: the host's list (log entry 3), `draws` (log entry 2), what the host has read (log entry 12),
the refusal's name (log entry 14), the two faults (log entry 15), and the store in OUT (log entry 18). -/
def Obligations.HostMemoryAccess : Prop :=
  ∀ (cap : Word) (s : State) (off n : Nat) (bs : List Byte) (rest : List HostOp),
    (s.phase ≠ .idle →
      ∀ op, op ∈ [HostOp.load off bs, .storeOut off bs, .readBuf off n, .readOut off n, .readImage] →
        s.pending = op :: rest → stepWith (.withBufCap cap) s = .refused .memoryWhileBusy) ∧
    (s.phase = .idle →
      (s.pending = .load off bs :: rest →
        (off + bs.length ≤ cap.toNat →
          ∃ t, stepWith (.withBufCap cap) s = .next t ∧ t = { s with pending := rest, buf := t.buf } ∧
            (∀ k, k < bs.length → t.bufAt (off + k) = bs[k]?) ∧
            ∀ a, a < off ∨ off + bs.length ≤ a → t.bufAt a = s.bufAt a) ∧
        (cap.toNat < off + bs.length → stepWith (.withBufCap cap) s = .fault .bufOffsetAbsent)) ∧
      (s.pending = .storeOut off bs :: rest →
        (off + bs.length ≤ 0x2000000 →
          ∃ t, stepWith (.withBufCap cap) s = .next t ∧ t = { s with pending := rest, out := t.out } ∧
            (∀ k, k < bs.length → t.outAt (off + k) = bs[k]?) ∧
            ∀ a, a < off ∨ off + bs.length ≤ a → t.outAt a = s.outAt a) ∧
        (0x2000000 < off + bs.length → stepWith (.withBufCap cap) s = .fault .outOffsetAbsent)) ∧
      (s.pending = .readBuf off n :: rest →
        (off + n ≤ cap.toNat →
          ∃ bytes, stepWith (.withBufCap cap) s =
              .next { s with pending := rest, memData := bytes, draws := s.draws + 1 } ∧
            bytes.length = n ∧ ∀ k, k < n → bytes[k]? = some (bufByte s (off + k))) ∧
        (cap.toNat < off + n → stepWith (.withBufCap cap) s = .fault .bufOffsetAbsent)) ∧
      (s.pending = .readOut off n :: rest →
        (off + n ≤ 0x2000000 →
          ∃ bytes, stepWith (.withBufCap cap) s =
              .next { s with pending := rest, memData := bytes, draws := s.draws + 1 } ∧
            bytes.length = n ∧ ∀ k, k < n → bytes[k]? = some (outByte s (off + k))) ∧
        (0x2000000 < off + n → stepWith (.withBufCap cap) s = .fault .outOffsetAbsent)) ∧
      (s.pending = .readImage :: rest →
        (s.oc.toNat ≤ 0x2000000 →
          ∃ bytes, stepWith (.withBufCap cap) s =
              .next { s with pending := rest, memData := bytes, draws := s.draws + 1 } ∧
            bytes.length = s.oc.toNat ∧ ∀ k, k < s.oc.toNat → bytes[k]? = some (outByte s k)) ∧
        (0x2000000 < s.oc.toNat → stepWith (.withBufCap cap) s = .fault .outOffsetAbsent)))

/-- 10_state.md R20: a REG access that is not aligned is refused, whatever the state. Model's own: the refusal (log
entry 13). -/
def Obligations.MisalignedRegAccessRefused : Prop :=
  ∀ (s : State) (off : Nat) (v : Word) (rest : List HostOp), off % 4 ≠ 0 →
    s.pending = .wr off v :: rest ∨ s.pending = .rd off :: rest → step s = .refused .regMisaligned

/-- 00_scope.md R6, R7, R16, 10_state.md R28: the step of the host's interface is the step relation at one
configuration, whose fields are the values of R6 and whose P_BUF_CAP is any value from 1; the registers OUT_CAP and
BUF_CAP read the configuration in every state, so no step changes them. Model's own: P_BUF_CAP as an unknown
constant (log entry 6), and R6's two width rows as types (log entry 7). -/
def Obligations.CapacityIsConstant : Prop :=
  (∀ s : State, step s = stepWith Config.hw s) ∧
  1 ≤ Config.hw.bufCap.toNat ∧ Config.hw.outCap = 0x2000000 ∧ Config.hw.streamStart = 0x200 ∧
  Config.hw.sigOff = 0x1F6 ∧ Config.hw.maxBlock = 0x8000 ∧ Config.hw.sentinel = 0xE000 ∧ Config.hw.subM1 = 0xC002 ∧
  Config.hw.subM2 = 0x6000 ∧ Config.hw.margin = 6 ∧ Config.hw.minCopy = 3 ∧ Config.hw.escLen = 10 ∧
  Config.hw.group = 16 ∧ Config.hw.blockSize = 0x80 ∧ Config.hw.keyWords = 32 ∧ Config.hw.ivWords = 4 ∧
  Config.hw.rawSelect = .byValue ∧ Config.hw.modelOff = 10 ∧
  ∀ (cfg : Config) (s t : State), stepWith cfg s = .next t →
    readReg cfg 0x34 s = BitVec.ofNat 32 cfg.outCap ∧ readReg cfg 0x38 s = cfg.bufCap ∧
    readReg cfg 0x34 t = readReg cfg 0x34 s ∧ readReg cfg 0x38 t = readReg cfg 0x38 s
end

