-- ==== Sys2Proof/Laws/Config.lean ====
section
/-! SUPPORT. The steps that read the configuration, under the one the claims speak of: the values of 00_scope.md R6 with
any P_BUF_CAP. -/

namespace Sys2Proof.Machine

@[simp] theorem firstSelector_withBufCap (cap : Word) : firstSelector (Config.withBufCap cap) = 0x8000 := rfl
@[simp] theorem escapeField_withBufCap (cap : Word) : escapeField (Config.withBufCap cap) = 7 := rfl

theorem outRoom_withBufCap (cap : Word) (s : State) (n : Nat) :
    outRoom (.withBufCap cap) s n = decide (s.oc.toNat + n ≤ 0x2000000) := rfl

/-! ### The steps -/

theorem cmdStep_withBufCap (cap : Word) (s : State) :
    cmdStep (.withBufCap cap) s =
      if s.op = 3 then raiseFault .illegalCommand 0 3 s
      else if cap.toNat < s.bufLen.toNat then raiseFault .outOfBounds s.bufLen.toNat 0 s
      else if s.op = 0 then { s with phase := .lCheck }
      else { s with phase := .xIv } := rfl

theorem lSigStep_withBufCap (cap : Word) (s : State) :
    lSigStep (.withBufCap cap) s =
      if s.bufLen.toNat < 0x1F6 + 2 then raiseFault .outOfBounds 0x1F6 2 s
      else if be16At s 0x1F6 = 0 then raiseFault .missingCompressionSignature 0x1F6 0 s
      else { s with ic := BitVec.ofNat 32 0x200, phase := .lHdr } := rfl

theorem lRawStep_withBufCap (cap : Word) (s : State) :
    lRawStep (.withBufCap cap) s =
      if 0x2000000 < s.oc.toNat + s.rawn.toNat then
        raiseFault .outputCapacityExceeded s.bstart.toNat s.rawn.toNat s
      else leaveBlock (emit (bufBytes s s.bstart.toNat s.rawn.toNat) s) := by
  unfold lRawStep
  simp only [outRoom_withBufCap, decide_eq_false_iff_not, Nat.not_le]

theorem xIvStep_withBufCap (cap : Word) (s : State) :
    xIvStep (.withBufCap cap) s =
      if s.bufLen.toNat < s.xbase.toNat + s.xivoff.toNat + 16 then
        raiseFault .outOfBounds (s.xbase.toNat + s.xivoff.toNat) 16 s
      else if s.op = 2 then
        complete (redraw { s with
          key := loadKey (keysched (.withBufCap cap) (readIv s (s.xbase.toNat + s.xivoff.toNat))) s.key })
      else
        { redraw { s with
            key := loadKey (keysched (.withBufCap cap) (readIv s (s.xbase.toNat + s.xivoff.toNat))) s.key } with
          phase := .xChk } := rfl

theorem xChkStep_withBufCap (cap : Word) (s : State) :
    xChkStep (.withBufCap cap) s =
      if s.xstart.toNat % 0x80 ≠ 0 ∨ s.xlen.toNat % 0x80 ≠ 0 then
        raiseFault .alignmentError s.xstart.toNat s.xlen.toNat s
      else if s.xlen = 0 then complete s
      else if s.bufLen.toNat < s.xbase.toNat + s.xstart.toNat + s.xlen.toNat then
        raiseFault .outOfBounds (s.xbase.toNat + s.xstart.toNat) s.xlen.toNat s
      else { s with ic := BitVec.ofNat 32 (s.xbase.toNat + s.xstart.toNat), phase := .xBlk } := rfl

theorem xBlkStep_withBufCap (cap : Word) (s : State) :
    xBlkStep (.withBufCap cap) s =
      if s.ic.toNat + 0x80 = s.xbase.toNat + s.xstart.toNat + s.xlen.toNat then
        complete { s with
          buf := storeBytes s.buf s.ic.toNat (xorBlock (.withBufCap cap) s)
          ic := BitVec.ofNat 32 (s.ic.toNat + 0x80) }
      else
        { s with
          buf := storeBytes s.buf s.ic.toNat (xorBlock (.withBufCap cap) s)
          ic := BitVec.ofNat 32 (s.ic.toNat + 0x80) } :=
  rfl

end Sys2Proof.Machine
end

