-- ==== Sys2Proof/Laws/Memory.lean ====
section
/-! SUPPORT. The laws of a byte memory: read after write, and the canonical form every store keeps. -/

namespace Sys2Proof.Machine

theorem readCell_append (m n : Memory) (a : Nat) :
    readCell (m ++ n) a = (readCell m a).or (readCell n a) := by
  induction m with
  | nil => simp [readCell]
  | cons x m ih =>
    obtain ⟨c, b⟩ := x
    by_cases h : c = a <;> simp [readCell, h, ih]

/-- Filtering by a test on offsets keeps exactly the offsets that pass it. -/
theorem readCell_filter (m : Memory) (p : Nat → Bool) (a : Nat) :
    readCell (m.filter fun x => p x.1) a = if p a then readCell m a else none := by
  induction m with
  | nil => simp [readCell]
  | cons x m ih =>
    obtain ⟨c, b⟩ := x
    by_cases hc : p c <;> by_cases h : c = a <;> simp_all [readCell]

theorem readCell_cellRun (a : Nat) (bs : List Byte) (x : Nat) :
    readCell (cellRun a bs) x = if a ≤ x then bs[x - a]? else none := by
  induction bs generalizing a with
  | nil => simp [cellRun, readCell]
  | cons b bs ih =>
    rcases Nat.lt_trichotomy a x with h | rfl | h
    · have e : x - a = (x - (a + 1)) + 1 := by omega
      have h1 : a ≤ x := by omega
      have h2 : a + 1 ≤ x := by omega
      have h3 : ¬ a = x := by omega
      rw [cellRun, readCell, if_neg h3, ih, if_pos h1, if_pos h2, e, List.getElem?_cons_succ]
    · simp [cellRun, readCell]
    · have h1 : ¬ a ≤ x := by omega
      have h2 : ¬ a + 1 ≤ x := by omega
      have h3 : ¬ a = x := by omega
      rw [cellRun, readCell, if_neg h3, ih, if_neg h1, if_neg h2]

/-- Read after write: a stored byte reads as stored, every other byte as before. -/
theorem readCell_storeBytes (m : Memory) (a : Nat) (bs : List Byte) (x : Nat) :
    readCell (storeBytes m a bs) x = if a ≤ x ∧ x < a + bs.length then bs[x - a]? else readCell m x := by
  have h1 := readCell_filter m (fun c => decide (c < a)) x
  have h2 := readCell_filter m (fun c => decide (a + bs.length ≤ c)) x
  simp only [storeBytes, readCell_append, h1, h2, readCell_cellRun]
  by_cases ha : x < a
  · have : ¬ a ≤ x := by omega
    have : ¬ a + bs.length ≤ x := by omega
    simp [*]
  · by_cases hb : x < a + bs.length
    · have hx : x - a < bs.length := by omega
      have : a ≤ x := by omega
      have : ¬ a + bs.length ≤ x := by omega
      simp [*]
    · have hx : bs[x - a]? = none := List.getElem?_eq_none (by omega)
      have : a ≤ x := by omega
      have : a + bs.length ≤ x := by omega
      simp [*]

/-- A byte outside the stored ones reads as before. -/
theorem readCell_storeBytes_of_not_mem (m : Memory) (a : Nat) (bs : List Byte) (x : Nat)
    (h : x < a ∨ a + bs.length ≤ x) : readCell (storeBytes m a bs) x = readCell m x := by
  rw [readCell_storeBytes, if_neg (by omega)]

theorem mem_cellRun {a : Nat} {bs : List Byte} {x : Host.Cell} (h : x ∈ cellRun a bs) :
    a ≤ x.1 ∧ x.1 < a + bs.length := by
  induction bs generalizing a with
  | nil => simp [cellRun] at h
  | cons b bs ih =>
    simp only [cellRun, List.mem_cons] at h
    rcases h with rfl | h
    · simp
    · have := ih h
      simp only [List.length_cons]
      omega

theorem memoryWf_iff (m : Memory) : memoryWf m = true ↔ m.Pairwise fun x y => x.1 < y.1 := by
  simp [memoryWf]

theorem cellRun_pairwise (a : Nat) (bs : List Byte) : (cellRun a bs).Pairwise fun x y => x.1 < y.1 := by
  induction bs generalizing a with
  | nil => simp [cellRun]
  | cons b bs ih =>
    refine List.Pairwise.cons (fun y hy => ?_) (ih (a + 1))
    have := mem_cellRun hy
    show a < y.1
    omega

/-- Every store keeps the canonical form. -/
theorem memoryWf_storeBytes (m : Memory) (a : Nat) (bs : List Byte) (h : memoryWf m = true) :
    memoryWf (storeBytes m a bs) = true := by
  rw [memoryWf_iff] at h ⊢
  simp only [storeBytes, List.pairwise_append]
  refine ⟨⟨h.filter _, cellRun_pairwise a bs, fun x hx y hy => ?_⟩, h.filter _, fun x hx y hy => ?_⟩
  · have h1 := (List.mem_filter.1 hx).2
    have h2 := mem_cellRun hy
    simp only [decide_eq_true_eq] at h1
    omega
  · have h2 := (List.mem_filter.1 hy).2
    simp only [decide_eq_true_eq] at h2
    rcases List.mem_append.1 hx with hx | hx
    · have h1 := (List.mem_filter.1 hx).2
      simp only [decide_eq_true_eq] at h1
      omega
    · have h1 := mem_cellRun hx
      omega

theorem memoryBelow_iff (m : Memory) (n : Nat) : memoryBelow m n = true ↔ ∀ x ∈ m, x.1 < n := by
  simp [memoryBelow]

/-- A store inside the memory keeps every listed offset inside it. -/
theorem memoryBelow_storeBytes (m : Memory) (a : Nat) (bs : List Byte) (n : Nat) (h : memoryBelow m n = true)
    (hn : a + bs.length ≤ n) : memoryBelow (storeBytes m a bs) n = true := by
  rw [memoryBelow_iff] at h ⊢
  intro x hx
  simp only [storeBytes, List.mem_append, List.mem_filter] at hx
  rcases hx with (⟨hx, -⟩ | hx) | ⟨hx, -⟩
  · exact h x hx
  · have := mem_cellRun hx
    omega
  · exact h x hx

end Sys2Proof.Machine
end

