-- ==== Sys2Proof/Laws/State.lean ====
section
/-! SUPPORT. What each update of the state does to each field: one lemma per field per update. -/

namespace Sys2Proof.Machine

@[simp] theorem redraw_op (s : State) : (redraw s).op = s.op := rfl
@[simp] theorem redraw_endian (s : State) : (redraw s).endian = s.endian := rfl
@[simp] theorem redraw_ie (s : State) : (redraw s).ie = s.ie := rfl
@[simp] theorem redraw_done (s : State) : (redraw s).done = s.done := rfl
@[simp] theorem redraw_err (s : State) : (redraw s).err = s.err := rfl
@[simp] theorem redraw_errCode (s : State) : (redraw s).errCode = s.errCode := rfl
@[simp] theorem redraw_bufLen (s : State) : (redraw s).bufLen = s.bufLen := rfl
@[simp] theorem redraw_model (s : State) : (redraw s).model = s.model := rfl
@[simp] theorem redraw_xbase (s : State) : (redraw s).xbase = s.xbase := rfl
@[simp] theorem redraw_xivoff (s : State) : (redraw s).xivoff = s.xivoff := rfl
@[simp] theorem redraw_xstart (s : State) : (redraw s).xstart = s.xstart := rfl
@[simp] theorem redraw_xlen (s : State) : (redraw s).xlen = s.xlen := rfl
@[simp] theorem redraw_errIn (s : State) : (redraw s).errIn = s.errIn := rfl
@[simp] theorem redraw_errOut (s : State) : (redraw s).errOut = s.errOut := rfl
@[simp] theorem redraw_errVal (s : State) : (redraw s).errVal = s.errVal := rfl
@[simp] theorem redraw_key (s : State) : (redraw s).key = s.key := rfl
@[simp] theorem redraw_ic (s : State) : (redraw s).ic = s.ic := rfl
@[simp] theorem redraw_oc (s : State) : (redraw s).oc = s.oc := rfl
@[simp] theorem redraw_bstart (s : State) : (redraw s).bstart = s.bstart := rfl
@[simp] theorem redraw_blen (s : State) : (redraw s).blen = s.blen := rfl
@[simp] theorem redraw_bend (s : State) : (redraw s).bend = s.bend := rfl
@[simp] theorem redraw_rawn (s : State) : (redraw s).rawn = s.rawn := rfl
@[simp] theorem redraw_mask (s : State) : (redraw s).mask = s.mask := rfl
@[simp] theorem redraw_sel (s : State) : (redraw s).sel = s.sel := rfl
@[simp] theorem redraw_phase (s : State) : (redraw s).phase = s.phase := rfl
@[simp] theorem redraw_buf (s : State) : (redraw s).buf = s.buf := rfl
@[simp] theorem redraw_out (s : State) : (redraw s).out = s.out := rfl
@[simp] theorem redraw_work (s : State) : (redraw s).work = s.work := rfl
@[simp] theorem redraw_draws (s : State) : (redraw s).draws = s.draws + 1 := rfl
@[simp] theorem redraw_pending (s : State) : (redraw s).pending = s.pending := rfl
@[simp] theorem redraw_rdData (s : State) : (redraw s).rdData = s.rdData := rfl
@[simp] theorem redraw_memData (s : State) : (redraw s).memData = s.memData := rfl

@[simp] theorem raiseFault_op (c : Cause) (inp val : Nat) (s : State) : (raiseFault c inp val s).op = s.op := rfl
@[simp] theorem raiseFault_endian (c : Cause) (inp val : Nat) (s : State) : (raiseFault c inp val s).endian = s.endian := rfl
@[simp] theorem raiseFault_ie (c : Cause) (inp val : Nat) (s : State) : (raiseFault c inp val s).ie = s.ie := rfl
@[simp] theorem raiseFault_done (c : Cause) (inp val : Nat) (s : State) : (raiseFault c inp val s).done = s.done := rfl
@[simp] theorem raiseFault_err (c : Cause) (inp val : Nat) (s : State) : (raiseFault c inp val s).err = true := rfl
@[simp] theorem raiseFault_errCode (c : Cause) (inp val : Nat) (s : State) : (raiseFault c inp val s).errCode = causeCode c := rfl
@[simp] theorem raiseFault_bufLen (c : Cause) (inp val : Nat) (s : State) : (raiseFault c inp val s).bufLen = s.bufLen := rfl
@[simp] theorem raiseFault_model (c : Cause) (inp val : Nat) (s : State) : (raiseFault c inp val s).model = s.model := rfl
@[simp] theorem raiseFault_xbase (c : Cause) (inp val : Nat) (s : State) : (raiseFault c inp val s).xbase = s.xbase := rfl
@[simp] theorem raiseFault_xivoff (c : Cause) (inp val : Nat) (s : State) : (raiseFault c inp val s).xivoff = s.xivoff := rfl
@[simp] theorem raiseFault_xstart (c : Cause) (inp val : Nat) (s : State) : (raiseFault c inp val s).xstart = s.xstart := rfl
@[simp] theorem raiseFault_xlen (c : Cause) (inp val : Nat) (s : State) : (raiseFault c inp val s).xlen = s.xlen := rfl
@[simp] theorem raiseFault_errIn (c : Cause) (inp val : Nat) (s : State) : (raiseFault c inp val s).errIn = capture inp := rfl
@[simp] theorem raiseFault_errOut (c : Cause) (inp val : Nat) (s : State) : (raiseFault c inp val s).errOut = s.oc := rfl
@[simp] theorem raiseFault_errVal (c : Cause) (inp val : Nat) (s : State) : (raiseFault c inp val s).errVal = capture val := rfl
@[simp] theorem raiseFault_key (c : Cause) (inp val : Nat) (s : State) : (raiseFault c inp val s).key = s.key := rfl
@[simp] theorem raiseFault_ic (c : Cause) (inp val : Nat) (s : State) : (raiseFault c inp val s).ic = s.ic := rfl
@[simp] theorem raiseFault_oc (c : Cause) (inp val : Nat) (s : State) : (raiseFault c inp val s).oc = s.oc := rfl
@[simp] theorem raiseFault_bstart (c : Cause) (inp val : Nat) (s : State) : (raiseFault c inp val s).bstart = s.bstart := rfl
@[simp] theorem raiseFault_blen (c : Cause) (inp val : Nat) (s : State) : (raiseFault c inp val s).blen = s.blen := rfl
@[simp] theorem raiseFault_bend (c : Cause) (inp val : Nat) (s : State) : (raiseFault c inp val s).bend = s.bend := rfl
@[simp] theorem raiseFault_rawn (c : Cause) (inp val : Nat) (s : State) : (raiseFault c inp val s).rawn = s.rawn := rfl
@[simp] theorem raiseFault_mask (c : Cause) (inp val : Nat) (s : State) : (raiseFault c inp val s).mask = s.mask := rfl
@[simp] theorem raiseFault_sel (c : Cause) (inp val : Nat) (s : State) : (raiseFault c inp val s).sel = s.sel := rfl
@[simp] theorem raiseFault_phase (c : Cause) (inp val : Nat) (s : State) : (raiseFault c inp val s).phase = .idle := rfl
@[simp] theorem raiseFault_buf (c : Cause) (inp val : Nat) (s : State) : (raiseFault c inp val s).buf = s.buf := rfl
@[simp] theorem raiseFault_out (c : Cause) (inp val : Nat) (s : State) : (raiseFault c inp val s).out = s.out := rfl
@[simp] theorem raiseFault_work (c : Cause) (inp val : Nat) (s : State) : (raiseFault c inp val s).work = none := rfl
@[simp] theorem raiseFault_draws (c : Cause) (inp val : Nat) (s : State) : (raiseFault c inp val s).draws = s.draws := rfl
@[simp] theorem raiseFault_pending (c : Cause) (inp val : Nat) (s : State) : (raiseFault c inp val s).pending = s.pending := rfl
@[simp] theorem raiseFault_rdData (c : Cause) (inp val : Nat) (s : State) : (raiseFault c inp val s).rdData = s.rdData := rfl
@[simp] theorem raiseFault_memData (c : Cause) (inp val : Nat) (s : State) : (raiseFault c inp val s).memData = s.memData := rfl

@[simp] theorem complete_op (s : State) : (complete s).op = s.op := rfl
@[simp] theorem complete_endian (s : State) : (complete s).endian = s.endian := rfl
@[simp] theorem complete_ie (s : State) : (complete s).ie = s.ie := rfl
@[simp] theorem complete_done (s : State) : (complete s).done = true := rfl
@[simp] theorem complete_err (s : State) : (complete s).err = s.err := rfl
@[simp] theorem complete_errCode (s : State) : (complete s).errCode = s.errCode := rfl
@[simp] theorem complete_bufLen (s : State) : (complete s).bufLen = s.bufLen := rfl
@[simp] theorem complete_model (s : State) : (complete s).model = s.model := rfl
@[simp] theorem complete_xbase (s : State) : (complete s).xbase = s.xbase := rfl
@[simp] theorem complete_xivoff (s : State) : (complete s).xivoff = s.xivoff := rfl
@[simp] theorem complete_xstart (s : State) : (complete s).xstart = s.xstart := rfl
@[simp] theorem complete_xlen (s : State) : (complete s).xlen = s.xlen := rfl
@[simp] theorem complete_errIn (s : State) : (complete s).errIn = s.errIn := rfl
@[simp] theorem complete_errOut (s : State) : (complete s).errOut = s.errOut := rfl
@[simp] theorem complete_errVal (s : State) : (complete s).errVal = s.errVal := rfl
@[simp] theorem complete_key (s : State) : (complete s).key = s.key := rfl
@[simp] theorem complete_ic (s : State) : (complete s).ic = s.ic := rfl
@[simp] theorem complete_oc (s : State) : (complete s).oc = s.oc := rfl
@[simp] theorem complete_bstart (s : State) : (complete s).bstart = s.bstart := rfl
@[simp] theorem complete_blen (s : State) : (complete s).blen = s.blen := rfl
@[simp] theorem complete_bend (s : State) : (complete s).bend = s.bend := rfl
@[simp] theorem complete_rawn (s : State) : (complete s).rawn = s.rawn := rfl
@[simp] theorem complete_mask (s : State) : (complete s).mask = s.mask := rfl
@[simp] theorem complete_sel (s : State) : (complete s).sel = s.sel := rfl
@[simp] theorem complete_phase (s : State) : (complete s).phase = .idle := rfl
@[simp] theorem complete_buf (s : State) : (complete s).buf = s.buf := rfl
@[simp] theorem complete_out (s : State) : (complete s).out = s.out := rfl
@[simp] theorem complete_work (s : State) : (complete s).work = none := rfl
@[simp] theorem complete_draws (s : State) : (complete s).draws = s.draws := rfl
@[simp] theorem complete_pending (s : State) : (complete s).pending = s.pending := rfl
@[simp] theorem complete_rdData (s : State) : (complete s).rdData = s.rdData := rfl
@[simp] theorem complete_memData (s : State) : (complete s).memData = s.memData := rfl

@[simp] theorem setCtrl_op (o : BitVec 2) (e : Endian) (i : Bool) (s : State) : (setCtrl o e i s).op = o := rfl
@[simp] theorem setCtrl_endian (o : BitVec 2) (e : Endian) (i : Bool) (s : State) : (setCtrl o e i s).endian = e := rfl
@[simp] theorem setCtrl_ie (o : BitVec 2) (e : Endian) (i : Bool) (s : State) : (setCtrl o e i s).ie = i := rfl
@[simp] theorem setCtrl_done (o : BitVec 2) (e : Endian) (i : Bool) (s : State) : (setCtrl o e i s).done = s.done := rfl
@[simp] theorem setCtrl_err (o : BitVec 2) (e : Endian) (i : Bool) (s : State) : (setCtrl o e i s).err = s.err := rfl
@[simp] theorem setCtrl_errCode (o : BitVec 2) (e : Endian) (i : Bool) (s : State) : (setCtrl o e i s).errCode = s.errCode := rfl
@[simp] theorem setCtrl_bufLen (o : BitVec 2) (e : Endian) (i : Bool) (s : State) : (setCtrl o e i s).bufLen = s.bufLen := rfl
@[simp] theorem setCtrl_model (o : BitVec 2) (e : Endian) (i : Bool) (s : State) : (setCtrl o e i s).model = s.model := rfl
@[simp] theorem setCtrl_xbase (o : BitVec 2) (e : Endian) (i : Bool) (s : State) : (setCtrl o e i s).xbase = s.xbase := rfl
@[simp] theorem setCtrl_xivoff (o : BitVec 2) (e : Endian) (i : Bool) (s : State) : (setCtrl o e i s).xivoff = s.xivoff := rfl
@[simp] theorem setCtrl_xstart (o : BitVec 2) (e : Endian) (i : Bool) (s : State) : (setCtrl o e i s).xstart = s.xstart := rfl
@[simp] theorem setCtrl_xlen (o : BitVec 2) (e : Endian) (i : Bool) (s : State) : (setCtrl o e i s).xlen = s.xlen := rfl
@[simp] theorem setCtrl_errIn (o : BitVec 2) (e : Endian) (i : Bool) (s : State) : (setCtrl o e i s).errIn = s.errIn := rfl
@[simp] theorem setCtrl_errOut (o : BitVec 2) (e : Endian) (i : Bool) (s : State) : (setCtrl o e i s).errOut = s.errOut := rfl
@[simp] theorem setCtrl_errVal (o : BitVec 2) (e : Endian) (i : Bool) (s : State) : (setCtrl o e i s).errVal = s.errVal := rfl
@[simp] theorem setCtrl_key (o : BitVec 2) (e : Endian) (i : Bool) (s : State) : (setCtrl o e i s).key = s.key := rfl
@[simp] theorem setCtrl_ic (o : BitVec 2) (e : Endian) (i : Bool) (s : State) : (setCtrl o e i s).ic = s.ic := rfl
@[simp] theorem setCtrl_oc (o : BitVec 2) (e : Endian) (i : Bool) (s : State) : (setCtrl o e i s).oc = s.oc := rfl
@[simp] theorem setCtrl_bstart (o : BitVec 2) (e : Endian) (i : Bool) (s : State) : (setCtrl o e i s).bstart = s.bstart := rfl
@[simp] theorem setCtrl_blen (o : BitVec 2) (e : Endian) (i : Bool) (s : State) : (setCtrl o e i s).blen = s.blen := rfl
@[simp] theorem setCtrl_bend (o : BitVec 2) (e : Endian) (i : Bool) (s : State) : (setCtrl o e i s).bend = s.bend := rfl
@[simp] theorem setCtrl_rawn (o : BitVec 2) (e : Endian) (i : Bool) (s : State) : (setCtrl o e i s).rawn = s.rawn := rfl
@[simp] theorem setCtrl_mask (o : BitVec 2) (e : Endian) (i : Bool) (s : State) : (setCtrl o e i s).mask = s.mask := rfl
@[simp] theorem setCtrl_sel (o : BitVec 2) (e : Endian) (i : Bool) (s : State) : (setCtrl o e i s).sel = s.sel := rfl
@[simp] theorem setCtrl_phase (o : BitVec 2) (e : Endian) (i : Bool) (s : State) : (setCtrl o e i s).phase = s.phase := rfl
@[simp] theorem setCtrl_buf (o : BitVec 2) (e : Endian) (i : Bool) (s : State) : (setCtrl o e i s).buf = s.buf := rfl
@[simp] theorem setCtrl_out (o : BitVec 2) (e : Endian) (i : Bool) (s : State) : (setCtrl o e i s).out = s.out := rfl
@[simp] theorem setCtrl_work (o : BitVec 2) (e : Endian) (i : Bool) (s : State) : (setCtrl o e i s).work = s.work := rfl
@[simp] theorem setCtrl_draws (o : BitVec 2) (e : Endian) (i : Bool) (s : State) : (setCtrl o e i s).draws = s.draws := rfl
@[simp] theorem setCtrl_pending (o : BitVec 2) (e : Endian) (i : Bool) (s : State) : (setCtrl o e i s).pending = s.pending := rfl
@[simp] theorem setCtrl_rdData (o : BitVec 2) (e : Endian) (i : Bool) (s : State) : (setCtrl o e i s).rdData = s.rdData := rfl
@[simp] theorem setCtrl_memData (o : BitVec 2) (e : Endian) (i : Bool) (s : State) : (setCtrl o e i s).memData = s.memData := rfl

@[simp] theorem startCommand_op (s : State) : (startCommand s).op = s.op := rfl
@[simp] theorem startCommand_endian (s : State) : (startCommand s).endian = s.endian := rfl
@[simp] theorem startCommand_ie (s : State) : (startCommand s).ie = s.ie := rfl
@[simp] theorem startCommand_done (s : State) : (startCommand s).done = false := rfl
@[simp] theorem startCommand_err (s : State) : (startCommand s).err = false := rfl
@[simp] theorem startCommand_errCode (s : State) : (startCommand s).errCode = 0 := rfl
@[simp] theorem startCommand_bufLen (s : State) : (startCommand s).bufLen = s.bufLen := rfl
@[simp] theorem startCommand_model (s : State) : (startCommand s).model = s.model := rfl
@[simp] theorem startCommand_xbase (s : State) : (startCommand s).xbase = s.xbase := rfl
@[simp] theorem startCommand_xivoff (s : State) : (startCommand s).xivoff = s.xivoff := rfl
@[simp] theorem startCommand_xstart (s : State) : (startCommand s).xstart = s.xstart := rfl
@[simp] theorem startCommand_xlen (s : State) : (startCommand s).xlen = s.xlen := rfl
@[simp] theorem startCommand_errIn (s : State) : (startCommand s).errIn = 0 := rfl
@[simp] theorem startCommand_errOut (s : State) : (startCommand s).errOut = 0 := rfl
@[simp] theorem startCommand_errVal (s : State) : (startCommand s).errVal = 0 := rfl
@[simp] theorem startCommand_key (s : State) : (startCommand s).key = s.key := rfl
@[simp] theorem startCommand_ic (s : State) : (startCommand s).ic = 0 := rfl
@[simp] theorem startCommand_oc (s : State) : (startCommand s).oc = 0 := rfl
@[simp] theorem startCommand_bstart (s : State) : (startCommand s).bstart = s.bstart := rfl
@[simp] theorem startCommand_blen (s : State) : (startCommand s).blen = s.blen := rfl
@[simp] theorem startCommand_bend (s : State) : (startCommand s).bend = s.bend := rfl
@[simp] theorem startCommand_rawn (s : State) : (startCommand s).rawn = s.rawn := rfl
@[simp] theorem startCommand_mask (s : State) : (startCommand s).mask = s.mask := rfl
@[simp] theorem startCommand_sel (s : State) : (startCommand s).sel = s.sel := rfl
@[simp] theorem startCommand_phase (s : State) : (startCommand s).phase = .cmd := rfl
@[simp] theorem startCommand_buf (s : State) : (startCommand s).buf = s.buf := rfl
@[simp] theorem startCommand_out (s : State) : (startCommand s).out = s.out := rfl
@[simp] theorem startCommand_work (s : State) : (startCommand s).work = s.work := rfl
@[simp] theorem startCommand_draws (s : State) : (startCommand s).draws = s.draws + 1 := rfl
@[simp] theorem startCommand_pending (s : State) : (startCommand s).pending = s.pending := rfl
@[simp] theorem startCommand_rdData (s : State) : (startCommand s).rdData = s.rdData := rfl
@[simp] theorem startCommand_memData (s : State) : (startCommand s).memData = s.memData := rfl

@[simp] theorem acknowledge_op (d e : Bool) (s : State) : (acknowledge d e s).op = s.op := rfl
@[simp] theorem acknowledge_endian (d e : Bool) (s : State) : (acknowledge d e s).endian = s.endian := rfl
@[simp] theorem acknowledge_ie (d e : Bool) (s : State) : (acknowledge d e s).ie = s.ie := rfl
@[simp] theorem acknowledge_done (d e : Bool) (s : State) : (acknowledge d e s).done = if d then false else s.done := rfl
@[simp] theorem acknowledge_err (d e : Bool) (s : State) : (acknowledge d e s).err = if e then false else s.err := rfl
@[simp] theorem acknowledge_errCode (d e : Bool) (s : State) : (acknowledge d e s).errCode = if e then 0 else s.errCode := rfl
@[simp] theorem acknowledge_bufLen (d e : Bool) (s : State) : (acknowledge d e s).bufLen = s.bufLen := rfl
@[simp] theorem acknowledge_model (d e : Bool) (s : State) : (acknowledge d e s).model = s.model := rfl
@[simp] theorem acknowledge_xbase (d e : Bool) (s : State) : (acknowledge d e s).xbase = s.xbase := rfl
@[simp] theorem acknowledge_xivoff (d e : Bool) (s : State) : (acknowledge d e s).xivoff = s.xivoff := rfl
@[simp] theorem acknowledge_xstart (d e : Bool) (s : State) : (acknowledge d e s).xstart = s.xstart := rfl
@[simp] theorem acknowledge_xlen (d e : Bool) (s : State) : (acknowledge d e s).xlen = s.xlen := rfl
@[simp] theorem acknowledge_errIn (d e : Bool) (s : State) : (acknowledge d e s).errIn = s.errIn := rfl
@[simp] theorem acknowledge_errOut (d e : Bool) (s : State) : (acknowledge d e s).errOut = s.errOut := rfl
@[simp] theorem acknowledge_errVal (d e : Bool) (s : State) : (acknowledge d e s).errVal = s.errVal := rfl
@[simp] theorem acknowledge_key (d e : Bool) (s : State) : (acknowledge d e s).key = s.key := rfl
@[simp] theorem acknowledge_ic (d e : Bool) (s : State) : (acknowledge d e s).ic = s.ic := rfl
@[simp] theorem acknowledge_oc (d e : Bool) (s : State) : (acknowledge d e s).oc = s.oc := rfl
@[simp] theorem acknowledge_bstart (d e : Bool) (s : State) : (acknowledge d e s).bstart = s.bstart := rfl
@[simp] theorem acknowledge_blen (d e : Bool) (s : State) : (acknowledge d e s).blen = s.blen := rfl
@[simp] theorem acknowledge_bend (d e : Bool) (s : State) : (acknowledge d e s).bend = s.bend := rfl
@[simp] theorem acknowledge_rawn (d e : Bool) (s : State) : (acknowledge d e s).rawn = s.rawn := rfl
@[simp] theorem acknowledge_mask (d e : Bool) (s : State) : (acknowledge d e s).mask = s.mask := rfl
@[simp] theorem acknowledge_sel (d e : Bool) (s : State) : (acknowledge d e s).sel = s.sel := rfl
@[simp] theorem acknowledge_phase (d e : Bool) (s : State) : (acknowledge d e s).phase = s.phase := rfl
@[simp] theorem acknowledge_buf (d e : Bool) (s : State) : (acknowledge d e s).buf = s.buf := rfl
@[simp] theorem acknowledge_out (d e : Bool) (s : State) : (acknowledge d e s).out = s.out := rfl
@[simp] theorem acknowledge_work (d e : Bool) (s : State) : (acknowledge d e s).work = s.work := rfl
@[simp] theorem acknowledge_draws (d e : Bool) (s : State) : (acknowledge d e s).draws = s.draws := rfl
@[simp] theorem acknowledge_pending (d e : Bool) (s : State) : (acknowledge d e s).pending = s.pending := rfl
@[simp] theorem acknowledge_rdData (d e : Bool) (s : State) : (acknowledge d e s).rdData = s.rdData := rfl
@[simp] theorem acknowledge_memData (d e : Bool) (s : State) : (acknowledge d e s).memData = s.memData := rfl

@[simp] theorem enterBlock_op (n : Nat) (s : State) : (enterBlock n s).op = s.op := rfl
@[simp] theorem enterBlock_endian (n : Nat) (s : State) : (enterBlock n s).endian = s.endian := rfl
@[simp] theorem enterBlock_ie (n : Nat) (s : State) : (enterBlock n s).ie = s.ie := rfl
@[simp] theorem enterBlock_done (n : Nat) (s : State) : (enterBlock n s).done = s.done := rfl
@[simp] theorem enterBlock_err (n : Nat) (s : State) : (enterBlock n s).err = s.err := rfl
@[simp] theorem enterBlock_errCode (n : Nat) (s : State) : (enterBlock n s).errCode = s.errCode := rfl
@[simp] theorem enterBlock_bufLen (n : Nat) (s : State) : (enterBlock n s).bufLen = s.bufLen := rfl
@[simp] theorem enterBlock_model (n : Nat) (s : State) : (enterBlock n s).model = s.model := rfl
@[simp] theorem enterBlock_xbase (n : Nat) (s : State) : (enterBlock n s).xbase = s.xbase := rfl
@[simp] theorem enterBlock_xivoff (n : Nat) (s : State) : (enterBlock n s).xivoff = s.xivoff := rfl
@[simp] theorem enterBlock_xstart (n : Nat) (s : State) : (enterBlock n s).xstart = s.xstart := rfl
@[simp] theorem enterBlock_xlen (n : Nat) (s : State) : (enterBlock n s).xlen = s.xlen := rfl
@[simp] theorem enterBlock_errIn (n : Nat) (s : State) : (enterBlock n s).errIn = s.errIn := rfl
@[simp] theorem enterBlock_errOut (n : Nat) (s : State) : (enterBlock n s).errOut = s.errOut := rfl
@[simp] theorem enterBlock_errVal (n : Nat) (s : State) : (enterBlock n s).errVal = s.errVal := rfl
@[simp] theorem enterBlock_key (n : Nat) (s : State) : (enterBlock n s).key = s.key := rfl
@[simp] theorem enterBlock_ic (n : Nat) (s : State) : (enterBlock n s).ic = BitVec.ofNat 32 (s.ic.toNat + 2) := rfl
@[simp] theorem enterBlock_oc (n : Nat) (s : State) : (enterBlock n s).oc = s.oc := rfl
@[simp] theorem enterBlock_bstart (n : Nat) (s : State) : (enterBlock n s).bstart = BitVec.ofNat 32 (s.ic.toNat + 2) := rfl
@[simp] theorem enterBlock_blen (n : Nat) (s : State) : (enterBlock n s).blen = BitVec.ofNat 16 n := rfl
@[simp] theorem enterBlock_bend (n : Nat) (s : State) : (enterBlock n s).bend = s.bend := rfl
@[simp] theorem enterBlock_rawn (n : Nat) (s : State) : (enterBlock n s).rawn = s.rawn := rfl
@[simp] theorem enterBlock_mask (n : Nat) (s : State) : (enterBlock n s).mask = s.mask := rfl
@[simp] theorem enterBlock_sel (n : Nat) (s : State) : (enterBlock n s).sel = s.sel := rfl
@[simp] theorem enterBlock_phase (n : Nat) (s : State) : (enterBlock n s).phase = s.phase := rfl
@[simp] theorem enterBlock_buf (n : Nat) (s : State) : (enterBlock n s).buf = s.buf := rfl
@[simp] theorem enterBlock_out (n : Nat) (s : State) : (enterBlock n s).out = s.out := rfl
@[simp] theorem enterBlock_work (n : Nat) (s : State) : (enterBlock n s).work = s.work := rfl
@[simp] theorem enterBlock_draws (n : Nat) (s : State) : (enterBlock n s).draws = s.draws := rfl
@[simp] theorem enterBlock_pending (n : Nat) (s : State) : (enterBlock n s).pending = s.pending := rfl
@[simp] theorem enterBlock_rdData (n : Nat) (s : State) : (enterBlock n s).rdData = s.rdData := rfl
@[simp] theorem enterBlock_memData (n : Nat) (s : State) : (enterBlock n s).memData = s.memData := rfl

@[simp] theorem leaveBlock_op (s : State) : (leaveBlock s).op = s.op := rfl
@[simp] theorem leaveBlock_endian (s : State) : (leaveBlock s).endian = s.endian := rfl
@[simp] theorem leaveBlock_ie (s : State) : (leaveBlock s).ie = s.ie := rfl
@[simp] theorem leaveBlock_done (s : State) : (leaveBlock s).done = s.done := rfl
@[simp] theorem leaveBlock_err (s : State) : (leaveBlock s).err = s.err := rfl
@[simp] theorem leaveBlock_errCode (s : State) : (leaveBlock s).errCode = s.errCode := rfl
@[simp] theorem leaveBlock_bufLen (s : State) : (leaveBlock s).bufLen = s.bufLen := rfl
@[simp] theorem leaveBlock_model (s : State) : (leaveBlock s).model = s.model := rfl
@[simp] theorem leaveBlock_xbase (s : State) : (leaveBlock s).xbase = s.xbase := rfl
@[simp] theorem leaveBlock_xivoff (s : State) : (leaveBlock s).xivoff = s.xivoff := rfl
@[simp] theorem leaveBlock_xstart (s : State) : (leaveBlock s).xstart = s.xstart := rfl
@[simp] theorem leaveBlock_xlen (s : State) : (leaveBlock s).xlen = s.xlen := rfl
@[simp] theorem leaveBlock_errIn (s : State) : (leaveBlock s).errIn = s.errIn := rfl
@[simp] theorem leaveBlock_errOut (s : State) : (leaveBlock s).errOut = s.errOut := rfl
@[simp] theorem leaveBlock_errVal (s : State) : (leaveBlock s).errVal = s.errVal := rfl
@[simp] theorem leaveBlock_key (s : State) : (leaveBlock s).key = s.key := rfl
@[simp] theorem leaveBlock_ic (s : State) : (leaveBlock s).ic = BitVec.ofNat 32 (s.bstart.toNat + s.blen.toNat) := rfl
@[simp] theorem leaveBlock_oc (s : State) : (leaveBlock s).oc = s.oc := rfl
@[simp] theorem leaveBlock_bstart (s : State) : (leaveBlock s).bstart = s.bstart := rfl
@[simp] theorem leaveBlock_blen (s : State) : (leaveBlock s).blen = s.blen := rfl
@[simp] theorem leaveBlock_bend (s : State) : (leaveBlock s).bend = s.bend := rfl
@[simp] theorem leaveBlock_rawn (s : State) : (leaveBlock s).rawn = s.rawn := rfl
@[simp] theorem leaveBlock_mask (s : State) : (leaveBlock s).mask = s.mask := rfl
@[simp] theorem leaveBlock_sel (s : State) : (leaveBlock s).sel = s.sel := rfl
@[simp] theorem leaveBlock_phase (s : State) : (leaveBlock s).phase = .lHdr := rfl
@[simp] theorem leaveBlock_buf (s : State) : (leaveBlock s).buf = s.buf := rfl
@[simp] theorem leaveBlock_out (s : State) : (leaveBlock s).out = s.out := rfl
@[simp] theorem leaveBlock_work (s : State) : (leaveBlock s).work = s.work := rfl
@[simp] theorem leaveBlock_draws (s : State) : (leaveBlock s).draws = s.draws := rfl
@[simp] theorem leaveBlock_pending (s : State) : (leaveBlock s).pending = s.pending := rfl
@[simp] theorem leaveBlock_rdData (s : State) : (leaveBlock s).rdData = s.rdData := rfl
@[simp] theorem leaveBlock_memData (s : State) : (leaveBlock s).memData = s.memData := rfl

@[simp] theorem continueStep_op (w : Work) (s : State) : (continueStep w s).op = s.op := rfl
@[simp] theorem continueStep_endian (w : Work) (s : State) : (continueStep w s).endian = s.endian := rfl
@[simp] theorem continueStep_ie (w : Work) (s : State) : (continueStep w s).ie = s.ie := rfl
@[simp] theorem continueStep_done (w : Work) (s : State) : (continueStep w s).done = s.done := rfl
@[simp] theorem continueStep_err (w : Work) (s : State) : (continueStep w s).err = s.err := rfl
@[simp] theorem continueStep_errCode (w : Work) (s : State) : (continueStep w s).errCode = s.errCode := rfl
@[simp] theorem continueStep_bufLen (w : Work) (s : State) : (continueStep w s).bufLen = s.bufLen := rfl
@[simp] theorem continueStep_model (w : Work) (s : State) : (continueStep w s).model = s.model := rfl
@[simp] theorem continueStep_xbase (w : Work) (s : State) : (continueStep w s).xbase = s.xbase := rfl
@[simp] theorem continueStep_xivoff (w : Work) (s : State) : (continueStep w s).xivoff = s.xivoff := rfl
@[simp] theorem continueStep_xstart (w : Work) (s : State) : (continueStep w s).xstart = s.xstart := rfl
@[simp] theorem continueStep_xlen (w : Work) (s : State) : (continueStep w s).xlen = s.xlen := rfl
@[simp] theorem continueStep_errIn (w : Work) (s : State) : (continueStep w s).errIn = s.errIn := rfl
@[simp] theorem continueStep_errOut (w : Work) (s : State) : (continueStep w s).errOut = s.errOut := rfl
@[simp] theorem continueStep_errVal (w : Work) (s : State) : (continueStep w s).errVal = s.errVal := rfl
@[simp] theorem continueStep_key (w : Work) (s : State) : (continueStep w s).key = s.key := rfl
@[simp] theorem continueStep_ic (w : Work) (s : State) : (continueStep w s).ic = s.ic := rfl
@[simp] theorem continueStep_oc (w : Work) (s : State) : (continueStep w s).oc = s.oc := rfl
@[simp] theorem continueStep_bstart (w : Work) (s : State) : (continueStep w s).bstart = s.bstart := rfl
@[simp] theorem continueStep_blen (w : Work) (s : State) : (continueStep w s).blen = s.blen := rfl
@[simp] theorem continueStep_bend (w : Work) (s : State) : (continueStep w s).bend = s.bend := rfl
@[simp] theorem continueStep_rawn (w : Work) (s : State) : (continueStep w s).rawn = s.rawn := rfl
@[simp] theorem continueStep_mask (w : Work) (s : State) : (continueStep w s).mask = s.mask := rfl
@[simp] theorem continueStep_sel (w : Work) (s : State) : (continueStep w s).sel = s.sel := rfl
@[simp] theorem continueStep_phase (w : Work) (s : State) : (continueStep w s).phase = s.phase := rfl
@[simp] theorem continueStep_buf (w : Work) (s : State) : (continueStep w s).buf = s.buf := rfl
@[simp] theorem continueStep_out (w : Work) (s : State) : (continueStep w s).out = s.out := rfl
@[simp] theorem continueStep_work (w : Work) (s : State) : (continueStep w s).work = some w := rfl
@[simp] theorem continueStep_draws (w : Work) (s : State) : (continueStep w s).draws = s.draws := rfl
@[simp] theorem continueStep_pending (w : Work) (s : State) : (continueStep w s).pending = s.pending := rfl
@[simp] theorem continueStep_rdData (w : Work) (s : State) : (continueStep w s).rdData = s.rdData := rfl
@[simp] theorem continueStep_memData (w : Work) (s : State) : (continueStep w s).memData = s.memData := rfl

@[simp] theorem commitToken_op (w : Work) (s : State) : (commitToken w s).op = s.op := rfl
@[simp] theorem commitToken_endian (w : Work) (s : State) : (commitToken w s).endian = s.endian := rfl
@[simp] theorem commitToken_ie (w : Work) (s : State) : (commitToken w s).ie = s.ie := rfl
@[simp] theorem commitToken_done (w : Work) (s : State) : (commitToken w s).done = s.done := rfl
@[simp] theorem commitToken_err (w : Work) (s : State) : (commitToken w s).err = s.err := rfl
@[simp] theorem commitToken_errCode (w : Work) (s : State) : (commitToken w s).errCode = s.errCode := rfl
@[simp] theorem commitToken_bufLen (w : Work) (s : State) : (commitToken w s).bufLen = s.bufLen := rfl
@[simp] theorem commitToken_model (w : Work) (s : State) : (commitToken w s).model = s.model := rfl
@[simp] theorem commitToken_xbase (w : Work) (s : State) : (commitToken w s).xbase = s.xbase := rfl
@[simp] theorem commitToken_xivoff (w : Work) (s : State) : (commitToken w s).xivoff = s.xivoff := rfl
@[simp] theorem commitToken_xstart (w : Work) (s : State) : (commitToken w s).xstart = s.xstart := rfl
@[simp] theorem commitToken_xlen (w : Work) (s : State) : (commitToken w s).xlen = s.xlen := rfl
@[simp] theorem commitToken_errIn (w : Work) (s : State) : (commitToken w s).errIn = s.errIn := rfl
@[simp] theorem commitToken_errOut (w : Work) (s : State) : (commitToken w s).errOut = s.errOut := rfl
@[simp] theorem commitToken_errVal (w : Work) (s : State) : (commitToken w s).errVal = s.errVal := rfl
@[simp] theorem commitToken_key (w : Work) (s : State) : (commitToken w s).key = s.key := rfl
@[simp] theorem commitToken_ic (w : Work) (s : State) : (commitToken w s).ic = BitVec.ofNat 32 w.p := rfl
@[simp] theorem commitToken_oc (w : Work) (s : State) : (commitToken w s).oc = s.oc := rfl
@[simp] theorem commitToken_bstart (w : Work) (s : State) : (commitToken w s).bstart = s.bstart := rfl
@[simp] theorem commitToken_blen (w : Work) (s : State) : (commitToken w s).blen = s.blen := rfl
@[simp] theorem commitToken_bend (w : Work) (s : State) : (commitToken w s).bend = s.bend := rfl
@[simp] theorem commitToken_rawn (w : Work) (s : State) : (commitToken w s).rawn = s.rawn := rfl
@[simp] theorem commitToken_mask (w : Work) (s : State) : (commitToken w s).mask = w.m := rfl
@[simp] theorem commitToken_sel (w : Work) (s : State) : (commitToken w s).sel = w.s >>> 1 := rfl
@[simp] theorem commitToken_phase (w : Work) (s : State) : (commitToken w s).phase = if BitVec.ofNat 32 w.p = s.bend then .lTrl else s.phase := rfl
@[simp] theorem commitToken_buf (w : Work) (s : State) : (commitToken w s).buf = s.buf := rfl
@[simp] theorem commitToken_out (w : Work) (s : State) : (commitToken w s).out = s.out := rfl
@[simp] theorem commitToken_work (w : Work) (s : State) : (commitToken w s).work = none := rfl
@[simp] theorem commitToken_draws (w : Work) (s : State) : (commitToken w s).draws = s.draws := rfl
@[simp] theorem commitToken_pending (w : Work) (s : State) : (commitToken w s).pending = s.pending := rfl
@[simp] theorem commitToken_rdData (w : Work) (s : State) : (commitToken w s).rdData = s.rdData := rfl
@[simp] theorem commitToken_memData (w : Work) (s : State) : (commitToken w s).memData = s.memData := rfl

@[simp] theorem emit_op (bs : List Byte) (s : State) : (emit bs s).op = s.op := rfl
@[simp] theorem emit_endian (bs : List Byte) (s : State) : (emit bs s).endian = s.endian := rfl
@[simp] theorem emit_ie (bs : List Byte) (s : State) : (emit bs s).ie = s.ie := rfl
@[simp] theorem emit_done (bs : List Byte) (s : State) : (emit bs s).done = s.done := rfl
@[simp] theorem emit_err (bs : List Byte) (s : State) : (emit bs s).err = s.err := rfl
@[simp] theorem emit_errCode (bs : List Byte) (s : State) : (emit bs s).errCode = s.errCode := rfl
@[simp] theorem emit_bufLen (bs : List Byte) (s : State) : (emit bs s).bufLen = s.bufLen := rfl
@[simp] theorem emit_model (bs : List Byte) (s : State) : (emit bs s).model = s.model := rfl
@[simp] theorem emit_xbase (bs : List Byte) (s : State) : (emit bs s).xbase = s.xbase := rfl
@[simp] theorem emit_xivoff (bs : List Byte) (s : State) : (emit bs s).xivoff = s.xivoff := rfl
@[simp] theorem emit_xstart (bs : List Byte) (s : State) : (emit bs s).xstart = s.xstart := rfl
@[simp] theorem emit_xlen (bs : List Byte) (s : State) : (emit bs s).xlen = s.xlen := rfl
@[simp] theorem emit_errIn (bs : List Byte) (s : State) : (emit bs s).errIn = s.errIn := rfl
@[simp] theorem emit_errOut (bs : List Byte) (s : State) : (emit bs s).errOut = s.errOut := rfl
@[simp] theorem emit_errVal (bs : List Byte) (s : State) : (emit bs s).errVal = s.errVal := rfl
@[simp] theorem emit_key (bs : List Byte) (s : State) : (emit bs s).key = s.key := rfl
@[simp] theorem emit_ic (bs : List Byte) (s : State) : (emit bs s).ic = s.ic := rfl
@[simp] theorem emit_oc (bs : List Byte) (s : State) : (emit bs s).oc = BitVec.ofNat 32 (s.oc.toNat + bs.length) := rfl
@[simp] theorem emit_bstart (bs : List Byte) (s : State) : (emit bs s).bstart = s.bstart := rfl
@[simp] theorem emit_blen (bs : List Byte) (s : State) : (emit bs s).blen = s.blen := rfl
@[simp] theorem emit_bend (bs : List Byte) (s : State) : (emit bs s).bend = s.bend := rfl
@[simp] theorem emit_rawn (bs : List Byte) (s : State) : (emit bs s).rawn = s.rawn := rfl
@[simp] theorem emit_mask (bs : List Byte) (s : State) : (emit bs s).mask = s.mask := rfl
@[simp] theorem emit_sel (bs : List Byte) (s : State) : (emit bs s).sel = s.sel := rfl
@[simp] theorem emit_phase (bs : List Byte) (s : State) : (emit bs s).phase = s.phase := rfl
@[simp] theorem emit_buf (bs : List Byte) (s : State) : (emit bs s).buf = s.buf := rfl
@[simp] theorem emit_out (bs : List Byte) (s : State) : (emit bs s).out = storeBytes s.out s.oc.toNat bs := rfl
@[simp] theorem emit_work (bs : List Byte) (s : State) : (emit bs s).work = s.work := rfl
@[simp] theorem emit_draws (bs : List Byte) (s : State) : (emit bs s).draws = s.draws := rfl
@[simp] theorem emit_pending (bs : List Byte) (s : State) : (emit bs s).pending = s.pending := rfl
@[simp] theorem emit_rdData (bs : List Byte) (s : State) : (emit bs s).rdData = s.rdData := rfl
@[simp] theorem emit_memData (bs : List Byte) (s : State) : (emit bs s).memData = s.memData := rfl

end Sys2Proof.Machine
end

