-- ==== Sys2Proof/Laws/Ops.lean ====
section
/-! SUPPORT. What each shared operation can do, said once. -/

namespace Sys2Proof.Machine

/-! ### Reading and storing bytes -/

@[simp] theorem length_bufBytes (s : State) (a n : Nat) : (bufBytes s a n).length = n := by
  induction n generalizing a with
  | zero => rfl
  | succ n ih => simp [bufBytes, ih]

@[simp] theorem length_outBytes (s : State) (a n : Nat) : (outBytes s a n).length = n := by
  induction n generalizing a with
  | zero => rfl
  | succ n ih => simp [outBytes, ih]

theorem getElem?_bufBytes (s : State) (a n k : Nat) (h : k < n) : (bufBytes s a n)[k]? = some (bufByte s (a + k)) := by
  induction n generalizing a k with
  | zero => omega
  | succ n ih =>
    cases k with
    | zero => rfl
    | succ k =>
      have e : a + (k + 1) = a + 1 + k := by omega
      simp [bufBytes, ih (a + 1) k (by omega), e]

theorem getElem?_outBytes (s : State) (a n k : Nat) (h : k < n) : (outBytes s a n)[k]? = some (outByte s (a + k)) := by
  induction n generalizing a k with
  | zero => omega
  | succ n ih =>
    cases k with
    | zero => rfl
    | succ k =>
      have e : a + (k + 1) = a + 1 + k := by omega
      simp [outBytes, ih (a + 1) k (by omega), e]

/-- A read depends on the memory and the draw counter alone. -/
theorem bufBytes_congr {s t : State} (hb : s.buf = t.buf) (hd : s.draws = t.draws) (a n : Nat) :
    bufBytes s a n = bufBytes t a n := by
  induction n generalizing a with
  | zero => rfl
  | succ n ih => simp only [bufBytes, ih, bufByte, hb, hd]

theorem outBytes_congr {s t : State} (ho : s.out = t.out) (hd : s.draws = t.draws) (a n : Nat) :
    outBytes s a n = outBytes t a n := by
  induction n generalizing a with
  | zero => rfl
  | succ n ih => simp only [outBytes, ih, outByte, ho, hd]

/-- The byte stored at an offset is what reading it gives. -/
theorem bufByte_of_some {s : State} {a : Nat} {b : Byte} (h : readCell s.buf a = some b) : bufByte s a = b := by
  simp [bufByte, h]

theorem outByte_of_some {s : State} {a : Nat} {b : Byte} (h : readCell s.out a = some b) : outByte s a = b := by
  simp [outByte, h]

theorem emit_eq (bs : List Byte) (s : State) :
    emit bs s =
      { s with out := storeBytes s.out s.oc.toNat bs, oc := BitVec.ofNat 32 (s.oc.toNat + bs.length) } := rfl

/-- A copy changes OUT and OC only. -/
theorem copyLoop_eq (off : Nat) (s : State) (k : Nat) :
    copyLoop off s k = { s with out := (copyLoop off s k).out, oc := (copyLoop off s k).oc } := by
  induction k with
  | zero => rfl
  | succ k ih =>
    have h : copyLoop off s (k + 1) =
        emit [outByte (copyLoop off s k) ((copyLoop off s k).oc.toNat - off)] (copyLoop off s k) := rfl
    rw [h, ih]
    rfl

/-- OC advances by the length of the copy. -/
theorem copyLoop_oc (off : Nat) (s : State) (k : Nat) (h : s.oc.toNat + k < 2 ^ 32) :
    (copyLoop off s k).oc.toNat = s.oc.toNat + k := by
  induction k with
  | zero => rfl
  | succ k ih =>
    have e := ih (by omega)
    have h' : (copyLoop off s (k + 1)).oc = BitVec.ofNat 32 ((copyLoop off s k).oc.toNat + 1) := rfl
    rw [h', BitVec.toNat_ofNat, e]
    omega

/-- Reading OUT after one more byte of a copy. -/
theorem readCell_copyLoop_succ (off : Nat) (s : State) (k x : Nat) :
    readCell (copyLoop off s (k + 1)).out x =
      if x = (copyLoop off s k).oc.toNat then
        some (outByte (copyLoop off s k) ((copyLoop off s k).oc.toNat - off))
      else readCell (copyLoop off s k).out x := by
  have h : (copyLoop off s (k + 1)).out =
      storeBytes (copyLoop off s k).out (copyLoop off s k).oc.toNat
        [outByte (copyLoop off s k) ((copyLoop off s k).oc.toNat - off)] := rfl
  rw [h, readCell_storeBytes]
  by_cases hx : x = (copyLoop off s k).oc.toNat
  · subst hx
    simp
  · rw [if_neg (by simp only [List.length_singleton]; omega), if_neg hx]

/-- A copy changes no byte of OUT outside the ones it produces. -/
theorem readCell_copyLoop_of_not_mem (off : Nat) (s : State) (k x : Nat) (hb : s.oc.toNat + k < 2 ^ 32)
    (hx : x < s.oc.toNat ∨ s.oc.toNat + k ≤ x) : readCell (copyLoop off s k).out x = readCell s.out x := by
  induction k with
  | zero => rfl
  | succ k ih =>
    have e := copyLoop_oc off s k (by omega)
    rw [readCell_copyLoop_succ, if_neg (by omega), ih (by omega) (by omega)]

theorem memoryWf_copyLoop (off : Nat) (s : State) (k : Nat) (h : memoryWf s.out = true) :
    memoryWf (copyLoop off s k).out = true := by
  induction k with
  | zero => exact h
  | succ k ih => exact memoryWf_storeBytes _ _ _ ih

/-! ### Host command words -/

/-- Everything a CTRL write can do. -/
theorem writeCtrl_cases (start : Bool) (op : BitVec 2) (endian : Endian) (ie : Bool) (s : State) :
    (s.busy = true ∧ writeCtrl start op endian ie s = { s with ie := ie }) ∨
    (s.busy = false ∧ start = true ∧ writeCtrl start op endian ie s = startCommand (setCtrl op endian ie s)) ∨
    (s.busy = false ∧ start = false ∧ writeCtrl start op endian ie s = setCtrl op endian ie s) := by
  unfold writeCtrl
  cases s.busy <;> cases start <;> simp

/-! ### Block headers -/

/-- Everything a header element can do. -/
theorem withHeader_cases (k : State → State) (s : State) :
    (s.ic.toNat + 2 ≤ s.bufLen.toNat ∧ withHeader k s = .next (k s)) ∨
    (s.bufLen.toNat < s.ic.toNat + 2 ∧ withHeader k s = fault .outOfBounds s.ic.toNat 2 s) := by
  by_cases h : s.ic.toNat + 2 ≤ s.bufLen.toNat
  · exact .inl ⟨h, by simp [withHeader, headerInBounds, h]⟩
  · exact .inr ⟨by omega, by simp [withHeader, headerInBounds, h]⟩

/-- Everything a raw block's header can do. -/
theorem openRaw_cases (cfg : Config) (len n : Nat) (s : State) :
    (len + cfg.margin ≤ s.bufLen.toNat - (s.ic.toNat + 2) ∧
      openRaw cfg len n s = { enterBlock len s with rawn := BitVec.ofNat 16 n, phase := .lRaw }) ∨
    (s.bufLen.toNat - (s.ic.toNat + 2) < len + cfg.margin ∧
      openRaw cfg len n s = raiseFault .incompleteBlock s.ic.toNat len s) := by
  by_cases h : len + cfg.margin ≤ s.bufLen.toNat - (s.ic.toNat + 2)
  · exact .inl ⟨h, by simp [openRaw, blockFits, h]⟩
  · exact .inr ⟨by omega, by simp [openRaw, blockFits, h]⟩

/-- Everything a token block's header can do. -/
theorem openTokens_cases (cfg : Config) (len : Nat) (s : State) :
    (len + cfg.margin ≤ s.bufLen.toNat - (s.ic.toNat + 2) ∧ 2 ≤ len ∧
      openTokens cfg len s =
        { enterBlock len s with
          bend := BitVec.ofNat 32 (s.ic.toNat + 2 + len - 2), mask := 0, sel := 0,
          phase := if len = 2 then .lTrl else .lTok }) ∨
    (len + cfg.margin ≤ s.bufLen.toNat - (s.ic.toNat + 2) ∧ len < 2 ∧
      openTokens cfg len s = raiseFault .missingBlockTrailer s.ic.toNat len s) ∨
    (s.bufLen.toNat - (s.ic.toNat + 2) < len + cfg.margin ∧
      openTokens cfg len s = raiseFault .incompleteBlock s.ic.toNat len s) := by
  by_cases h : len + cfg.margin ≤ s.bufLen.toNat - (s.ic.toNat + 2)
  · by_cases h2 : len < 2
    · exact .inr (.inl ⟨h, h2, by simp [openTokens, blockFits, h, h2]⟩)
    · exact .inl ⟨h, by omega, by simp [openTokens, blockFits, h, h2]⟩
  · exact .inr (.inr ⟨by omega, by simp [openTokens, blockFits, h]⟩)

/-! ### The token step -/

theorem cursor_of_none {s : State} (h : s.work = none) :
    s.cursor = { p := s.ic.toNat, m := s.mask, s := s.sel, copy := none } := by simp [State.cursor, h]

theorem cursor_of_some {s : State} {w : Work} (h : s.work = some w) : s.cursor = w := by simp [State.cursor, h]

/-- Everything a complete copy token can do. -/
theorem finishCopy_cases (cfg : Config) (w : Work) (c : PendingCopy) (s : State) :
    (c.off = 0 ∧ finishCopy cfg w c s = raiseFault .zeroOffsetCopy c.t c.len s) ∨
    (c.off ≠ 0 ∧ s.oc.toNat < c.off.toNat ∧
      finishCopy cfg w c s = raiseFault .offsetBeforeStart c.t c.off.toNat s) ∨
    (c.off ≠ 0 ∧ c.off.toNat ≤ s.oc.toNat ∧ cfg.outCap < s.oc.toNat + c.len ∧
      finishCopy cfg w c s = raiseFault .outputCapacityExceeded c.t c.len s) ∨
    (c.off ≠ 0 ∧ c.off.toNat ≤ s.oc.toNat ∧ s.oc.toNat + c.len ≤ cfg.outCap ∧
      finishCopy cfg w c s = commitToken w (redraw (copyLoop c.off.toNat s c.len))) := by
  unfold finishCopy
  by_cases h0 : c.off = 0
  · exact .inl ⟨h0, by simp [h0]⟩
  · by_cases h1 : s.oc.toNat < c.off.toNat
    · exact .inr (.inl ⟨h0, h1, by rw [if_neg h0, if_pos h1]⟩)
    · by_cases h2 : s.oc.toNat + c.len ≤ cfg.outCap
      · exact .inr (.inr (.inr ⟨h0, by omega, h2, by rw [if_neg h0, if_neg h1, if_neg (by simp [outRoom, h2])]⟩))
      · exact .inr (.inr (.inl ⟨h0, by omega, by omega, by rw [if_neg h0, if_neg h1, if_pos (by simp [outRoom, h2])]⟩))

/-- Everything the two bytes of a copy token can do. -/
theorem copyToken_cases (cfg : Config) (ohi : BitVec 3) (lf : BitVec 5) (olo : Byte) (s : State) :
    (s.bend.toNat < s.cursor.p + 2 ∧ copyToken cfg ohi lf olo s = incomplete s.cursor.p s) ∨
    (s.cursor.p + 2 ≤ s.bend.toNat ∧ copyLength cfg lf = cfg.escLen ∧
      copyToken cfg ohi lf olo s =
        .next (continueStep
          { s.cursor with
            p := s.cursor.p + 2,
            copy := some { t := s.cursor.p, len := copyLength cfg lf, off := copyOffset ohi olo } } s)) ∨
    (s.cursor.p + 2 ≤ s.bend.toNat ∧ copyLength cfg lf ≠ cfg.escLen ∧
      copyToken cfg ohi lf olo s =
        .next (finishCopy cfg { s.cursor with p := s.cursor.p + 2 }
          { t := s.cursor.p, len := copyLength cfg lf, off := copyOffset ohi olo } s)) := by
  unfold copyToken
  by_cases h : s.cursor.p + 2 ≤ s.bend.toNat
  · by_cases h1 : copyLength cfg lf = cfg.escLen
    · exact .inr (.inl ⟨h, h1, by simp [need, h, h1]⟩)
    · exact .inr (.inr ⟨h, h1, by simp [need, h, h1]⟩)
  · exact .inl ⟨by omega, by simp [need, h]⟩

/-! ### The engine -/

/-- The meanings of the dispatch are those of the engine's own instructions, at the hardware's configuration. -/
@[simp] theorem run_hw (i : Instr) (s : State) : run Config.hw i s = exec i s := by cases i <;> rfl

/-- Fetching from bytes that may be read gives an element the context admits. -/
theorem elementStep_of_allowed {cfg : Config} {s : State} {c : Ctx} {a n : Nat} {i : Instr}
    (h : fetchAllowed s c a = true) (hd : fetchDecode cfg s c a = .ok i n) : elementStep cfg s c a = run cfg i s := by
  simp [elementStep, h, hd]

theorem elementStep_of_not_allowed {cfg : Config} {s : State} {c : Ctx} {a : Nat} (h : fetchAllowed s c a = false) :
    elementStep cfg s c a = fetchFault s a := by
  simp [elementStep, h]

/-- One turn of the token loop. -/
theorem tokenLoop_succ (cfg : Config) (n : Nat) (s t : State) (h : tokenElement cfg s = .next t) :
    tokenLoop cfg (n + 1) s = if t.work.isSome then tokenLoop cfg n t else .next t := by
  simp [tokenLoop, h]

/-- The step of the host's interface is the step relation at the hardware's configuration. -/
theorem step_eq (s : State) : step s = stepWith Config.hw s := rfl

/-- With no host action pending a step is an engine step. -/
theorem stepWith_of_no_pending {cfg : Config} {s : State} (h : s.pending = []) : stepWith cfg s = engineStep cfg s := by
  simp [stepWith, advance, h]

/-- A pending host action is taken from the list and happens. -/
theorem stepWith_of_pending {cfg : Config} {s : State} {op : HostOp} {rest : List HostOp} (h : s.pending = op :: rest) :
    stepWith cfg s = hostStep cfg op { s with pending := rest } := by
  simp [stepWith, advance, h]

theorem step_of_no_pending {s : State} (h : s.pending = []) : step s = engineStep Config.hw s :=
  stepWith_of_no_pending h

theorem step_of_pending {s : State} {op : HostOp} {rest : List HostOp} (h : s.pending = op :: rest) :
    step s = hostStep Config.hw op { s with pending := rest } := stepWith_of_pending h

/-- The memories of the reset state have the canonical form. -/
theorem reset_memories_wf : memoryWf State.reset.buf = true ∧ memoryWf State.reset.out = true := by decide

end Sys2Proof.Machine
end

