-- ==== Sys2Proof/Laws/Xke.lean ====
section
/-! SUPPORT. The bytes of an XOR block (41_xke_keystream.md R111). -/

namespace Sys2Proof.Machine

theorem length_xorWord (s : State) (i : Fin 32) : (xorWord s i).length = 4 := by
  unfold xorWord wordBytes
  cases s.endian <;> rfl

theorem xorBlock_withBufCap (cap : Word) (s : State) :
    xorBlock (Config.withBufCap cap) s = (List.finRange 32).flatMap (xorWord s) := rfl

theorem length_xorBlock (cap : Word) (s : State) : (xorBlock (Config.withBufCap cap) s).length = 0x80 := by
  simp [xorBlock_withBufCap, List.length_flatMap, length_xorWord]

theorem getElem?_flatMap_of_length_four {α β : Type} (f : α → List β) (h : ∀ a, (f a).length = 4) (l : List α)
    (i k : Nat) (hk : k < 4) : (l.flatMap f)[4 * i + k]? = (l[i]?).bind fun a => (f a)[k]? := by
  induction l generalizing i with
  | nil => simp
  | cons a l ih =>
    rw [List.flatMap_cons, List.getElem?_append]
    cases i with
    | zero => simp [h, hk]
    | succ i =>
      rw [if_neg (by rw [h]; omega), h, show 4 * (i + 1) + k - 4 = 4 * i + k by omega, ih, List.getElem?_cons_succ]

/-- Byte 4 i + k of the block is byte k of its word i. -/
theorem getElem?_xorBlock (cap : Word) (s : State) (i : Fin 32) (k : Nat) (hk : k < 4) :
    (xorBlock (Config.withBufCap cap) s)[4 * i.val + k]? = (xorWord s i)[k]? := by
  rw [xorBlock_withBufCap, getElem?_flatMap_of_length_four _ (length_xorWord s) _ _ _ hk]
  simp

end Sys2Proof.Machine
end

