-- ==== Sys2Proof/Laws/Engine.lean ====
section
/-! SUPPORT. Everything a token element, a whole token step and a header or trailer step can do. -/

namespace Sys2Proof.Machine

variable {cap : Word}

/-- What producing output does: OUT and OC only (and the draw counter), OUT unchanged outside the new bytes. -/
structure Emitted (s t : State) : Prop where
  eq : t = { s with out := t.out, oc := t.oc, draws := t.draws }
  le : s.oc.toNat ≤ t.oc.toNat
  cap : t.oc.toNat ≤ 0x2000000
  wf : memoryWf s.out = true → memoryWf t.out = true
  below : memoryBelow s.out 0x2000000 = true → memoryBelow t.out 0x2000000 = true
  frame : ∀ a, a < s.oc.toNat ∨ t.oc.toNat ≤ a → readCell t.out a = readCell s.out a
  valued : ∀ a, s.oc.toNat ≤ a → a < t.oc.toNat → (readCell t.out a).isSome = true

theorem emitted_emit (bs : List Byte) (s : State) (h : s.oc.toNat + bs.length ≤ 0x2000000) :
    Emitted s (emit bs s) := by
  have e : (emit bs s).oc.toNat = s.oc.toNat + bs.length := by
    rw [emit_oc, BitVec.toNat_ofNat]
    omega
  refine ⟨rfl, by omega, by omega, fun hw => memoryWf_storeBytes _ _ _ hw,
    fun hb => memoryBelow_storeBytes _ _ _ _ hb h, fun a ha => ?_, fun a h1 h2 => ?_⟩
  · rw [emit_out]
    exact readCell_storeBytes_of_not_mem _ _ _ _ (by omega)
  · rw [emit_out, readCell_storeBytes, if_pos (by omega), List.getElem?_eq_getElem (by omega)]
    rfl

theorem Emitted.trans {s t u : State} (h1 : Emitted s t) (h2 : Emitted t u) : Emitted s u := by
  have l1 := h1.le
  have l2 := h2.le
  refine ⟨?_, by omega, h2.cap, fun h => h2.wf (h1.wf h), fun h => h2.below (h1.below h), fun a ha => ?_,
    fun a ha hb => ?_⟩
  · have e2 := h2.eq
    rw [h1.eq] at e2
    exact e2
  · rw [h2.frame a (by omega), h1.frame a (by omega)]
  · by_cases hc : a < t.oc.toNat
    · rw [h2.frame a (.inl hc)]
      exact h1.valued a ha hc
    · exact h2.valued a (by omega) hb

/-! What producing output leaves as it is. -/

theorem Emitted.op_eq {s t : State} (h : Emitted s t) : t.op = s.op := (congrArg State.op h.eq).trans rfl
theorem Emitted.endian_eq {s t : State} (h : Emitted s t) : t.endian = s.endian := (congrArg State.endian h.eq).trans rfl
theorem Emitted.ie_eq {s t : State} (h : Emitted s t) : t.ie = s.ie := (congrArg State.ie h.eq).trans rfl
theorem Emitted.done_eq {s t : State} (h : Emitted s t) : t.done = s.done := (congrArg State.done h.eq).trans rfl
theorem Emitted.err_eq {s t : State} (h : Emitted s t) : t.err = s.err := (congrArg State.err h.eq).trans rfl
theorem Emitted.errCode_eq {s t : State} (h : Emitted s t) : t.errCode = s.errCode := (congrArg State.errCode h.eq).trans rfl
theorem Emitted.bufLen_eq {s t : State} (h : Emitted s t) : t.bufLen = s.bufLen := (congrArg State.bufLen h.eq).trans rfl
theorem Emitted.model_eq {s t : State} (h : Emitted s t) : t.model = s.model := (congrArg State.model h.eq).trans rfl
theorem Emitted.xbase_eq {s t : State} (h : Emitted s t) : t.xbase = s.xbase := (congrArg State.xbase h.eq).trans rfl
theorem Emitted.xivoff_eq {s t : State} (h : Emitted s t) : t.xivoff = s.xivoff := (congrArg State.xivoff h.eq).trans rfl
theorem Emitted.xstart_eq {s t : State} (h : Emitted s t) : t.xstart = s.xstart := (congrArg State.xstart h.eq).trans rfl
theorem Emitted.xlen_eq {s t : State} (h : Emitted s t) : t.xlen = s.xlen := (congrArg State.xlen h.eq).trans rfl
theorem Emitted.errIn_eq {s t : State} (h : Emitted s t) : t.errIn = s.errIn := (congrArg State.errIn h.eq).trans rfl
theorem Emitted.errOut_eq {s t : State} (h : Emitted s t) : t.errOut = s.errOut := (congrArg State.errOut h.eq).trans rfl
theorem Emitted.errVal_eq {s t : State} (h : Emitted s t) : t.errVal = s.errVal := (congrArg State.errVal h.eq).trans rfl
theorem Emitted.key_eq {s t : State} (h : Emitted s t) : t.key = s.key := (congrArg State.key h.eq).trans rfl
theorem Emitted.ic_eq {s t : State} (h : Emitted s t) : t.ic = s.ic := (congrArg State.ic h.eq).trans rfl
theorem Emitted.bstart_eq {s t : State} (h : Emitted s t) : t.bstart = s.bstart := (congrArg State.bstart h.eq).trans rfl
theorem Emitted.blen_eq {s t : State} (h : Emitted s t) : t.blen = s.blen := (congrArg State.blen h.eq).trans rfl
theorem Emitted.bend_eq {s t : State} (h : Emitted s t) : t.bend = s.bend := (congrArg State.bend h.eq).trans rfl
theorem Emitted.rawn_eq {s t : State} (h : Emitted s t) : t.rawn = s.rawn := (congrArg State.rawn h.eq).trans rfl
theorem Emitted.mask_eq {s t : State} (h : Emitted s t) : t.mask = s.mask := (congrArg State.mask h.eq).trans rfl
theorem Emitted.sel_eq {s t : State} (h : Emitted s t) : t.sel = s.sel := (congrArg State.sel h.eq).trans rfl
theorem Emitted.phase_eq {s t : State} (h : Emitted s t) : t.phase = s.phase := (congrArg State.phase h.eq).trans rfl
theorem Emitted.buf_eq {s t : State} (h : Emitted s t) : t.buf = s.buf := (congrArg State.buf h.eq).trans rfl
theorem Emitted.work_eq {s t : State} (h : Emitted s t) : t.work = s.work := (congrArg State.work h.eq).trans rfl
theorem Emitted.pending_eq {s t : State} (h : Emitted s t) : t.pending = s.pending := (congrArg State.pending h.eq).trans rfl
theorem Emitted.rdData_eq {s t : State} (h : Emitted s t) : t.rdData = s.rdData := (congrArg State.rdData h.eq).trans rfl
theorem Emitted.memData_eq {s t : State} (h : Emitted s t) : t.memData = s.memData := (congrArg State.memData h.eq).trans rfl

theorem emitted_self (s : State) (h : s.oc.toNat ≤ 0x2000000) : Emitted s s :=
  ⟨rfl, le_refl _, h, id, id, fun _ _ => rfl, fun a h1 h2 => by omega⟩

theorem emitted_redraw {s t : State} (h : Emitted s t) : Emitted s (redraw t) :=
  ⟨by have e := h.eq; unfold redraw; rw [e], h.le, h.cap, h.wf, h.below, h.frame, h.valued⟩

theorem emitted_copyLoop (off : Nat) (s : State) (k : Nat) (h : s.oc.toNat + k ≤ 0x2000000) :
    Emitted s (copyLoop off s k) := by
  induction k with
  | zero => exact emitted_self s (by omega)
  | succ k ih =>
    have e := copyLoop_oc off s k (by omega)
    exact (ih (by omega)).trans (emitted_emit _ _ (by simp only [List.length_singleton]; omega))

/-- The raw block's bytes are produced as output (43_lzd_blocks.md R126). -/
theorem emitted_payload (s : State) (h : s.oc.toNat + s.rawn.toNat ≤ 0x2000000) :
    Emitted s (emit (bufBytes s s.bstart.toNat s.rawn.toNat) s) :=
  emitted_emit _ s (by rw [length_bufBytes]; exact h)

/-! ### Token elements -/

/-- What one element of a token step can do: raise a fault, leave the step unfinished with the cursor moved on, or end
the step. -/
inductive TokenResult (s : State) : State → Prop
  | fault (c : Cause) (inp val : Nat) (h : c ≠ .unrecognizedFormat) : TokenResult s (raiseFault c inp val s)
  | more (w : Work) (h1 : s.cursor.p < w.p) (h2 : w.p ≤ s.bend.toNat) (h3 : w.s = 0x8000 ∨ w.s = s.cursor.s) :
      TokenResult s (continueStep w s)
  | finished (w : Work) (t : State) (h1 : s.cursor.p < w.p) (h2 : w.p ≤ s.bend.toNat) (h3 : w.s = s.cursor.s)
      (h4 : Emitted s t) : TokenResult s (commitToken w t)

theorem tokenResult_finishCopy (w : Work) (c : PendingCopy) (s : State) (h1 : s.cursor.p < w.p)
    (h2 : w.p ≤ s.bend.toNat) (h3 : w.s = s.cursor.s) : TokenResult s (finishCopy (.withBufCap cap) w c s) := by
  rcases finishCopy_cases (.withBufCap cap) w c s with ⟨-, e⟩ | ⟨-, -, e⟩ | ⟨-, -, -, e⟩ | ⟨-, -, hc, e⟩ <;> rw [e]
  · exact .fault _ _ _ (by decide)
  · exact .fault _ _ _ (by decide)
  · exact .fault _ _ _ (by decide)
  · exact .finished w _ h1 h2 h3 (emitted_redraw (emitted_copyLoop _ _ _ hc))

theorem tokenResult_copyToken (ohi : BitVec 3) (lf : BitVec 5) (olo : Byte) (s : State) :
    ∃ t, copyToken (.withBufCap cap) ohi lf olo s = .next t ∧ TokenResult s t := by
  rcases copyToken_cases (.withBufCap cap) ohi lf olo s with ⟨-, e⟩ | ⟨hb, -, e⟩ | ⟨hb, -, e⟩
  · exact ⟨_, e, .fault _ _ _ (by decide)⟩
  · exact ⟨_, e, .more _ (Nat.lt_add_of_pos_right (by decide)) hb (.inr rfl)⟩
  · exact ⟨_, e, tokenResult_finishCopy _ _ _ (Nat.lt_add_of_pos_right (by decide)) hb rfl⟩

theorem tokenResult_runMask (m : Half) (s : State) :
    ∃ t, runMask (.withBufCap cap) m s = .next t ∧ TokenResult s t := by
  by_cases h : s.cursor.p + 2 ≤ s.bend.toNat
  · refine ⟨continueStep { p := s.cursor.p + 2, m := m, s := 0x8000, copy := none } s,
      by simp [runMask, need, h], .more _ ?_ h (.inl rfl)⟩
    exact Nat.lt_add_of_pos_right (by decide)
  · exact ⟨_, by simp [runMask, need, h]; rfl, .fault _ _ _ (by decide)⟩

theorem tokenResult_runLit (b : Byte) (s : State) :
    ∃ t, runLit (.withBufCap cap) b s = .next t ∧ TokenResult s t := by
  by_cases h : s.cursor.p + 1 ≤ s.bend.toNat
  · by_cases h1 : s.oc.toNat + 1 ≤ 0x2000000
    · refine ⟨commitToken { s.cursor with p := s.cursor.p + 1 } (emit [b] s),
        by simp [runLit, need, outRoom, h, h1], .finished _ _ ?_ h rfl (emitted_emit _ _ h1)⟩
      exact Nat.lt_add_of_pos_right (by decide)
    · exact ⟨_, by simp [runLit, need, outRoom, h, h1]; rfl, .fault _ _ _ (by decide)⟩
  · exact ⟨_, by simp [runLit, need, h]; rfl, .fault _ _ _ (by decide)⟩

theorem tokenResult_runExt (e : Byte) (s : State) (h : s.cursor.copy ≠ none) :
    ∃ t, runExt (.withBufCap cap) e s = .next t ∧ TokenResult s t := by
  obtain ⟨c, hc⟩ := Option.ne_none_iff_exists'.1 h
  by_cases h : s.cursor.p + 1 ≤ s.bend.toNat
  · by_cases h1 : e = 0xFF
    · subst h1
      refine ⟨continueStep { s.cursor with p := s.cursor.p + 1, copy := some { c with len := c.len + 255 } } s,
        by simp [runExt, hc, need, h], .more _ ?_ h (.inr rfl)⟩
      exact Nat.lt_add_of_pos_right (by decide)
    · refine ⟨finishCopy (.withBufCap cap) { s.cursor with p := s.cursor.p + 1 } { c with len := c.len + e.toNat } s,
        by simp only [runExt, hc, need, h, h1]; rfl, ?_⟩
      exact tokenResult_finishCopy _ _ _ (Nat.lt_add_of_pos_right (by decide)) h rfl
  · exact ⟨_, by simp [runExt, hc, need, h]; rfl, .fault _ _ _ (by decide)⟩

/-- An element inside a token step always has its next state, one of `TokenResult`. -/
theorem tokenElement_cases (s : State) (hp : s.phase = .lTok) :
    ∃ t, tokenElement (.withBufCap cap) s = .next t ∧ TokenResult s t := by
  unfold tokenElement
  by_cases ha : fetchAllowed s (tokenCtx s.cursor) s.cursor.p = true
  · rcases hcopy : s.cursor.copy with _ | c
    · by_cases hs : s.cursor.s = 0
      · have hctx : tokenCtx s.cursor = .mask := by simp only [tokenCtx, hcopy, if_pos hs]
        rw [hctx] at ha ⊢
        rw [elementStep_of_allowed ha
            (show fetchDecode (.withBufCap cap) s .mask s.cursor.p = .ok (.mask _) 2 from rfl)]
        exact tokenResult_runMask _ s
      · by_cases hb : s.cursor.m &&& s.cursor.s = 0
        · have hctx : tokenCtx s.cursor = .token false := by simp only [tokenCtx, hcopy, if_neg hs, hb]; rfl
          rw [hctx] at ha ⊢
          rw [elementStep_of_allowed ha
            (show fetchDecode (.withBufCap cap) s (.token false) s.cursor.p = .ok (.lit _) 1 from rfl)]
          exact tokenResult_runLit _ s
        · have hctx : tokenCtx s.cursor = .token true := by
            simp only [tokenCtx, hcopy, if_neg hs, ne_eq, hb, not_false_eq_true, decide_true]
          rw [hctx] at ha ⊢
          rw [elementStep_of_allowed ha
            (show fetchDecode (.withBufCap cap) s (.token true) s.cursor.p = .ok (decodeCopy _ _ _) 2 from rfl)]
          unfold decodeCopy
          simp only
          split
          · exact tokenResult_copyToken _ _ _ s
          · split
            · exact tokenResult_copyToken _ _ _ s
            · exact tokenResult_copyToken _ _ _ s
    · have hctx : tokenCtx s.cursor = .extension := by simp only [tokenCtx, hcopy]
      rw [hctx] at ha ⊢
      rw [elementStep_of_allowed ha
            (show fetchDecode (.withBufCap cap) s .extension s.cursor.p = .ok (.ext _) 1 from rfl)]
      exact tokenResult_runExt _ s (by rw [hcopy]; exact Option.some_ne_none c)
  · rw [elementStep_of_not_allowed (by simpa using ha)]
    simp only [fetchFault, hp]
    exact ⟨_, rfl, .fault _ _ _ (by decide)⟩

/-- What a whole token step can do: raise a fault on the state it started from, or commit one token. -/
inductive TokenStepResult (s : State) : State → Prop
  | fault (c : Cause) (inp val : Nat) (h : c ≠ .unrecognizedFormat) : TokenStepResult s (raiseFault c inp val s)
  | token (w : Work) (t : State) (h1 : s.cursor.p < w.p) (h2 : w.p ≤ s.bend.toNat)
      (h3 : w.s = 0x8000 ∨ w.s = s.cursor.s) (h4 : Emitted s t) : TokenStepResult s (commitToken w t)

/-- A whole token step always ends, in one of the two ways of `TokenStepResult`. -/
theorem tokenLoop_cases (n : Nat) (s : State) (hp : s.phase = .lTok) (hn : s.bend.toNat - s.cursor.p < n) :
    ∃ t, tokenLoop (.withBufCap cap) n s = .next t ∧ TokenStepResult s t := by
  induction n generalizing s with
  | zero => omega
  | succ n ih =>
    obtain ⟨t, ht, hr⟩ := tokenElement_cases s hp
    rw [tokenLoop_succ _ n s t ht]
    cases hr with
    | fault c inp val h => exact ⟨_, if_neg (by simp), .fault c inp val h⟩
    | finished w t h1 h2 h3 h4 => exact ⟨_, if_neg (by simp), .token w t h1 h2 (.inr h3) h4⟩
    | more w h1 h2 h3 =>
      rw [if_pos (by simp)]
      have hcur : (continueStep w s).cursor = w := cursor_of_some rfl
      obtain ⟨u, hu, hr⟩ := ih (continueStep w s) hp (by rw [hcur, continueStep_bend]; omega)
      refine ⟨u, hu, ?_⟩
      cases hr with
      | fault c inp val h => exact .fault (s := s) c inp val h
      | token w' t k1 k2 k3 k4 =>
        rw [hcur] at k1 k3
        have e : commitToken w' t = commitToken w' { t with work := s.work } := rfl
        rw [e]
        refine .token w' _ (by omega) k2 (by rcases k3 with k3 | k3 <;> simp_all) ?_
        refine ⟨?_, k4.le, k4.cap, k4.wf, k4.below, k4.frame, k4.valued⟩
        have h5 := congrArg (fun x : State => { x with work := s.work }) k4.eq
        exact h5

/-- Everything the token step of the engine can do. -/
theorem engineStep_lTok (s : State) (hp : s.phase = .lTok) :
    ∃ t, engineStep (.withBufCap cap) s = .next t ∧ TokenStepResult s t := by
  have h : engineStep (.withBufCap cap) s = tokenLoop (.withBufCap cap) (tokenFuel s) s := by simp [engineStep, hp]
  rw [h]
  exact tokenLoop_cases _ s hp (by simp [tokenFuel])

/-! ### Headers and trailers -/

/-- The engine's step at a header is the meaning of the decoded header; where the header does not fit, OutOfBounds. -/
theorem engineStep_lHdr (s : State) (hp : s.phase = .lHdr) :
    engineStep (.withBufCap cap) s =
      if s.ic.toNat + 2 ≤ s.bufLen.toNat then
        run (.withBufCap cap) (decodeHeader (.withBufCap cap) s.model (be16At s s.ic.toNat)) s
      else fault .outOfBounds s.ic.toNat 2 s := by
  have h : engineStep (.withBufCap cap) s = elementStep (.withBufCap cap) s (.header s.model) s.ic.toNat := by
    simp [engineStep, hp]
  rw [h]
  by_cases hb : s.ic.toNat + 2 ≤ s.bufLen.toNat
  · rw [if_pos hb, elementStep_of_allowed (by simp [fetchAllowed, hp, headerInBounds, hb])
      (show fetchDecode (.withBufCap cap) s (.header s.model) s.ic.toNat = .ok _ 2 from rfl)]
    rfl
  · rw [if_neg hb, elementStep_of_not_allowed (by simp [fetchAllowed, hp, headerInBounds, hb])]
    simp [fetchFault, hp]

/-- The engine's step at a trailer. -/
theorem engineStep_lTrl (s : State) (hp : s.phase = .lTrl) :
    engineStep (.withBufCap cap) s =
      if be16At s s.bend.toNat = 0 then .next (leaveBlock s)
      else fault .missingBlockTrailer s.bend.toNat (be16At s s.bend.toNat).toNat s := by
  have h : engineStep (.withBufCap cap) s = elementStep (.withBufCap cap) s .trailer s.bend.toNat := by
    simp [engineStep, hp]
  rw [h, elementStep_of_allowed (by simp [fetchAllowed, hp])
    (show fetchDecode (.withBufCap cap) s .trailer s.bend.toNat = .ok (if be16At s s.bend.toNat = 0 then .trl
      else .illegalTrailer (be16At s s.bend.toNat)) 2 from rfl)]
  split <;> rfl

/-! ### The engine step -/

/-- Everything one engine step can do, by phase. -/
inductive EngineResult (cap : Word) (s : State) : State → Prop
  | stutter (h : s.phase = .idle) : EngineResult cap s s
  | fault (h : s.phase ≠ .idle) (c : Cause) (inp val : Nat) (hc : c ≠ .unrecognizedFormat) :
      EngineResult cap s (raiseFault c inp val s)
  | toCheck (h : s.phase = .cmd) (hop : s.op = 0) (hb : s.bufLen.toNat ≤ cap.toNat) :
      EngineResult cap s { s with phase := .lCheck }
  | toIv (h : s.phase = .cmd) (hop : s.op = 1 ∨ s.op = 2) (hb : s.bufLen.toNat ≤ cap.toNat) :
      EngineResult cap s { s with phase := .xIv }
  | toSig (h : s.phase = .lCheck) : EngineResult cap s (redraw { s with phase := .lSig })
  | toHdr (h : s.phase = .lSig) (hb : 0x1F8 ≤ s.bufLen.toNat) :
      EngineResult cap s { s with ic := BitVec.ofNat 32 0x200, phase := .lHdr }
  | streamEnd (h : s.phase = .lHdr) (hb : s.ic.toNat + 2 ≤ s.bufLen.toNat) (hv : be16At s s.ic.toNat = 0) :
      EngineResult cap s (complete { s with ic := BitVec.ofNat 32 (s.ic.toNat + 2) })
  | rawBlock (h : s.phase = .lHdr) (hb : s.ic.toNat + 2 ≤ s.bufLen.toNat) (hv : be16At s s.ic.toNat ≠ 0) (len n : Nat)
      (hl : len = 0xC002 ∧ n = 0xC000 ∨ len = 0x6000 ∧ n = 0x6000)
      (hf : s.ic.toNat + 2 + len + 6 ≤ s.bufLen.toNat) :
      EngineResult cap s { enterBlock len s with rawn := BitVec.ofNat 16 n, phase := .lRaw }
  | tokenBlock (h : s.phase = .lHdr) (hb : s.ic.toNat + 2 ≤ s.bufLen.toNat) (hv : be16At s s.ic.toNat ≠ 0) (len : Half)
      (hl : 2 ≤ len.toNat) (hf : s.ic.toNat + 2 + len.toNat + 6 ≤ s.bufLen.toNat) :
      EngineResult cap s { enterBlock len.toNat s with
        bend := BitVec.ofNat 32 (s.ic.toNat + 2 + len.toNat - 2), mask := 0, sel := 0,
        phase := if len.toNat = 2 then .lTrl else .lTok }
  | token (h : s.phase = .lTok) (w : Work) (t : State) (h1 : s.cursor.p < w.p) (h2 : w.p ≤ s.bend.toNat)
      (h3 : w.s = 0x8000 ∨ w.s = s.cursor.s) (h4 : Emitted s t) : EngineResult cap s (commitToken w t)
  | trailer (h : s.phase = .lTrl) (hv : be16At s s.bend.toNat = 0) : EngineResult cap s (leaveBlock s)
  | payload (h : s.phase = .lRaw) (hr : s.oc.toNat + s.rawn.toNat ≤ 0x2000000) :
      EngineResult cap s (leaveBlock (emit (bufBytes s s.bstart.toNat s.rawn.toNat) s))
  | keygen (h : s.phase = .xIv) (hop : s.op = 2) (hb : s.xbase.toNat + s.xivoff.toNat + 16 ≤ s.bufLen.toNat) :
      EngineResult cap s
        (complete (redraw { s with
          key := loadKey (keysched (.withBufCap cap) (readIv s (s.xbase.toNat + s.xivoff.toNat))) s.key }))
  | keyed (h : s.phase = .xIv) (hop : s.op ≠ 2) (hb : s.xbase.toNat + s.xivoff.toNat + 16 ≤ s.bufLen.toNat) :
      EngineResult cap s
        { redraw { s with
            key := loadKey (keysched (.withBufCap cap) (readIv s (s.xbase.toNat + s.xivoff.toNat))) s.key } with
          phase := .xChk }
  | noBlocks (h : s.phase = .xChk) (hs : s.xstart.toNat % 0x80 = 0) (hl : s.xlen = 0) : EngineResult cap s (complete s)
  | toBlocks (h : s.phase = .xChk) (hs : s.xstart.toNat % 0x80 = 0) (hm : s.xlen.toNat % 0x80 = 0) (hl : s.xlen ≠ 0)
      (hb : s.xbase.toNat + s.xstart.toNat + s.xlen.toNat ≤ s.bufLen.toNat) :
      EngineResult cap s { s with ic := BitVec.ofNat 32 (s.xbase.toNat + s.xstart.toNat), phase := .xBlk }
  | block (h : s.phase = .xBlk) (he : s.ic.toNat + 0x80 ≠ s.xbase.toNat + s.xstart.toNat + s.xlen.toNat) :
      EngineResult cap s { s with
        buf := storeBytes s.buf s.ic.toNat (xorBlock (.withBufCap cap) s), ic := BitVec.ofNat 32 (s.ic.toNat + 0x80) }
  | lastBlock (h : s.phase = .xBlk) (he : s.ic.toNat + 0x80 = s.xbase.toNat + s.xstart.toNat + s.xlen.toNat) :
      EngineResult cap s (complete { s with
        buf := storeBytes s.buf s.ic.toNat (xorBlock (.withBufCap cap) s), ic := BitVec.ofNat 32 (s.ic.toNat + 0x80) })

theorem engineResult_cmd (s : State) (hp : s.phase = .cmd) :
    EngineResult cap s (cmdStep (.withBufCap cap) s) := by
  have hi : s.phase ≠ .idle := by rw [hp]; decide
  rw [cmdStep_withBufCap]
  split
  · exact .fault hi _ _ _ (by decide)
  · split
    · exact .fault hi _ _ _ (by decide)
    · split
      · exact .toCheck hp ‹_› (by omega)
      · refine .toIv hp ?_ (by omega)
        have h : ∀ v : BitVec 2, v ≠ 3 → v ≠ 0 → v = 1 ∨ v = 2 := by decide
        exact h _ ‹_› ‹_›

theorem engineResult_check (s : State) (hp : s.phase = .lCheck) : EngineResult cap s (lCheckStep s) := by
  have hi : s.phase ≠ .idle := by rw [hp]; decide
  unfold lCheckStep
  simp only
  split
  · exact .fault hi _ _ _ (by decide)
  · split
    · exact .fault hi _ _ _ (by decide)
    · exact .toSig hp

theorem engineResult_sig (s : State) (hp : s.phase = .lSig) :
    EngineResult cap s (lSigStep (.withBufCap cap) s) := by
  have hi : s.phase ≠ .idle := by rw [hp]; decide
  rw [lSigStep_withBufCap]
  split
  · exact .fault hi _ _ _ (by decide)
  · split
    · exact .fault hi _ _ _ (by decide)
    · exact .toHdr hp (by omega)

theorem engineResult_raw (s : State) (hp : s.phase = .lHdr) (hb : s.ic.toNat + 2 ≤ s.bufLen.toNat)
    (hv : be16At s s.ic.toNat ≠ 0) (len n : Nat) (hl : len = 0xC002 ∧ n = 0xC000 ∨ len = 0x6000 ∧ n = 0x6000) :
    EngineResult cap s (openRaw (.withBufCap cap) len n s) := by
  rcases openRaw_cases (.withBufCap cap) len n s with ⟨hf, e⟩ | ⟨-, e⟩ <;> rw [e]
  · exact .rawBlock hp hb hv len n hl (by simp only at hf; omega)
  · exact .fault (by rw [hp]; decide) _ _ _ (by decide)

theorem engineResult_tokens (s : State) (hp : s.phase = .lHdr) (hb : s.ic.toNat + 2 ≤ s.bufLen.toNat)
    (hv : be16At s s.ic.toNat ≠ 0) (h : Half) : EngineResult cap s (openTokens (.withBufCap cap) h.toNat s) := by
  rcases openTokens_cases (.withBufCap cap) h.toNat s with ⟨hf, hl, e⟩ | ⟨-, -, e⟩ | ⟨-, e⟩ <;> rw [e]
  · exact .tokenBlock hp hb hv h hl (by simp only at hf; omega)
  · exact .fault (by rw [hp]; decide) _ _ _ (by decide)
  · exact .fault (by rw [hp]; decide) _ _ _ (by decide)

theorem engineResult_header (s : State) (hp : s.phase = .lHdr) (hb : s.ic.toNat + 2 ≤ s.bufLen.toNat) :
    ∃ t, run (.withBufCap cap) (decodeHeader (.withBufCap cap) s.model (be16At s s.ic.toNat)) s = .next t ∧
      EngineResult cap s t := by
  have hi : s.phase ≠ .idle := by rw [hp]; decide
  have wh : ∀ k, withHeader k s = .next (k s) := fun k => by simp [withHeader, headerInBounds, hb]
  by_cases hv : be16At s s.ic.toNat = 0
  · refine ⟨_, ?_, .streamEnd hp hb hv⟩
    rw [decodeHeader, if_pos hv]
    exact wh fun s => complete { s with ic := BitVec.ofNat 32 (s.ic.toNat + 2) }
  · rw [decodeHeader, if_neg hv]
    split
    · split
      · exact ⟨_, wh _, .fault hi _ _ _ (by decide)⟩
      · exact ⟨_, wh _, .fault hi _ _ _ (by decide)⟩
    · split
      · exact ⟨_, wh _, engineResult_raw s hp hb hv _ _ (.inl ⟨rfl, rfl⟩)⟩
      · split
        · exact ⟨_, wh _, engineResult_raw s hp hb hv _ _ (.inr ⟨rfl, rfl⟩)⟩
        · exact ⟨_, wh _, engineResult_raw s hp hb hv _ _ (.inr ⟨rfl, rfl⟩)⟩
      · exact ⟨_, wh _, engineResult_tokens s hp hb hv _⟩

theorem engineResult_payload (s : State) (hp : s.phase = .lRaw) :
    EngineResult cap s (lRawStep (.withBufCap cap) s) := by
  rw [lRawStep_withBufCap]
  split
  · exact .fault (by rw [hp]; decide) _ _ _ (by decide)
  · exact .payload hp (by omega)

theorem engineResult_iv (s : State) (hp : s.phase = .xIv) :
    EngineResult cap s (xIvStep (.withBufCap cap) s) := by
  rw [xIvStep_withBufCap]
  split
  · exact .fault (by rw [hp]; decide) _ _ _ (by decide)
  · split
    · exact .keygen hp ‹_› (by omega)
    · exact .keyed hp ‹_› (by omega)

theorem engineResult_region (s : State) (hp : s.phase = .xChk) :
    EngineResult cap s (xChkStep (.withBufCap cap) s) := by
  have hi : s.phase ≠ .idle := by rw [hp]; decide
  rw [xChkStep_withBufCap]
  split
  · exact .fault hi _ _ _ (by decide)
  · rename_i hm
    split
    · exact .noBlocks hp (by omega) ‹_›
    · split
      · exact .fault hi _ _ _ (by decide)
      · exact .toBlocks hp (by omega) (by omega) ‹_› (by omega)

theorem engineResult_block (s : State) (hp : s.phase = .xBlk) :
    EngineResult cap s (xBlkStep (.withBufCap cap) s) := by
  rw [xBlkStep_withBufCap]
  split
  · exact .lastBlock hp ‹_›
  · exact .block hp ‹_›

/-- An engine step that has a next state has done one of the things `EngineResult` lists. -/
theorem engineStep_result {s t : State} (h : engineStep (.withBufCap cap) s = .next t) : EngineResult cap s t := by
  cases hp : s.phase
  case lHdr =>
    rw [engineStep_lHdr s hp] at h
    split at h
    · obtain ⟨u, hu, hr⟩ := engineResult_header s hp ‹_›
      rw [hu] at h
      cases h
      exact hr
    · cases h
      exact .fault (by rw [hp]; decide) _ _ _ (by decide)
  case lTok =>
    obtain ⟨u, hu, hr⟩ := engineStep_lTok s hp
    rw [hu] at h
    cases h
    cases hr with
    | fault c inp val hc => exact .fault (by rw [hp]; decide) c inp val hc
    | token w t h1 h2 h3 h4 => exact .token hp w t h1 h2 h3 h4
  case lTrl =>
    rw [engineStep_lTrl s hp] at h
    split at h
    · cases h
      exact .trailer hp ‹_›
    · cases h
      exact .fault (by rw [hp]; decide) _ _ _ (by decide)
  all_goals
    simp only [engineStep, hp] at h
    cases h
  · exact .stutter hp
  · exact engineResult_cmd s hp
  · exact engineResult_check s hp
  · exact engineResult_sig s hp
  · exact engineResult_payload s hp
  · exact engineResult_iv s hp
  · exact engineResult_region s hp
  · exact engineResult_block s hp

end Sys2Proof.Machine
end

