-- ==== Sys2Proof/Laws/PerInstr.lean ====
section
/-! SUPPORT. A statement about every instruction, one lemma per constructor: the encoder gives a stream element as many
bytes as the decoder takes, and a host word as one word. -/

/-- The encoding of an instruction is as long as the instruction (30_encoding.md R92). -/
def Sys2Proof.Laws.EncodedLength.Statement (i : Sys2Proof.Instr) : Prop :=
  match Sys2Proof.encode Sys2Proof.Config.hw i with
  | .bytes bs => bs.length = i.length
  | .word _ => i.length = 4

namespace Sys2Proof.Laws.EncodedLength

theorem endMarker : Statement .endMarker := rfl
theorem blk (h : Half) : Statement (.blk h) := rfl
theorem raw1 : Statement .raw1 := rfl
theorem raw2 : Statement .raw2 := rfl
theorem raw2v : Statement .raw2v := rfl
theorem illegalSentinel : Statement .illegalSentinel := rfl
theorem illegalOversized (h : Half) : Statement (.illegalOversized h) := rfl
theorem mask (m : Half) : Statement (.mask m) := rfl
theorem lit (b : Byte) : Statement (.lit b) := rfl
theorem cpy (ohi : BitVec 3) (lf : BitVec 5) (olo : Byte) : Statement (.cpy ohi lf olo) := rfl
theorem cpyx (ohi : BitVec 3) (olo : Byte) : Statement (.cpyx ohi olo) := rfl
theorem ext (e : Byte) : Statement (.ext e) := rfl
theorem illegalZeroOffset (lf : BitVec 5) : Statement (.illegalZeroOffset lf) := rfl
theorem trl : Statement .trl := rfl
theorem illegalTrailer (t : Half) : Statement (.illegalTrailer t) := rfl
theorem cmdDecompress (endian : Endian) (ie : Bool) : Statement (.cmdDecompress endian ie) := rfl
theorem cmdXorRegion (endian : Endian) (ie : Bool) : Statement (.cmdXorRegion endian ie) := rfl
theorem cmdKeygen (endian : Endian) (ie : Bool) : Statement (.cmdKeygen endian ie) := rfl
theorem illegalCommand (endian : Endian) (ie : Bool) : Statement (.illegalCommand endian ie) := rfl
theorem cfgCtrl (op : BitVec 2) (endian : Endian) (ie : Bool) : Statement (.cfgCtrl op endian ie) := rfl
theorem ack (clrDone clrErr : Bool) : Statement (.ack clrDone clrErr) := rfl

end Sys2Proof.Laws.EncodedLength
end

