-- ==== Sys2Proof/Machine/HostPlans.lean ====
section
/-! DEFINITION. The host's side of a run: the command sequences of 70_reset_and_hazards.md R163 to R165 and the format
detection of R166 to R172, as lists of host actions. Host software (00_scope.md R5), no part of a step (log entry 20). -/

namespace Sys2Proof.Machine

/-- One Region of a plan (00_scope.md R14): the values of XBASE, XIVOFF, XSTART and XLEN. -/
structure Region where
  base : Nat
  ivOff : Nat
  start : Nat
  len : Nat
  deriving DecidableEq, Repr

/-- What the host does with a buffer (70_reset_and_hazards.md R168 to R172). -/
inductive Plan
  | regions (endian : Endian) (rs : List Region)  -- probes A, B and C
  | decompress (model : Byte)                     -- probe D
  | unrecognizedFormat                            -- no probe matches (code 1)
  | outsideSpec                                   -- a negative XLEN of probe C (91_not_in_source.md N21)
  deriving DecidableEq, Repr

/-- "Copyright" in ASCII (70_reset_and_hazards.md R167). -/
def copyrightText : List Byte := [0x43, 0x6F, 0x70, 0x79, 0x72, 0x69, 0x67, 0x68, 0x74]

/-- "PENTAX K-S" in ASCII (70_reset_and_hazards.md R167). -/
def pentaxText : List Byte := [0x50, 0x45, 0x4E, 0x54, 0x41, 0x58, 0x20, 0x4B, 0x2D, 0x53]

/-- The text probe: false where the comparison would read past the end (70_reset_and_hazards.md R167). -/
def textMatches (buf : List Byte) (off : Nat) (text : List Byte) : Bool :=
  (buf.drop off).take text.length == text

/-- Probe A's plan (70_reset_and_hazards.md R168). -/
def planA : Plan := .regions .big [⟨0, 0, 0x100, 0xA00000 - 0x100⟩, ⟨0xA00000, 0, 0x100, 0x80000 - 0x100⟩]

/-- Probe B's plan (70_reset_and_hazards.md R169). -/
def planB (size : Nat) : Plan :=
  .regions .big
    ([⟨0, 0xF00, 0, 0xF00⟩, ⟨0, 0xF00, 0x1000, 0xC00000 - 0x1000⟩] ++
      if 0xC00000 + 0x3FF80 ≤ size then [⟨0xC00000, 0x3FF80, 0, 0x3FF80⟩] else [])

/-- Probe C's plan (70_reset_and_hazards.md R170). -/
def planC (buf : List Byte) : Plan :=
  let size := buf.length
  let part := if 0x2000000 + 20 < size ∧ textMatches buf 0x2000010 copyrightText then 0x2000000 else 0x1000000
  if size < part + 0x80 then .outsideSpec
  else .regions .little [⟨0, 0x100, 0, 0x100⟩, ⟨0, 0x100, 0x200, part - 0x200⟩, ⟨part, 0, 0x80, size - part - 0x80⟩]

/-- The plan of a buffer: probes A, B, C, D in that order (70_reset_and_hazards.md R166 to R172). -/
def hostPlan (cfg : Config) (buf : List Byte) : Plan :=
  if textMatches buf 0x24 copyrightText then planA
  else if textMatches buf 0xF24 copyrightText ∧ (buf.length = 0xC00000 ∨ buf.length = 0xC40000) then planB buf.length
  else if textMatches buf 0x124 copyrightText then planC buf
  else if textMatches buf 0 pentaxText then .decompress (buf.getD cfg.modelOff 0 - 0x30)
  else .unrecognizedFormat

/-- Storing the whole buffer and its length, once idle (70_reset_and_hazards.md R163, R164). -/
def loadSequence (buf : List Byte) : List HostOp :=
  [.wait, .load 0 buf, .wr 0x08 (BitVec.ofNat 32 buf.length)]

/-- The ACK word written to STATUS (30_encoding.md R95). -/
def ackOp : HostOp := .wr 0x04 (statWord true true)

/-- One XOR_REGION of a plan (70_reset_and_hazards.md R164); on ERR the plan stops. DESIGN CHOICE: step (6) stops the
whole plan, so the faulting region's own ACK of step (7) is left out with the rest; R164 does not say whether it still
follows (log entry 25). -/
def xorRegionSequence (endian : Endian) (r : Region) : List HostOp :=
  [.wait, .wr 0x10 (BitVec.ofNat 32 r.base), .wr 0x14 (BitVec.ofNat 32 r.ivOff), .wr 0x18 (BitVec.ofNat 32 r.start),
    .wr 0x1C (BitVec.ofNat 32 r.len), .wr 0x00 (ctrlWord true 1 endian false), .wait, .stopOnErr, ackOp]

/-- What 70_reset_and_hazards.md R163 leaves to the host: whether step (5) sets IE, whether step (6) writes 0x11 in
place of 0x01, and whether step (7) waits for the interrupt in place of polling. -/
structure DecompressOptions where
  setIe : Bool := false
  startIe : Bool := false
  byIrq : Bool := false
  deriving DecidableEq, Repr

/-- Step (8) of the DECOMPRESS sequence (70_reset_and_hazards.md R163): on DONE, OUT_LEN and the image are read; on ERR,
the error registers are read and OUT is not. -/
def resultSequence : List HostOp :=
  [.onlyIf .done 2, .rd 0x20, .readImage, .onlyIf .err 4, .rd 0x04, .rd 0x28, .rd 0x2C, .rd 0x30]

/-- The DECOMPRESS sequence, steps (1) to (9) (70_reset_and_hazards.md R163). -/
def decompressSequence (o : DecompressOptions) (model : Byte) (buf : List Byte) : List HostOp :=
  loadSequence buf ++ [.wr 0x0C (model.setWidth 32)] ++
    (if o.setIe then [.wr 0x00 (ctrlWord false 0 .little true)] else []) ++
    [.wr 0x00 (ctrlWord true 0 .little o.startIe), if o.byIrq then .waitIrq else .wait] ++
    resultSequence ++ [ackOp]

/-- The KEYGEN sequence (70_reset_and_hazards.md R165). -/
def keygenSequence (endian : Endian) (base ivOff : Word) : List HostOp :=
  [.wr 0x10 base, .wr 0x14 ivOff, .wr 0x00 (ctrlWord true 2 endian false), .wait] ++
    (List.range 32).map fun i => .rd (0x80 + 4 * i)

/-- The host actions of a plan (70_reset_and_hazards.md R163 to R172); no command where no probe matches. -/
def planActions (o : DecompressOptions) (buf : List Byte) : Plan → List HostOp
  | .regions endian rs => loadSequence buf ++ rs.flatMap (xorRegionSequence endian)
  | .decompress model => decompressSequence o model buf
  | .unrecognizedFormat | .outsideSpec => []

end Sys2Proof.Machine
end

