-- ==== Sys2Proof/Tests/Slice0.lean ====
section
/-! SUPPORT. The model's own tests: ill-formed terms, decoding of words written from the spec's encodings, small steps
with the expected values of the spec, and a witness for the hypotheses of each obligation that has some. -/

namespace Sys2Proof.Tests

open Sys2Proof Sys2Proof.Machine

/-! ### Helpers -/

/-- The configuration with a BUF of 0x1000 bytes. -/
abbrev small : Config := Config.withBufCap 0x1000

/-- A machine in a phase, from reset. -/
def inPhase (p : Phase) : State := { State.reset with phase := p }

/-- The engine at a header at 0x200. -/
def hdr (bufLen : Word) : State := { inPhase .lHdr with ic := 0x200, bufLen := bufLen }

/-- A token block at 0x202 whose region runs to `bend`, at `ic`, inside a group. -/
def tok (ic bend : Word) (mask sel : Half) : State :=
  { inPhase .lTok with
    ic := ic, bstart := 0x202, blen := (bend - 0x200).setWidth 16, bend := bend, bufLen := 0x300, mask := mask, sel := sel }

/-- The same with bytes stored at IC and output already produced. -/
def tokWith (bs outs : List Byte) (ic bend : Word) (mask sel : Half) : State :=
  { tok ic bend mask sel with
    buf := cellRun ic.toNat bs, out := cellRun 0 outs, oc := BitVec.ofNat 32 outs.length }

/-- What a part of the next state is, none where there is no next state. -/
def after {α : Type} (o : Host.Outcome State Fault Refusal) (f : State → α) : Option α :=
  match o with
  | .next t => some (f t)
  | .fault _ | .refused _ => none

/-- Why a step is refused, none where it is not. -/
def refusalOf (o : Host.Outcome State Fault Refusal) : Option Refusal :=
  match o with
  | .refused r => some r
  | .next _ | .fault _ => none

/-- Why a step faults, none where it does not. -/
def faultOf (o : Host.Outcome State Fault Refusal) : Option Fault :=
  match o with
  | .fault r => some r
  | .next _ | .refused _ => none

/-- ERR_CODE, ERR_IN and ERR_VAL after a step. -/
def faultRecord (o : Host.Outcome State Fault Refusal) : Option (Byte × Word × Word) :=
  after o fun t => (t.errCode, t.errIn, t.errVal)

theorem after_some {α : Type} {o : Host.Outcome State Fault Refusal} {f : State → α} {x : α}
    (h : after o f = some x) : ∃ t, o = .next t ∧ f t = x := by
  cases o with
  | next t => exact ⟨t, rfl, Option.some.inj h⟩
  | fault r => cases h
  | refused r => cases h

/-! ### Ill-formed terms are refused (30_encoding.md R88, R89) -/

theorem test_wf_blk_zero : ¬(Instr.blk 0).WellFormed := by decide
theorem test_wf_blk_above_max : ¬(Instr.blk 0x8001).WellFormed := by decide
theorem test_wf_oversized_legal_length : ¬(Instr.illegalOversized 0x8000).WellFormed := by decide
theorem test_wf_oversized_sentinel : ¬(Instr.illegalOversized 0xE000).WellFormed := by decide
theorem test_wf_cpy_escape_length : ¬(Instr.cpy 0 7 1).WellFormed := by decide
theorem test_wf_cpy_zero_offset : ¬(Instr.cpy 0 3 0).WellFormed := by decide
theorem test_wf_cpyx_zero_offset : ¬(Instr.cpyx 0 0).WellFormed := by decide
theorem test_wf_trailer_zero : ¬(Instr.illegalTrailer 0).WellFormed := by decide

/-! ### Decoding: words written out from 30_encoding.md R81 to R87, R89 and R95 -/

theorem test_decode_end : decode Config.hw (.header 1) (.bytes [0x00, 0x00]) = .ok .endMarker 2 := by decide
theorem test_decode_blk : decode Config.hw (.header 1) (.bytes [0x00, 0x14]) = .ok (.blk 0x0014) 2 := by decide
theorem test_decode_raw1 : decode Config.hw (.header 1) (.bytes [0xE0, 0x00]) = .ok .raw1 2 := by decide
theorem test_decode_raw2 : decode Config.hw (.header 2) (.bytes [0xE0, 0x00]) = .ok .raw2 2 := by decide
theorem test_decode_raw2v : decode Config.hw (.header 2) (.bytes [0x60, 0x00]) = .ok .raw2v 2 := by decide
theorem test_decode_6000_model1 : decode Config.hw (.header 1) (.bytes [0x60, 0x00]) = .ok (.blk 0x6000) 2 := by decide
theorem test_decode_sentinel : decode Config.hw (.header 3) (.bytes [0xE0, 0x00]) = .ok .illegalSentinel 2 := by decide
theorem test_decode_oversized : decode Config.hw (.header 1) (.bytes [0x80, 0x01]) = .ok (.illegalOversized 0x8001) 2 := by decide
theorem test_decode_mask : decode Config.hw .mask (.bytes [0x10, 0x00]) = .ok (.mask 0x1000) 2 := by decide
theorem test_decode_lit : decode Config.hw (.token false) (.bytes [0x41]) = .ok (.lit 0x41) 1 := by decide
-- w = 111_00101_10000001: ohi 7, lf 5, olo 0x81
theorem test_decode_cpy : decode Config.hw (.token true) (.bytes [0xE5, 0x81]) = .ok (.cpy 7 5 0x81) 2 := by decide
-- w = 101_00111_00000010: ohi 5, lf 7, olo 2
theorem test_decode_cpyx : decode Config.hw (.token true) (.bytes [0xA7, 0x02]) = .ok (.cpyx 5 2) 2 := by decide
theorem test_decode_ext : decode Config.hw .extension (.bytes [0xFF]) = .ok (.ext 0xFF) 1 := by decide
theorem test_decode_zero_offset : decode Config.hw (.token true) (.bytes [0x1F, 0x00]) = .ok (.illegalZeroOffset 31) 2 := by decide
theorem test_decode_trl : decode Config.hw .trailer (.bytes [0x00, 0x00]) = .ok .trl 2 := by decide
theorem test_decode_bad_trailer : decode Config.hw .trailer (.bytes [0x00, 0x01]) = .ok (.illegalTrailer 1) 2 := by decide
theorem test_decode_decompress : decode Config.hw .ctrlWrite (.word 0x01) = .ok (.cmdDecompress .little false) 4 := by decide
theorem test_decode_xor_be : decode Config.hw .ctrlWrite (.word 0x0B) = .ok (.cmdXorRegion .big false) 4 := by decide
theorem test_decode_keygen_ie : decode Config.hw .ctrlWrite (.word 0x15) = .ok (.cmdKeygen .little true) 4 := by decide
theorem test_decode_op3 : decode Config.hw .ctrlWrite (.word 0xFFFFFFE7) = .ok (.illegalCommand .little false) 4 := by decide
theorem test_decode_cfg : decode Config.hw .ctrlWrite (.word 0x1C) = .ok (.cfgCtrl 2 .big true) 4 := by decide
theorem test_decode_ack : decode Config.hw .statusWrite (.word 0x06) = .ok (.ack true true) 4 := by decide
theorem test_decode_truncated : decode Config.hw .mask (.bytes [0x10]) = .rejected .truncated := by decide
theorem test_decode_host_word_as_stream : decode Config.hw .trailer (.word 0) = .rejected .notStreamBytes := by decide
theorem test_decode_stream_as_host_word : decode Config.hw .statusWrite (.bytes [6]) = .rejected .notHostWord := by decide

/-- Bare words in the contexts of log entry 5: bit 0 of the word is bit 0 of the element's value (R81, R83, R87). -/
theorem test_table_words :
    decodeTableWord 16 0x0014 = some (.blk 0x14) ∧ decodeTableWord 16 0xE000 = some .raw1 ∧
    decodeTableWord 8 0x41 = some (.lit 0x41) ∧ decodeTableWord 32 0x05 = some (.cmdKeygen .little false) := by decide

/-! ### Block headers -/

-- R125: a stream that is only `00 00` at 0x200 ends with IN_POS = 0x202
theorem test_end :
    after (exec .endMarker (hdr 0x202)) (fun t => (t.ic, t.done, t.busy)) = some (0x202, true, false) := by decide
-- R121: the header that does not fit is OutOfBounds(h, 2)
theorem test_end_out_of_bounds : faultRecord (exec .endMarker (hdr 0x201)) = some (3, 0x200, 2) := by decide
-- R121's example: 0x000B with BUF_LEN = 0x220
theorem test_blk :
    after (exec (.blk 0x0B) (hdr 0x220)) (fun t => (t.bstart, t.blen, t.bend, t.ic, t.phase)) =
      some (0x202, 0x0B, 0x20B, 0x202, .lTok) := by decide
-- R123: L + 6 bytes must follow the header
theorem test_blk_incomplete : faultRecord (exec (.blk 0x0B) (hdr 0x212)) = some (7, 0x200, 0x0B) := by decide
-- R121: RAWN is L - 2 for RAW1
theorem test_raw1 :
    after (exec .raw1 { hdr 0xC20A with ic := 0x200 }) (fun t => (t.rawn, t.blen, t.phase)) =
      some (0xC000, 0xC002, .lRaw) := by decide
-- R124's example: RAW2 with RAWN = 0x6000
theorem test_raw2 :
    after (exec .raw2 (hdr 0x6208)) (fun t => (t.rawn, t.bstart, t.phase)) = some (0x6000, 0x202, .lRaw) := by decide
theorem test_raw2_incomplete : faultRecord (exec .raw2 (hdr 0x6207)) = some (7, 0x200, 0x6000) := by decide
theorem test_raw2v :
    after (exec .raw2v (hdr 0x6208)) (fun t => (t.rawn, t.blen, t.phase)) = some (0x6000, 0x6000, .lRaw) := by decide
-- R122
theorem test_illegal_sentinel : faultRecord (exec .illegalSentinel (hdr 0x300)) = some (6, 0x200, 0xE000) := by decide
theorem test_illegal_oversized :
    faultRecord (exec (.illegalOversized 0x8001) (hdr 0x300)) = some (6, 0x200, 0x8001) := by decide

/-! ### Tokens and trailers -/

-- R129's example: bytes `00 00 41` with SEL = 0, one step: OUT[OC] = 0x41, IC + 3, SEL = 0x4000
theorem test_mask_and_literal_in_one_step :
    after (step (tokWith [0x00, 0x00, 0x41] [] 0x202 0x207 0 0)) (fun t => (t.outAt 0, t.oc, t.ic, t.sel)) =
      some (some 0x41, 1, 0x205, 0x4000) := by decide
-- R129: a mask with no token after it faults at the token's need, and IC, MASK and SEL keep their values
theorem test_mask_without_token :
    after (step (tokWith [0x80, 0x00] [] 0x202 0x204 0 0)) (fun t => (t.errCode, t.errIn, t.ic, t.mask, t.sel)) =
      some (7, 0x204, 0x202, 0, 0) := by decide
-- R131's example: v = 0xFF, OC = 5
theorem test_lit :
    after (exec (.lit 0xFF) { tok 0x204 0x206 0 0x8000 with oc := 5 }) (fun t => (t.outAt 5, t.oc, t.ic)) =
      some (some 0xFF, 6, 0x205) := by decide
theorem test_lit_capacity :
    faultRecord (exec (.lit 0xFF) { tok 0x204 0x206 0 0x8000 with oc := 0x2000000 }) = some (10, 0x204, 1) := by decide
-- R132's example (W2): OUT = 41 42 43, bytes `00 03`
theorem test_cpy :
    after (step (tokWith [0x00, 0x03] [0x41, 0x42, 0x43] 0x204 0x206 0x8000 0x8000))
      (fun t => (t.out.map (·.2), t.oc, t.phase)) =
      some ([0x41, 0x42, 0x43, 0x41, 0x42, 0x43], 6, .lTrl) := by decide
-- R134: offset before start
theorem test_cpy_before_start :
    faultRecord (exec (.cpy 0 0 4) { tok 0x204 0x206 0x8000 0x8000 with oc := 3 }) = some (11, 0x204, 4) := by decide
-- R88: lf = 7 and the extension byte 00 give length 10
theorem test_cpyx_length_10 :
    after (step (tokWith [0x07, 0x01, 0x00] [0x55] 0x204 0x20A 0x8000 0x8000))
      (fun t => (t.oc, t.outAt 10, t.ic, t.sel)) = some (11, some 0x55, 0x207, 0x4000) := by decide
-- R133: an extension chain that reaches BEND is IncompleteBlock before any offset check
theorem test_cpyx_overrun :
    faultRecord (step (tokWith [0x07, 0x00, 0xFF] [] 0x204 0x207 0x8000 0x8000)) = some (7, 0x207, 7) := by decide
-- R133: an extension byte 0xFF adds 255 to the length 10 and another byte follows
theorem test_ext :
    after (exec (.ext 0xFF) { tok 0x204 0x20A 0x8000 0x8000 with
      work := some { p := 0x206, m := 0x8000, s := 0x8000, copy := some { t := 0x204, len := 10, off := 1 } } })
      (fun t => t.work.map fun w => (w.p, w.copy.map (·.len))) = some (some (0x207, some 265)) := by decide
theorem test_ext_without_copy : refusalOf (exec (.ext 0) (tok 0x204 0x20A 0 0x8000)) = some .extOutsideCopy := by decide
-- R132: ZeroOffsetCopy records the offset of s0 and the length
theorem test_zero_offset :
    faultRecord (exec (.illegalZeroOffset 31) (tok 0x204 0x206 0x8000 0x8000)) = some (8, 0x204, 34) := by decide
-- R127
theorem test_trl :
    after (exec .trl { tok 0x206 0x206 0 0 with phase := .lTrl }) (fun t => (t.ic, t.phase)) =
      some (0x208, .lHdr) := by decide
theorem test_illegal_trailer :
    faultRecord (exec (.illegalTrailer 1) { tok 0x206 0x206 0 0 with phase := .lTrl }) = some (9, 0x206, 1) := by decide

/-! ### Host command words -/

-- R100: `wr CTRL, 0x01` with the engine idle sets BUSY and PHASE = CMD with OP = 0
theorem test_cmd_decompress :
    after (exec (.cmdDecompress .little false) { inPhase .idle with op := 2, err := true, errCode := 8, errIn := 5 })
      (fun t => (t.op, t.phase, t.err, t.errCode, t.errIn)) = some (0, .cmd, false, 0, 0) := by decide
-- P5: a START while busy is dropped
theorem test_cmd_decompress_busy :
    after (exec (.cmdDecompress .big true) (tok 0x204 0x206 0 0)) (fun t => (t.phase, t.endian, t.ie)) =
      some (.lTok, .little, true) := by decide
theorem test_cmd_xor_region :
    after (exec (.cmdXorRegion .big false) (inPhase .idle)) (fun t => (t.op, t.endian, t.phase)) =
      some (1, .big, .cmd) := by decide
theorem test_cmd_keygen :
    after (exec (.cmdKeygen .little true) (inPhase .idle)) (fun t => (t.op, t.ie, t.phase)) = some (2, true, .cmd) := by decide
-- R102's example: OP = 3 gives STATUS = 0x00000C04 and ERR_VAL = 3
theorem test_illegal_command :
    after (step { inPhase .cmd with op := 3 }) (fun t => (t.statusWord, t.errVal)) = some (0x00000C04, 3) := by decide
theorem test_illegal_command_starts :
    after (exec (.illegalCommand .little false) (inPhase .idle)) (fun t => (t.op, t.busy)) = some (3, true) := by decide
theorem test_cfg_ctrl :
    after (exec (.cfgCtrl 1 .big true) (inPhase .idle)) (fun t => (t.ctrlWord, t.busy)) = some (0x1A, false) := by decide
-- R101's example: after a fault with ERR_CODE = 8, `wr STATUS, 0x04` leaves STATUS = 0
theorem test_ack :
    after (step { inPhase .idle with err := true, errCode := 8, errIn := 0x204, pending := [.wr 0x04 0x04] })
      (fun t => (t.statusWord, t.errIn)) = some (0, 0x204) := by decide

/-! ### Engine steps and the host's port -/

-- R107's example and vectors K1
theorem test_keysched_zero_iv : (keysched Config.hw fun _ => 0)[0]? = some 0xFFFFFFFE ∧ (keysched Config.hw fun _ => 0)[2]? = some 0xFFFFFFFF := by
  decide
-- R116's example: 01 00 00 00 FF FF FF FF passes, 01 00 00 00 faults with ERR_VAL = 1
theorem test_checksum_passes :
    after (step { inPhase .lCheck with bufLen := 8, buf := cellRun 0 [1, 0, 0, 0, 0xFF, 0xFF, 0xFF, 0xFF] })
      (fun t => t.phase) = some .lSig := by decide
theorem test_checksum_fails :
    faultRecord (step { inPhase .lCheck with bufLen := 4, buf := cellRun 0 [1, 0, 0, 0] }) = some (4, 0, 1) := by decide
-- R111's example: KEY[0] = 0xFFFFFFFE, rel = 0x100, big: the word is XORed with 0xFFFFFEFE
theorem test_xor_word :
    xorWord { inPhase .xBlk with
      endian := .big, key := Vector.replicate 32 0xFFFFFFFE, ic := 0x100, buf := cellRun 0x100 [0, 0, 0, 0] } 0 =
      [0xFF, 0xFF, 0xFE, 0xFE] := by decide
-- R19, R28: reserved offsets read 0 and OUT_CAP reads 0x02000000
theorem test_read_out_cap : after (step { inPhase .idle with pending := [.rd 0x34] }) (fun t => t.rdData) = some 0x02000000 := by
  decide
theorem test_misaligned : refusalOf (step { inPhase .idle with pending := [.rd 0x35] }) = some .regMisaligned := by decide
theorem test_outside_window : refusalOf (step { inPhase .idle with pending := [.wr 0x100 0] }) = some .regOutsideWindow := by
  decide
-- R173: no access to BUF or OUT while BUSY; R60, R61: no byte past the memories
theorem test_load_while_busy : refusalOf (step { inPhase .lHdr with pending := [.load 0 [1]] }) = some .memoryWhileBusy := by decide
theorem test_load_past_buf : faultOf (stepWith small { inPhase .idle with pending := [.load 0xFFF [1, 2]] }) = some .bufOffsetAbsent := by
  decide
theorem test_store_past_out : faultOf (step { inPhase .idle with pending := [.storeOut 0x2000000 [1]] }) = some .outOffsetAbsent := by
  decide
-- R163 steps (1) to (9), with every option of steps (5) to (7)
theorem test_decompress_sequence :
    decompressSequence { setIe := true, startIe := true, byIrq := true } 1 [7] =
      [.wait, .load 0 [7], .wr 0x08 1, .wr 0x0C 1, .wr 0x00 0x10, .wr 0x00 0x11, .waitIrq, .onlyIf .done 2, .rd 0x20,
        .readImage, .onlyIf .err 4, .rd 0x04, .rd 0x28, .rd 0x2C, .rd 0x30, .wr 0x04 0x06] := by decide
-- R163 step (8): on ERR the read of OUT is left out, on DONE the reads of the error registers are
theorem test_results_after_error :
    after (step { inPhase .idle with err := true, errCode := 8, pending := resultSequence })
      (fun t => t.pending.head?) = some (some (.onlyIf .err 4)) := by decide
theorem test_results_after_completion :
    after (step { inPhase .idle with done := true, pending := [.onlyIf .err 4, .rd 0x04, .rd 0x28, .rd 0x2C, .rd 0x30] })
      (fun t => (t.pending, t.rdData)) = some ([], 0x02) := by decide
-- R163 step (7), R146: waiting for the interrupt is over once IE and DONE are 1, and while it is 0 the engine goes on
theorem test_wait_irq :
    after (step { inPhase .idle with ie := true, done := true, pending := [.waitIrq] }) (fun t => t.pending) = some [] := by
  decide
theorem test_wait_irq_while_busy :
    after (step { inPhase .cmd with op := 3, ie := true, pending := [.waitIrq] }) (fun t => (t.err, t.pending)) =
      some (true, [.waitIrq]) := by decide
-- R171: the sub-model digit '1' after the 10-byte magic gives MODEL = 1
theorem test_probe_d : hostPlan Config.hw (pentaxText ++ [0x31]) = .decompress 1 := by decide
-- R172: no probe matches
theorem test_no_probe : hostPlan Config.hw [0, 1, 2, 3] = .unrecognizedFormat := by decide

/-! ### Witnesses: the hypotheses of each obligation hold together, clause by clause, at boundary values -/

theorem witness_DecodeEncodeRoundTrip :
    (Instr.blk 0x8000).WellFormed ∧ Ctx.admits Config.hw (.header 0) (.blk 0x8000) = true ∧
    (Instr.cpyx 0 1).WellFormed ∧ Ctx.admits Config.hw (.token true) (.cpyx 0 1) = true ∧
    (Instr.ack true false).WellFormed ∧ Ctx.admits Config.hw .statusWrite (.ack true false) = true := by decide

theorem witness_DecodedInstrIsAdmitted :
    decode Config.hw (.header 2) (.bytes [0x60, 0x00]) = .ok .raw2v 2 ∧
    decode Config.hw .ctrlWrite (.word 0xFFFFFFFF) = .ok (.illegalCommand .big true) 4 := by decide

theorem witness_HeaderValueSelectsElement :
    ((0 : Half) = 0) ∧ ((0xE000 : Half) = 0xE000 ∧ (1 : Byte) = 1) ∧ ((0xE000 : Half) = 0xE000 ∧ (2 : Byte) = 2) ∧
    ((0xE000 : Half) = 0xE000 ∧ (3 : Byte) ≠ 1 ∧ (3 : Byte) ≠ 2) ∧ ((0x6000 : Half) = 0x6000 ∧ (2 : Byte) = 2) ∧
    ((0x8000 : Half) < 0x8001 ∧ (0x8001 : Half) ≠ 0xE000) ∧ ((0x8000 : Half) < 0xFFFF ∧ (0xFFFF : Half) ≠ 0xE000) ∧
    ((1 : Half) ≠ 0 ∧ (1 : Half) ≤ 0x8000 ∧ ¬((1 : Half) = 0x6000 ∧ (2 : Byte) = 2)) ∧
    ((0x8000 : Half) ≠ 0 ∧ (0x8000 : Half) ≤ 0x8000 ∧ ¬((0x8000 : Half) = 0x6000 ∧ (2 : Byte) = 2)) ∧
    ((0x6000 : Half) ≠ 0 ∧ (0x6000 : Half) ≤ 0x8000 ∧ ¬((0x6000 : Half) = 0x6000 ∧ (1 : Byte) = 2)) := by decide

theorem witness_SelectorPicksMaskBit : 0 < 16 ∧ 15 < 16 := by decide

/-- A header, a literal that ends its step, a mask that does not, a trailer, and a header and a token not to be read. -/
theorem witness_StepRunsDecodedElement :
    (fetchPoint { hdr 0x202 with buf := cellRun 0x200 [0, 0] } = some (.header 0, 0x200) ∧
      fetchAllowed { hdr 0x202 with buf := cellRun 0x200 [0, 0] } (.header 0) 0x200 = true ∧
      fetchDecode Config.hw { hdr 0x202 with buf := cellRun 0x200 [0, 0] } (.header 0) 0x200 = .ok .endMarker 2 ∧
      (hdr 0x202).pending = [] ∧ (hdr 0x202).phase ≠ .lTok) ∧
    (fetchPoint (tokWith [0x41] [] 0x204 0x206 0 0x8000) = some (.token false, 0x204) ∧
      fetchAllowed (tokWith [0x41] [] 0x204 0x206 0 0x8000) (.token false) 0x204 = true ∧
      fetchDecode Config.hw (tokWith [0x41] [] 0x204 0x206 0 0x8000) (.token false) 0x204 = .ok (.lit 0x41) 1 ∧
      after (exec (.lit 0x41) (tokWith [0x41] [] 0x204 0x206 0 0x8000)) (fun t => t.work.isSome) = some false) ∧
    (fetchPoint (tokWith [0, 0, 0x41] [] 0x202 0x206 0 0) = some (.mask, 0x202) ∧
      fetchAllowed (tokWith [0, 0, 0x41] [] 0x202 0x206 0 0) .mask 0x202 = true ∧
      fetchDecode Config.hw (tokWith [0, 0, 0x41] [] 0x202 0x206 0 0) .mask 0x202 = .ok (.mask 0) 2 ∧
      after (exec (.mask 0) (tokWith [0, 0, 0x41] [] 0x202 0x206 0 0)) (fun t => t.work.isSome) = some true) ∧
    (fetchPoint { tok 0x206 0x206 0 0 with phase := .lTrl } = some (.trailer, 0x206) ∧
      { tok 0x206 0x206 0 0 with phase := .lTrl }.phase = .lTrl) ∧
    (fetchPoint (hdr 0x201) = some (.header 0, 0x200) ∧ fetchAllowed (hdr 0x201) (.header 0) 0x200 = false ∧
      (hdr 0x201).phase = .lHdr) ∧
    (fetchPoint (tok 0x205 0x206 0x8000 0x8000) = some (.token true, 0x205) ∧
      fetchAllowed (tok 0x205 0x206 0x8000 0x8000) (.token true) 0x205 = false ∧ 0x205 < 2 ^ 32) := by decide

theorem witness_StepRunsDecodedHostWord :
    { inPhase .idle with pending := [.wr 0x00 1] }.pending = .wr 0x00 1 :: [] ∧
    { inPhase .idle with pending := [.wr 0x04 6, .wait] }.pending = .wr 0x04 6 :: [.wait] := ⟨rfl, rfl⟩

theorem witness_EndMarkerCompletes : (hdr 0x202).ic.toNat + 2 ≤ (hdr 0x202).bufLen.toNat := by decide

theorem witness_TokenBlockHeaderOpens :
    (2 ≤ (2 : Half).toNat ∧ (hdr 0x20A).ic.toNat + 2 + (2 : Half).toNat + 6 ≤ (hdr 0x20A).bufLen.toNat) ∧
    (2 ≤ (0x8000 : Half).toNat ∧
      (hdr 0x8208).ic.toNat + 2 + (0x8000 : Half).toNat + 6 ≤ (hdr 0x8208).bufLen.toNat) := by decide

theorem witness_RawBlockHeadersOpen :
    (hdr 0xC20A).ic.toNat + 2 + 0xC002 + 6 ≤ (hdr 0xC20A).bufLen.toNat ∧
    (hdr 0x6208).ic.toNat + 2 + 0x6000 + 6 ≤ (hdr 0x6208).bufLen.toNat ∧
    (Instr.raw2v = .raw2 ∨ Instr.raw2v = .raw2v) := by decide

theorem witness_IllegalHeadersFaultOversized : (hdr 0x202).ic.toNat + 2 ≤ (hdr 0x202).bufLen.toNat := by decide

theorem witness_HeaderFaultOrder :
    ((hdr 0x201).bufLen.toNat < (hdr 0x201).ic.toNat + 2 ∧ Ctx.admits Config.hw (.header 0) .endMarker = true ∧
      (hdr 0x201).phase = .lHdr ∧ (hdr 0x201).pending = []) ∧
    ((hdr 0x202).ic.toNat + 2 ≤ (hdr 0x202).bufLen.toNat ∧
      (hdr 0x202).bufLen.toNat < (hdr 0x202).ic.toNat + 2 + (1 : Half).toNat + 6 ∧
      (hdr 0x202).bufLen.toNat < (hdr 0x202).ic.toNat + 2 + 0xC002 + 6 ∧
      (hdr 0x202).bufLen.toNat < (hdr 0x202).ic.toNat + 2 + 0x6000 + 6) ∧
    ((hdr 0x209).ic.toNat + 2 + 1 + 6 ≤ (hdr 0x209).bufLen.toNat) := by decide

theorem witness_MaskOpensGroup : (tok 0x202 0x204 0 0).cursor.p + 2 ≤ (tok 0x202 0x204 0 0).bend.toNat := by decide

theorem witness_LiteralToken :
    ((tok 0x204 0x204 0 0x8000).cursor.p < 2 ^ 32 ∧
      (tok 0x204 0x204 0 0x8000).bend.toNat < (tok 0x204 0x204 0 0x8000).cursor.p + 1) ∧
    ((tok 0x204 0x205 0 0x8000).cursor.p + 1 ≤ (tok 0x204 0x205 0 0x8000).bend.toNat ∧
      0x2000000 ≤ { tok 0x204 0x205 0 0x8000 with oc := 0x2000000 }.oc.toNat ∧
      { tok 0x204 0x205 0 0x8000 with oc := 0x1FFFFFF }.oc.toNat < 0x2000000) := by decide

theorem witness_ShortCopyToken :
    3 = (0 : BitVec 3).toNat * 256 + (3 : Byte).toNat ∧ 3 = (0 : BitVec 5).toNat + 3 ∧ (0 : BitVec 5) ≠ 7 ∧
    3 ≤ (tokWith [0x00, 0x03] [0x41, 0x42, 0x43] 0x204 0x206 0x8000 0x8000).oc.toNat ∧
    (tokWith [0x00, 0x03] [0x41, 0x42, 0x43] 0x204 0x206 0x8000 0x8000).oc.toNat + 3 ≤ 0x2000000 ∧
    (tokWith [0x00, 0x03] [0x41, 0x42, 0x43] 0x204 0x206 0x8000 0x8000).cursor.p + 2 ≤ 0x206 := by decide

theorem witness_ExtendedCopyAwaitsExtension :
    (tok 0x204 0x206 0x8000 0x8000).cursor.p + 2 ≤ (tok 0x204 0x206 0x8000 0x8000).bend.toNat := by decide

/-- Inside a copy token: the first extension byte is at 0x206. -/
def inCopy (off : BitVec 11) (oc bend : Word) : State :=
  { tok 0x204 bend 0x8000 0x8000 with
    oc := oc
    work := some { p := 0x206, m := 0x8000, s := 0x8000, copy := some { t := 0x204, len := 10, off := off } } }

theorem witness_ExtensionByteContinues :
    (inCopy 1 1 0x207).work =
      some { p := 0x206, m := 0x8000, s := 0x8000, copy := some { t := 0x204, len := 10, off := 1 } } ∧
    0x206 + 1 ≤ (inCopy 1 1 0x207).bend.toNat := by decide

theorem witness_ExtensionByteEndsCopy :
    (inCopy 1 1 0x207).work =
      some { p := 0x206, m := 0x8000, s := 0x8000, copy := some { t := 0x204, len := 10, off := 1 } } ∧
    264 = 10 + (0xFE : Byte).toNat ∧ (0xFE : Byte) ≠ 0xFF ∧ 0x206 + 1 ≤ (inCopy 1 1 0x207).bend.toNat ∧
    0 < (1 : BitVec 11).toNat ∧ (1 : BitVec 11).toNat ≤ (inCopy 1 1 0x207).oc.toNat ∧
    (inCopy 1 1 0x207).oc.toNat + 264 ≤ 0x2000000 := by decide

/-- W3's token `07 01 FF 02` after one literal. -/
def longCopy : State := tokWith [0x07, 0x01, 0xFF, 0x02] [0x41] 0x205 0x209 0x4000 0x4000

theorem witness_ExtendedCopyStep :
    longCopy.pending = [] ∧ longCopy.phase = .lTok ∧ longCopy.work = none ∧ longCopy.sel ≠ 0 ∧
    longCopy.mask &&& longCopy.sel ≠ 0 ∧ longCopy.bufAt longCopy.ic.toNat = some 0x07 ∧
    longCopy.bufAt (longCopy.ic.toNat + 1) = some 0x01 ∧ (0x07 : Byte).extractLsb' 0 5 = (7 : BitVec 5) ∧
    (∀ k, k < 1 → longCopy.bufAt (longCopy.ic.toNat + 2 + k) = some 0xFF) ∧
    longCopy.bufAt (longCopy.ic.toNat + 2 + 1) = some 0x02 ∧ (0x02 : Byte) ≠ 0xFF ∧
    longCopy.ic.toNat + 3 + 1 ≤ longCopy.bend.toNat ∧
    1 = ((0x07 : Byte).extractLsb' 5 3).toNat * 256 + (0x01 : Byte).toNat ∧ 267 = 10 + 255 * 1 + (0x02 : Byte).toNat ∧
    1 ≤ longCopy.oc.toNat ∧ longCopy.oc.toNat + 267 ≤ 0x2000000 := by decide

theorem witness_ZeroOffsetCopyFaults :
    (tok 0x204 0x206 0x8000 0x8000).cursor.p + 2 ≤ (tok 0x204 0x206 0x8000 0x8000).bend.toNat ∧
    (6 : BitVec 5) ≠ 7 ∧ (7 : BitVec 5) = 7 := by decide

theorem witness_CopyFaultOrder :
    (inCopy 0 0 0x207).work =
      some { p := 0x206, m := 0x8000, s := 0x8000, copy := some { t := 0x204, len := 10, off := 0 } } ∧
    (inCopy 2 1 0x207).work =
      some { p := 0x206, m := 0x8000, s := 0x8000, copy := some { t := 0x204, len := 10, off := 2 } } ∧
    264 = 10 + (0xFE : Byte).toNat ∧ (0xFE : Byte) ≠ 0xFF ∧ 0x206 + 1 ≤ (inCopy 2 1 0x207).bend.toNat ∧
    264 < 2 ^ 32 ∧ 0x204 < 2 ^ 32 ∧
    ((2 : BitVec 11) ≠ 0 ∧ (inCopy 2 1 0x207).oc.toNat < (2 : BitVec 11).toNat) ∧
    ((2 : BitVec 11).toNat ≤ (inCopy 2 0x1FFFFFF 0x207).oc.toNat ∧
      0x2000000 < (inCopy 2 0x1FFFFFF 0x207).oc.toNat + 264) ∧
    (4 = (0 : BitVec 3).toNat * 256 + (4 : Byte).toNat ∧ 3 = (0 : BitVec 5).toNat + 3 ∧ (0 : BitVec 5) ≠ 7 ∧ 0 < 4 ∧
      { tok 0x204 0x206 0x8000 0x8000 with oc := 3 }.cursor.p + 2 ≤ 0x206 ∧
      { tok 0x204 0x206 0x8000 0x8000 with oc := 3 }.oc.toNat < 4 ∧
      4 ≤ { tok 0x204 0x206 0x8000 0x8000 with oc := 0x1FFFFFE }.oc.toNat ∧
      0x2000000 < { tok 0x204 0x206 0x8000 0x8000 with oc := 0x1FFFFFE }.oc.toNat + 3) := by decide

theorem witness_TokenReadPastRegionFaults :
    ((tok 0x205 0x206 0 0).cursor.p < 2 ^ 32 ∧ (tok 0x205 0x206 0 0).bend.toNat < (tok 0x205 0x206 0 0).cursor.p + 2 ∧
      (Ctx.admits Config.hw .mask (.mask 0) = true ∨ Ctx.admits Config.hw (.token true) (.mask 0) = true)) ∧
    ((inCopy 1 1 0x206).bend.toNat < (inCopy 1 1 0x206).cursor.p + 1 ∧ (inCopy 1 1 0x206).cursor.copy ≠ none) ∧
    ((tok 0x205 0x206 0 0).pending = [] ∧ (tok 0x205 0x206 0 0).phase = .lTok ∧ (tok 0x205 0x206 0 0).work = none ∧
      (tok 0x205 0x206 0 0).sel = 0 ∧ (tok 0x205 0x206 0 0).bend.toNat < (tok 0x205 0x206 0 0).ic.toNat + 2) ∧
    (be16 (bufByte (tokWith [0x80, 0] [] 0x202 0x205 0 0) 0x202) (bufByte (tokWith [0x80, 0] [] 0x202 0x205 0 0) 0x203) =
      0x8000 ∧ 0x202 + 2 ≤ 0x205 ∧ 0x205 < 0x202 + 2 + (if (0x8000 : Half).getLsbD 15 then 2 else 1)) ∧
    (be16 (bufByte (tokWith [0, 0] [] 0x202 0x204 0 0) 0x202) (bufByte (tokWith [0, 0] [] 0x202 0x204 0 0) 0x203) = 0 ∧
      0x202 + 2 ≤ 0x204 ∧ 0x204 < 0x202 + 2 + (if (0 : Half).getLsbD 15 then 2 else 1)) ∧
    ((tok 0x204 0x204 0 0x8000).sel ≠ 0 ∧ (tok 0x204 0x204 0 0x8000).mask &&& (tok 0x204 0x204 0 0x8000).sel = 0 ∧
      (tok 0x204 0x204 0 0x8000).bend.toNat < (tok 0x204 0x204 0 0x8000).ic.toNat + 1) ∧
    ((tok 0x205 0x206 0x8000 0x8000).mask &&& (tok 0x205 0x206 0x8000 0x8000).sel ≠ 0 ∧
      (tok 0x205 0x206 0x8000 0x8000).bend.toNat < (tok 0x205 0x206 0x8000 0x8000).ic.toNat + 2) ∧
    ((bufByte (tokWith [0x07, 0, 0xFF] [] 0x204 0x207 0x8000 0x8000) 0x204).extractLsb' 0 5 = (7 : BitVec 5) ∧
      ∀ a, 0x204 + 2 ≤ a → a < 0x207 → (tokWith [0x07, 0, 0xFF] [] 0x204 0x207 0x8000 0x8000).bufAt a = some 0xFF) := by
  decide

theorem witness_OverlapLaw :
    0 < 1 ∧ 1 ≤ longCopy.oc.toNat ∧ longCopy.oc.toNat + 267 ≤ 0x2000000 ∧ 266 < 267 := by decide

theorem witness_StartBeginsCommand :
    (inPhase .idle).phase = .idle ∧ (Instr.cmdKeygen .big true = .cmdKeygen .big true ∧ (2 : BitVec 2) = 2) := by decide

theorem witness_CfgCtrlStoresFields : (inPhase .idle).phase = .idle := rfl

theorem witness_CtrlWriteWhileBusyTakesOnlyIe : (inPhase .cmd).phase ≠ .idle := by decide

theorem witness_AckClearsFlags :
    ((inPhase .lHdr).done = false ∧ (inPhase .lHdr).err = false ∧ (inPhase .lHdr).errCode = 0) ∧
    ((0x06 : Word).getLsbD 1 = true ∧ (0x06 : Word).getLsbD 2 = true ∧
      after (exec (decodeStatus 0x06) { inPhase .idle with ie := true, done := true }) (fun t => t.irq) = some false) := by
  decide

theorem witness_DispatchStep :
    ({ inPhase .cmd with op := 3 }.phase = .cmd ∧ { inPhase .cmd with op := 3 }.op = 3) ∧
    ({ inPhase .cmd with op := 1, bufLen := 0x1001 }.op ≠ 3 ∧
      small.bufCap.toNat < { inPhase .cmd with op := 1, bufLen := 0x1001 }.bufLen.toNat) ∧
    ({ inPhase .cmd with bufLen := 0x1000 }.op = 0 ∧
      { inPhase .cmd with bufLen := 0x1000 }.bufLen.toNat ≤ small.bufCap.toNat) := by decide

/-- The checksum step on a buffer of the given bytes. -/
def sumOf (bs : List Byte) : State := { inPhase .lCheck with bufLen := BitVec.ofNat 32 bs.length, buf := cellRun 0 bs }

/-- The sum of 42_lzd_checks.md R116 as the obligation writes it. -/
def listSum (s : State) : Word := ((List.range (s.bufLen.toNat / 4)).map fun k => rdw s .little (4 * k)).sum

theorem witness_ChecksumStep :
    ((sumOf [0, 0, 0, 0, 0]).phase = .lCheck ∧ (sumOf [0, 0, 0, 0, 0]).bufLen.toNat % 4 ≠ 0) ∧
    ((sumOf [1, 0, 0, 0]).bufLen.toNat % 4 = 0 ∧ listSum (sumOf [1, 0, 0, 0]) ≠ 0) ∧
    ((sumOf [1, 0, 0, 0, 0xFF, 0xFF, 0xFF, 0xFF]).bufLen.toNat % 4 = 0 ∧
      listSum (sumOf [1, 0, 0, 0, 0xFF, 0xFF, 0xFF, 0xFF]) = 0) := by decide

/-- The signature step with the two signature bytes stored. -/
def sig (bufLen : Word) (b : Byte) : State := { inPhase .lSig with bufLen := bufLen, buf := cellRun 0x1F6 [0, b] }

theorem witness_SignatureStep :
    ((sig 0x1F7 1).phase = .lSig ∧ (sig 0x1F7 1).bufLen.toNat < 0x1F8) ∧
    (0x1F8 ≤ (sig 0x1F8 0).bufLen.toNat ∧ bufByte (sig 0x1F8 0) 0x1F6 = 0 ∧ bufByte (sig 0x1F8 0) 0x1F7 = 0) ∧
    (0x1F8 ≤ (sig 0x1F8 1).bufLen.toNat ∧ ¬(bufByte (sig 0x1F8 1) 0x1F6 = 0 ∧ bufByte (sig 0x1F8 1) 0x1F7 = 0)) := by decide

/-- A raw block of 0x6000 bytes with the given output already produced. -/
def rawAt (oc : Word) : State := { inPhase .lRaw with oc := oc, bstart := 0x202, blen := 0x6000, rawn := 0x6000, ic := 0x202 }

theorem witness_RawPayloadStep :
    (rawAt 0x1FFA001).phase = .lRaw ∧ 0x2000000 < (rawAt 0x1FFA001).oc.toNat + (rawAt 0x1FFA001).rawn.toNat ∧
    (rawAt 0x1FFA000).oc.toNat + (rawAt 0x1FFA000).rawn.toNat ≤ 0x2000000 := by decide

/-- An XKE command at a step of its own, with its region. -/
def region (p : Phase) (op : BitVec 2) (bufLen xivoff xstart xlen : Word) : State :=
  { inPhase p with op := op, bufLen := bufLen, xivoff := xivoff, xstart := xstart, xlen := xlen }

theorem witness_IvStep :
    ((region .xIv 1 0x1F 0x10 0 0).phase = .xIv ∧ (region .xIv 1 0x1F 0x10 0 0).bufLen.toNat < 0x10 + 16 ∧ 0x10 < 2 ^ 32) ∧
    (0x10 + 16 ≤ (region .xIv 2 0x20 0x10 0 0).bufLen.toNat ∧ (region .xIv 2 0x20 0x10 0 0).op = 2) ∧
    (0x10 + 16 ≤ (region .xIv 1 0x20 0x10 0 0).bufLen.toNat ∧ (region .xIv 1 0x20 0x10 0 0).op ≠ 2) ∧
    ((0xFFFFFFF0 : Word).toNat + (0x10 : Word).toNat = 2 ^ 32 ∧
      { region .xIv 1 0xFFFFFFFF 0x10 0 0 with xbase := 0xFFFFFFF0 }.bufLen.toNat < 2 ^ 32 + 16) := by decide

theorem witness_RegionCheckStep :
    ((region .xChk 1 0x100 0 0x10 0).phase = .xChk ∧ (region .xChk 1 0x100 0 0x10 0).xstart.toNat % 0x80 ≠ 0) ∧
    (region .xChk 1 0x100 0 0 0x10).xlen.toNat % 0x80 ≠ 0 ∧
    ((region .xChk 1 0x100 0 0x80 0).xstart.toNat % 0x80 = 0 ∧ (region .xChk 1 0x100 0 0x80 0).xlen = 0) ∧
    ((region .xChk 1 0xFF 0 0x80 0x80).xlen.toNat % 0x80 = 0 ∧ (region .xChk 1 0xFF 0 0x80 0x80).xlen ≠ 0 ∧
      (region .xChk 1 0xFF 0 0x80 0x80).bufLen.toNat < 0x80 + (region .xChk 1 0xFF 0 0x80 0x80).xlen.toNat) ∧
    0x80 + (region .xChk 1 0x100 0 0x80 0x80).xlen.toNat ≤ (region .xChk 1 0x100 0 0x80 0x80).bufLen.toNat ∧
    ((0xFFFFFF80 : Word).toNat + (0x80 : Word).toNat = 2 ^ 32 ∧
      { region .xChk 1 0xFFFFFFFF 0 0x80 0x80 with xbase := 0xFFFFFF80 }.bufLen.toNat < 2 ^ 32 + (0x80 : Word).toNat) := by
  decide

/-- The XOR block step at the given block of the region 0x80 to 0x180. -/
def blockAt (ic : Word) : State := { region .xBlk 1 0x180 0 0x80 0x100 with ic := ic }

theorem witness_XorBlockStep :
    (blockAt 0x80).phase = .xBlk ∧
    (blockAt 0x80).ic.toNat + 0x80 ≠
      (blockAt 0x80).xbase.toNat + (blockAt 0x80).xstart.toNat + (blockAt 0x80).xlen.toNat ∧
    (blockAt 0x100).ic.toNat + 0x80 =
      (blockAt 0x100).xbase.toNat + (blockAt 0x100).xstart.toNat + (blockAt 0x100).xlen.toNat ∧ 3 < 4 := by decide

theorem witness_KeyScheduleFormula :
    ∃ (iv : Nat → Word) (i : Fin 4) (tmp : Word),
      tmp = (match i with
        | 0 => iv 0 + ~~~(iv 2)
        | 1 => iv 1 + ~~~(iv 3)
        | 2 => ~~~(iv 0 + ~~~(iv 2))
        | 3 => ~~~(iv 1 + ~~~(iv 3))) ∧ tmp = 0 :=
  ⟨fun _ => 5, 3, 0, by decide, rfl⟩

theorem witness_KeyScheduleSensitivity : (0xFFFFFFFF : Word) ≠ 0 ∧ ∀ j : Fin 4, (fun _ => 7 : Nat → Word) j.val = 7 := by decide

/-- A command word has been accepted over a buffer of the given bytes, all of them stored. -/
def started (op : BitVec 2) (xlen : Word) (bs : List Byte) : State :=
  { inPhase .cmd with
    op := op, bufLen := BitVec.ofNat 32 bs.length, xivoff := 0x80, xlen := xlen, buf := cellRun 0 bs }

/-- What a run of k steps ends in; the start where it stops on the way. -/
def runTo (k : Nat) (s : State) : State :=
  match runSteps small k s with
  | .next t => t
  | .fault _ | .refused _ => s

theorem runTo_spec {α : Type} {k : Nat} {s : State} {f : State → α} {x : α} (h : after (runSteps small k s) f = some x) :
    runSteps small k s = .next (runTo k s) ∧ f (runTo k s) = x := by
  obtain ⟨t, ht, hf⟩ := after_some h
  have e : runTo k s = t := by rw [runTo, ht]
  rw [e]
  exact ⟨ht, hf⟩

/-- A region of one block at 0 and its IV after it, run twice. -/
def oneBlock : State := started 1 0x80 (List.replicate 0x90 0)

theorem witness_XorRegionInvolution :
    oneBlock.phase = .cmd ∧ oneBlock.op = 1 ∧ oneBlock.pending = [] ∧
    oneBlock.xbase.toNat + oneBlock.xstart.toNat + oneBlock.xlen.toNat ≤ oneBlock.xbase.toNat + oneBlock.xivoff.toNat ∧
    4 = 3 + oneBlock.xlen.toNat / 0x80 := by decide

theorem witness_XorRegionInvolution_stored : ∀ a, a < oneBlock.bufLen.toNat → (oneBlock.bufAt a).isSome = true := by
  intro a ha
  have h : oneBlock.bufLen.toNat = 0x90 := by simp [oneBlock, started]
  rw [h] at ha
  show (readCell (cellRun 0 (List.replicate 0x90 0)) a).isSome = true
  have hl : (List.replicate 0x90 (0 : Byte)).length = 0x90 := List.length_replicate
  rw [readCell_cellRun, if_pos (by omega), List.getElem?_eq_getElem (by omega)]
  rfl

theorem witness_XorRegionInvolution_runs :
    after (runSteps small 4 oneBlock) (fun t => (t.done, t.phase)) = some (true, .idle) := by decide +kernel

theorem witness_XorRegionInvolution_runs_again :
    after (exec (.cmdXorRegion oneBlock.endian false) (runTo 4 oneBlock)) (fun u =>
      after (runSteps small 4 u) fun t => (t.done, t.phase)) = some (some (true, .idle)) := by decide +kernel

/-- A fault with the IV out of range, and a KEYGEN. -/
theorem witness_XkeFaultLeavesBuf :
    (started 1 0x80 [1, 2]).phase = .cmd ∧ (started 1 0x80 [1, 2]).pending = [] ∧ (started 1 0x80 [1, 2]).err = false ∧
    after (runSteps small 2 (started 1 0x80 [1, 2])) (fun t => t.err) = some true ∧
    after (runSteps small 2 { started 2 0 (List.replicate 16 0) with xivoff := 0 }) (fun t => t.done) = some true := by
  decide +kernel

theorem witness_FaultsArePrecise :
    (hdr 0x201).work = none ∧ (hdr 0x201).err = false ∧ (hdr 0x201).busy = true ∧
    after (engineStep small (hdr 0x201)) (fun t => t.err) = some true := by decide

theorem witness_CompletionSteps :
    ({ hdr 0x202 with buf := cellRun 0x200 [0, 0] }.busy = true ∧ { hdr 0x202 with buf := cellRun 0x200 [0, 0] }.done = false ∧
      after (engineStep small { hdr 0x202 with buf := cellRun 0x200 [0, 0] }) (fun t => t.done) = some true) ∧
    (after (engineStep small (hdr 0x201)) (fun t => t.done) = some false) ∧
    (after (engineStep small (region .xChk 1 0x100 0 0x80 0)) (fun t => t.done) = some true) := by decide

theorem witness_CommandsKeepTheirMemories :
    (after (engineStep small longCopy) (fun t => t.oc) = some 268 ∧
      longCopy.phase ∈ [Phase.lCheck, .lSig, .lHdr, .lTok, .lTrl, .lRaw]) ∧
    (after (engineStep small (inPhase .cmd)) (fun t => t.phase) = some .lCheck ∧
      (inPhase .cmd).phase ∈ [Phase.cmd, .xIv, .xChk, .xBlk]) := by decide +kernel

/-- The machine's invariant inside a token block: W3's buffer after the literal. -/
theorem witness_inv_token : MachineInv 0x1000 { longCopy with bufLen := 0x214 } := by
  refine ⟨by decide, by decide, by decide, by decide, by decide, by decide, by decide, by decide, by decide, by decide, ?_⟩
  exact ⟨by decide, by decide, ⟨by decide, by decide, by decide⟩, by decide, by decide, by decide⟩

theorem witness_OutputOnlyAppended :
    MachineInv 0x1000 { longCopy with bufLen := 0x214 } ∧
    { longCopy with bufLen := 0x214 }.phase ∈ [Phase.lHdr, .lTok, .lTrl, .lRaw] ∧
    after (engineStep small { longCopy with bufLen := 0x214 }) (fun t => t.oc) = some 268 :=
  ⟨witness_inv_token, by decide, by decide +kernel⟩

theorem witness_CursorStrictlyAdvances :
    MachineInv 0x1000 { longCopy with bufLen := 0x214 } ∧
    { longCopy with bufLen := 0x214 }.phase ∈ [Phase.lHdr, .lTok, .lTrl, .lRaw] ∧
    after (engineStep small { longCopy with bufLen := 0x214 }) (fun t => t.ic) = some 0x209 :=
  ⟨witness_inv_token, by decide, by decide +kernel⟩

theorem witness_StepKeepsInv :
    MachineInv 0x1000 { longCopy with bufLen := 0x214 } ∧
    after (stepWith small { longCopy with bufLen := 0x214 }) (fun t => t.phase) = some .lTrl :=
  ⟨witness_inv_token, by decide +kernel⟩

/-- The same on the machine of the host's interface, whose P_BUF_CAP is unknown. -/
theorem witness_StepKeepsInv_step :
    MachineInv Config.pBufCap { State.reset with pending := [.wr 0x08 5] } ∧
    after (step { State.reset with pending := [.wr 0x08 5] }) (fun t => t.bufLen) = some 5 :=
  ⟨⟨by decide, by decide, rfl, by decide, by decide, by decide, by decide, by decide, by decide, by decide, trivial⟩,
    by decide⟩

theorem witness_EngineNeverStops :
    longCopy.work = none ∧ { inPhase .idle with err := true, errCode := 8 }.phase = .idle ∧
    { inPhase .idle with err := true, errCode := 8 }.pending = [] := by decide

theorem witness_EveryCommandEnds :
    oneBlock.pending = [] ∧ oneBlock.work = none ∧ oneBlock.phase = .cmd ∧ stepBound oneBlock = 4 := by decide

/-- An idle machine over eight stored bytes whose words sum to 0, with other contents of OUT. -/
def eightBytes (outs : List Byte) : State :=
  { inPhase .idle with
    bufLen := 8, buf := cellRun 0 [1, 0, 0, 0, 0xFF, 0xFF, 0xFF, 0xFF], out := cellRun 0 outs
    oc := BitVec.ofNat 32 outs.length }

theorem witness_ImageDependsOnBufAndModel :
    (eightBytes []).phase = .idle ∧ (eightBytes [5]).phase = .idle ∧ (eightBytes []).pending = [] ∧
    (eightBytes [5]).pending = [] ∧ (eightBytes []).work = none ∧ (eightBytes [5]).work = none ∧
    (eightBytes []).bufLen = (eightBytes [5]).bufLen ∧
    (eightBytes []).model = (eightBytes [5]).model ∧
    (∀ a, a < (eightBytes []).bufLen.toNat →
      (eightBytes []).bufAt a = (eightBytes [5]).bufAt a ∧ ((eightBytes []).bufAt a).isSome = true) ∧
    (after (exec (.cmdDecompress .little false) (eightBytes [])) fun u => after (runSteps small 3 u) fun t => t.statusWord) =
      some (some 0x304) ∧
    (after (exec (.cmdDecompress .big true) (eightBytes [5])) fun u => u.phase) = some .cmd := by decide

theorem witness_BusyWritesIgnored :
    { inPhase .cmd with pending := [.wr 0x08 5] }.phase ≠ .idle ∧ 8 % 4 = 0 ∧ 8 < 0x100 ∧ 8 ≤ 8 ∧ 0xFC % 4 = 0 ∧ 0xFC < 0x100 ∧
    { inPhase .cmd with pending := [.wr 0xFC 5] }.pending = .wr 0xFC 5 :: [] := by decide

theorem witness_IdleWritesSetOneRegister :
    { inPhase .idle with pending := [.wr 0x0C 0xFFFFFF01] }.phase = .idle ∧
    { inPhase .idle with pending := [.wr 0x0C 0xFFFFFF01] }.pending = .wr 0x0C 0xFFFFFF01 :: [] := by decide

theorem witness_ReadOnlyAndReservedOffsets :
    (0x20 % 4 = 0 ∧ 0x20 < 0x100 ∧ 0x20 ≤ 0x20 ∧ { inPhase .idle with pending := [.wr 0x20 5] }.pending = .wr 0x20 5 :: []) ∧
    (0x3C ≤ 0x3C ∧ 0x7C < 0x80 ∧ 0x7C % 4 = 0 ∧ { inPhase .idle with pending := [.rd 0x7C] }.pending = .rd 0x7C :: []) := by decide

theorem witness_RegisterReads :
    { inPhase .lTok with pending := [.rd 0x00] }.pending = .rd 0x00 :: [] ∧
    { inPhase .lTok with pending := [.rd 0x0C] }.pending = .rd 0x0C :: [] ∧
    { inPhase .lTok with pending := [.rd 0x38] }.pending = .rd 0x38 :: [] ∧
    { inPhase .lTok with pending := [.rd 0xFC] }.pending = .rd (0x80 + 4 * (31 : Fin 32).val) :: [] := by decide

theorem witness_StatusRead :
    { inPhase .lTok with pending := [.rd 0x04, .wait] }.pending = .rd 0x04 :: [.wait] := by decide

theorem witness_IrqLevel :
    (inPhase .idle).phase = .idle ∧ Ctx.admits Config.hw .ctrlWrite (.illegalCommand .big true) = true ∧
    (∀ op e ie, Instr.illegalCommand .big true ≠ .cfgCtrl op e ie) ∧ { inPhase .idle with ie := true }.ie = true ∧
    after (exec (.illegalCommand .big true) { inPhase .idle with err := true }) (fun t => t.irq) = some false := by
  exact ⟨by decide, by decide, fun _ _ _ => Instr.noConfusion, by decide, by decide⟩

theorem witness_ResetValues : 0xFC < 0x100 ∧ 0xFC % 4 = 0 ∧ 0xFC ≠ 0x34 ∧ 0xFC ≠ 0x38 := by decide

theorem witness_ResetAbandonsCommand :
    { longCopy with pending := [.reset, .wait] }.pending = .reset :: [.wait] := by decide

theorem witness_HostMemoryAccess :
    ({ inPhase .lTok with pending := [.readImage] }.phase ≠ .idle ∧
      HostOp.readImage ∈ [HostOp.load 0 [1], .storeOut 0 [1], .readBuf 0 1, .readOut 0 1, .readImage] ∧
      { inPhase .lTok with pending := [.readImage] }.pending = .readImage :: []) ∧
    ({ inPhase .idle with pending := [.load 0xFFF [7]] }.phase = .idle ∧
      { inPhase .idle with pending := [.load 0xFFF [7]] }.pending = .load 0xFFF [7] :: [] ∧
      0xFFF + [(7 : Byte)].length ≤ small.bufCap.toNat ∧ small.bufCap.toNat < 0x1000 + [(7 : Byte)].length) ∧
    ({ inPhase .idle with pending := [.storeOut 0x1FFFFFF [7]] }.pending = .storeOut 0x1FFFFFF [7] :: [] ∧
      0x1FFFFFF + [(7 : Byte)].length ≤ 0x2000000 ∧ 0x2000000 < 0x2000000 + [(7 : Byte)].length) ∧
    ({ inPhase .idle with pending := [.readBuf 0xFFF 1] }.pending = .readBuf 0xFFF 1 :: [] ∧
      0xFFF + 1 ≤ small.bufCap.toNat ∧ small.bufCap.toNat < 0xFFF + 2) ∧
    { inPhase .idle with pending := [.readOut 0 0x2000000] }.pending = .readOut 0 0x2000000 :: [] ∧
    ({ inPhase .idle with pending := [.readImage] }.pending = .readImage :: [] ∧
      { inPhase .idle with oc := 0x2000000 }.oc.toNat ≤ 0x2000000 ∧
      0x2000000 < { inPhase .idle with oc := 0x2000001 }.oc.toNat) := by decide

theorem witness_MisalignedRegAccessRefused :
    0x35 % 4 ≠ 0 ∧ { inPhase .idle with pending := [.rd 0x35] }.pending = .rd 0x35 :: [] := by decide

theorem witness_CapacityIsConstant :
    after (stepWith small { inPhase .idle with pending := [.reset] }) (fun t => readReg small 0x38 t) = some 0x1000 := by
  decide

end Sys2Proof.Tests
end

/-! PROOFS. The scope rules of 00_scope.md: the one configuration behind the host's interface, and token reads past
BEND. -/

namespace Sys2Proof.Machine

/-! ### The configuration and the registers that read it -/

/-- P_BUF_CAP is at least 1, whatever the free value is (00_scope.md R6). -/
theorem one_le_pBufCap : 1 ≤ Config.pBufCap.toNat := by
  have hlt := Config.pBufCapPred.isLt
  rw [Config.pBufCap, BitVec.toNat_ofNat]
  omega

@[simp] theorem readReg_outCap (cfg : Config) (s : State) : readReg cfg 0x34 s = BitVec.ofNat 32 cfg.outCap := rfl
@[simp] theorem readReg_bufCap (cfg : Config) (s : State) : readReg cfg 0x38 s = cfg.bufCap := rfl

/-- Settles O60: the configuration's fields are read off, and the two capacity registers read no state. -/
theorem capacityIsConstant : Obligations.CapacityIsConstant := by
  refine ⟨step_eq, one_le_pBufCap, rfl, rfl, rfl, rfl, rfl, rfl, rfl, rfl, rfl, rfl, rfl, rfl, rfl, rfl, rfl, rfl, ?_⟩
  intro cfg s t _
  simp only [readReg_outCap, readReg_bufCap, and_self]

/-! ### Faults with their registers written out -/

theorem capture_of_lt {n : Nat} (h : n < 2 ^ 32) : capture n = BitVec.ofNat 32 n := if_pos h

/-- Fault capture of values that fit their registers. -/
theorem raiseFault_eq_faultState {inp val : Nat} (c : Cause) (s : State) (hi : inp < 2 ^ 32) (hv : val < 2 ^ 32) :
    raiseFault c inp val s = faultState s (causeCode c) (BitVec.ofNat 32 inp) (BitVec.ofNat 32 val) := by
  simp only [raiseFault, faultState, capture_of_lt hi, capture_of_lt hv]

/-- IncompleteBlock(a, BLEN) at a read inside the address space (00_scope.md R13). -/
theorem incomplete_eq_faultState {a : Nat} (s : State) (ha : a < 2 ^ 32) :
    incomplete a s = .next (faultState s 7 (BitVec.ofNat 32 a) (s.blen.setWidth 32)) := by
  have hblen : s.blen.toNat < 2 ^ 32 := Nat.lt_trans s.blen.isLt (by decide)
  have hval : BitVec.ofNat 32 s.blen.toNat = s.blen.setWidth 32 := BitVec.ofNat_toNat 32 s.blen
  rw [incomplete, fault, raiseFault_eq_faultState _ _ ha hblen, hval]
  rfl

/-- A fault discards the temporaries of the token step (60_exceptions.md R141). -/
@[simp] theorem faultState_continueStep (w : Work) (s : State) (code : Byte) (inp val : Word) :
    faultState (continueStep w s) code inp val = faultState s code inp val := rfl

@[simp] theorem cursor_continueStep (w : Work) (s : State) : (continueStep w s).cursor = w := rfl

/-! ### The check `need` and the meanings where it fails -/

theorem need_of_le {s : State} {a n : Nat} (h : a + n ≤ s.bend.toNat) : need s a n = true := decide_eq_true h

theorem need_of_lt {s : State} {a n : Nat} (h : s.bend.toNat < a + n) : need s a n = false :=
  decide_eq_false (Nat.not_le.2 h)

theorem runMask_past_bend {cfg : Config} {s : State} (m : Half) (h : s.bend.toNat < s.cursor.p + 2) :
    runMask cfg m s = incomplete s.cursor.p s := by
  simp [runMask, need_of_lt h]

theorem copyToken_past_bend {cfg : Config} {s : State} (ohi : BitVec 3) (lf : BitVec 5) (olo : Byte)
    (h : s.bend.toNat < s.cursor.p + 2) : copyToken cfg ohi lf olo s = incomplete s.cursor.p s := by
  simp [copyToken, need_of_lt h]

theorem runExt_past_bend {cfg : Config} {s : State} (e : Byte) (hc : s.cursor.copy ≠ none)
    (h : s.bend.toNat < s.cursor.p + 1) : runExt cfg e s = incomplete s.cursor.p s := by
  obtain ⟨c, hc⟩ := Option.ne_none_iff_exists'.1 hc
  simp [runExt, hc, need_of_lt h]

/-- The elements the contexts of a mask word and of a copy token admit: a mask word, or one that runs as a copy
token (30_encoding.md R89). -/
theorem admits_mask_or_copy_cases {i : Instr}
    (h : Ctx.admits Config.hw .mask i = true ∨ Ctx.admits Config.hw (.token true) i = true) :
    (∃ m, i = .mask m) ∨ ∃ ohi lf olo, ∀ s, exec i s = copyToken Config.hw ohi lf olo s := by
  cases i with
  | mask m => exact .inl ⟨m, rfl⟩
  | cpy ohi lf olo => exact .inr ⟨ohi, lf, olo, fun _ => rfl⟩
  | cpyx ohi olo => exact .inr ⟨ohi, 7, olo, fun _ => rfl⟩
  | illegalZeroOffset lf => exact .inr ⟨0, lf, 0, fun _ => rfl⟩
  | _ => simp [Ctx.admits] at h

/-! ### One element of a token step -/

theorem tokenCtx_mask {w : Work} (hc : w.copy = none) (hs : w.s = 0) : tokenCtx w = .mask := by
  simp [tokenCtx, hc, hs]

theorem tokenCtx_token {w : Work} (hc : w.copy = none) (hs : w.s ≠ 0) :
    tokenCtx w = .token (decide (w.m &&& w.s ≠ 0)) := by
  simp only [tokenCtx, hc, if_neg hs]

theorem tokenCtx_extension {w : Work} (hc : w.copy ≠ none) : tokenCtx w = .extension := by
  obtain ⟨c, hc⟩ := Option.ne_none_iff_exists'.1 hc
  simp only [tokenCtx, hc]

/-- The selector of a group's first token picks bit 15 of the mask (44_lzd_tokens.md R130). -/
theorem and_firstSelector_ne_zero_iff (m : Half) : m &&& firstSelector Config.hw ≠ 0 ↔ m.getLsbD 15 = true := by
  have hsel : firstSelector Config.hw = BitVec.twoPow 16 15 := rfl
  rw [hsel, BitVec.and_twoPow]
  split
  case isTrue hm => exact iff_of_true (by decide) hm
  case isFalse hm => exact iff_of_false (not_not.2 rfl) hm

/-- An element whose bytes would pass BEND is IncompleteBlock at it (00_scope.md R13). -/
theorem tokenElement_past_bend {cfg : Config} {s : State} (hp : s.phase = .lTok)
    (h : s.bend.toNat < s.cursor.p + ctxBytes (tokenCtx s.cursor)) :
    tokenElement cfg s = incomplete s.cursor.p s := by
  rw [tokenElement, elementStep_of_not_allowed (by simp [fetchAllowed, hp, need_of_lt h])]
  simp [fetchFault, hp]

/-- A mask word below BEND opens a group, and the step goes on (44_lzd_tokens.md R130). -/
theorem tokenElement_mask {cfg : Config} {s : State} (hp : s.phase = .lTok) (hctx : tokenCtx s.cursor = .mask)
    (h : s.cursor.p + 2 ≤ s.bend.toNat) :
    tokenElement cfg s =
      .next (continueStep
        { p := s.cursor.p + 2, m := be16At s s.cursor.p, s := firstSelector cfg, copy := none } s) := by
  rw [tokenElement, hctx, elementStep_of_allowed (by simp [fetchAllowed, hp, ctxBytes, need_of_le h])
    (show fetchDecode cfg s .mask s.cursor.p = .ok (.mask (be16At s s.cursor.p)) 2 from rfl)]
  simp [run, runMask, need_of_le h]

/-- Whatever element the two bytes of a copy token select, it runs as the copy token of their fields
(30_encoding.md R84). -/
theorem run_decodeCopy (s0 s1 : Byte) (s : State) :
    run Config.hw (decodeCopy Config.hw s0 s1) s =
      copyToken Config.hw (s0.extractLsb' 5 3) (s0.extractLsb' 0 5) s1 s := by
  unfold decodeCopy
  dsimp only
  split
  case isTrue hz =>
    obtain ⟨hohi, holo⟩ := hz
    rw [hohi, holo]
    rfl
  case isFalse =>
    split
    case isTrue hlen =>
      have hlf : s0.extractLsb' 0 5 = escapeField Config.hw := by
        rw [escapeField_withBufCap]
        apply BitVec.eq_of_toNat_eq
        exact Nat.add_right_cancel (m := 3) hlen
      rw [hlf]
      rfl
    case isFalse => rfl

/-- The two bytes of a copy token with length field 7, below BEND, leave the step waiting for an extension byte
(44_lzd_tokens.md R133). -/
theorem tokenElement_escape {s : State} (hp : s.phase = .lTok) (hctx : tokenCtx s.cursor = .token true)
    (h : s.cursor.p + 2 ≤ s.bend.toNat) (hlf : (bufByte s s.cursor.p).extractLsb' 0 5 = (7 : BitVec 5)) :
    ∃ c : PendingCopy, tokenElement Config.hw s =
      .next (continueStep { s.cursor with p := s.cursor.p + 2, copy := some c } s) := by
  rw [tokenElement, hctx, elementStep_of_allowed (by simp [fetchAllowed, hp, ctxBytes, need_of_le h])
    (show fetchDecode Config.hw s (.token true) s.cursor.p =
      .ok (decodeCopy Config.hw (bufByte s s.cursor.p) (bufByte s (s.cursor.p + 1))) 2 from rfl),
    run_decodeCopy, hlf]
  have hesc : copyLength Config.hw 7 = Config.hw.escLen := rfl
  rw [copyToken]
  simp only [need_of_le h, hesc, if_true]
  exact ⟨_, rfl⟩

/-- An extension byte 0xFF below BEND leaves the step waiting for another (44_lzd_tokens.md R133). -/
theorem tokenElement_ext_ff {cfg : Config} {s : State} (hp : s.phase = .lTok) (hc : s.cursor.copy ≠ none)
    (h : s.cursor.p + 1 ≤ s.bend.toNat) (hb : bufByte s s.cursor.p = 0xFF) :
    ∃ c : PendingCopy, tokenElement cfg s =
      .next (continueStep { s.cursor with p := s.cursor.p + 1, copy := some c } s) := by
  rw [tokenElement, tokenCtx_extension hc,
    elementStep_of_allowed (by simp [fetchAllowed, hp, ctxBytes, need_of_le h])
      (show fetchDecode cfg s .extension s.cursor.p = .ok (.ext (bufByte s s.cursor.p)) 1 from rfl), hb]
  obtain ⟨c, hc⟩ := Option.ne_none_iff_exists'.1 hc
  simp only [run, runExt, hc, need_of_le h]
  exact ⟨_, rfl⟩

/-! ### The token step -/

/-- With no host action pending and no token step half done, a step in L_TOK is a token step from IC. -/
theorem step_lTok {s : State} (hpend : s.pending = []) (hp : s.phase = .lTok) (hw : s.work = none) :
    step s = tokenLoop Config.hw (s.bend.toNat - s.ic.toNat + 1) s := by
  rw [step_of_no_pending hpend]
  simp only [engineStep, hp, tokenFuel, cursor_of_none hw]

/-- A token step goes on after an element that leaves it unfinished. -/
theorem tokenLoop_continue {cfg : Config} {s : State} {w : Work} (n : Nat)
    (h : tokenElement cfg s = .next (continueStep w s)) :
    tokenLoop cfg (n + 1) s = tokenLoop cfg n (continueStep w s) := by
  rw [tokenLoop_succ cfg n s _ h]
  simp

/-- A token step whose next element would pass BEND is IncompleteBlock at that element (00_scope.md R13). -/
theorem tokenLoop_past_bend {cfg : Config} {s : State} {n : Nat} (hn : 0 < n) (hp : s.phase = .lTok)
    (h : s.bend.toNat < s.cursor.p + ctxBytes (tokenCtx s.cursor)) (ha : s.cursor.p < 2 ^ 32) :
    tokenLoop cfg n s = .next (faultState s 7 (BitVec.ofNat 32 s.cursor.p) (s.blen.setWidth 32)) := by
  obtain ⟨n, rfl⟩ := Nat.exists_eq_add_one.2 hn
  have helem := (tokenElement_past_bend (cfg := cfg) hp h).trans (incomplete_eq_faultState s ha)
  rw [tokenLoop_succ cfg n s _ helem]
  rfl

/-- A chain of extension bytes 0xFF that reaches BEND is IncompleteBlock at BEND, by induction on the fuel
(44_lzd_tokens.md R133). -/
theorem tokenLoop_ext_chain {cfg : Config} (n : Nat) (s : State) (hp : s.phase = .lTok)
    (hc : s.cursor.copy ≠ none) (hle : s.cursor.p ≤ s.bend.toNat) (hn : s.bend.toNat - s.cursor.p < n)
    (hff : ∀ a, s.cursor.p ≤ a → a < s.bend.toNat → s.bufAt a = some 0xFF) :
    tokenLoop cfg n s = .next (faultState s 7 s.bend (s.blen.setWidth 32)) := by
  induction n generalizing s with
  | zero => omega
  | succ n ih =>
    rcases Nat.eq_or_lt_of_le hle with hend | hlt
    · have hone : ctxBytes (tokenCtx s.cursor) = 1 := by rw [tokenCtx_extension hc]; rfl
      have hlt32 : s.cursor.p < 2 ^ 32 := hend ▸ s.bend.isLt
      rw [tokenLoop_past_bend (Nat.succ_pos n) hp (by omega) hlt32, hend]
      simp
    · obtain ⟨c, hstep⟩ := tokenElement_ext_ff (cfg := cfg) hp hc hlt (bufByte_of_some (hff _ (le_refl _) hlt))
      rw [tokenLoop_continue n hstep]
      have hchain := ih (continueStep { s.cursor with p := s.cursor.p + 1, copy := some c } s) hp (by simp)
        hlt (by simp only [cursor_continueStep, continueStep_bend]; omega)
        (fun a h1 h2 => hff a (Nat.le_of_succ_le h1) h2)
      simpa using hchain

/-- A step whose first element would pass BEND is IncompleteBlock at IC. -/
theorem step_past_bend {s : State} (hpend : s.pending = []) (hp : s.phase = .lTok) (hw : s.work = none)
    (h : s.bend.toNat < s.ic.toNat + ctxBytes (tokenCtx s.cursor)) :
    step s = .next (faultState s 7 s.ic (s.blen.setWidth 32)) := by
  have hcur : s.cursor.p = s.ic.toNat := by rw [cursor_of_none hw]
  rw [step_lTok hpend hp hw, tokenLoop_past_bend (Nat.succ_pos _) hp (by rwa [hcur]) (hcur ▸ s.ic.isLt), hcur]
  simp

/-- After a mask word below BEND, a token that would pass BEND is IncompleteBlock at that token, in the same step. -/
theorem step_token_after_mask_past_bend {s : State} {m : Half} (hpend : s.pending = []) (hp : s.phase = .lTok)
    (hw : s.work = none) (hm : m = be16At s s.ic.toNat) (hsel : s.sel = 0) (hmask : s.ic.toNat + 2 ≤ s.bend.toNat)
    (h : s.bend.toNat < s.ic.toNat + 2 + (if m.getLsbD 15 then 2 else 1)) :
    step s = .next (faultState s 7 (BitVec.ofNat 32 (s.ic.toNat + 2)) (s.blen.setWidth 32)) := by
  have hcur := cursor_of_none hw
  have helem := tokenElement_mask (cfg := Config.hw) hp (tokenCtx_mask (by rw [hcur]) (by rw [hcur]; exact hsel))
    (by rw [hcur]; exact hmask)
  simp only [hcur, ← hm] at helem
  have hctx : tokenCtx { p := s.ic.toNat + 2, m := m, s := firstSelector Config.hw, copy := none } =
      .token (m.getLsbD 15) := by
    have hsel : firstSelector Config.hw ≠ 0 := by decide
    rw [tokenCtx_token rfl hsel]
    simp only [and_firstSelector_ne_zero_iff, Bool.decide_eq_true]
  have hbytes : ctxBytes (.token (m.getLsbD 15)) = if m.getLsbD 15 then 2 else 1 := by cases m.getLsbD 15 <;> rfl
  have hlt : s.ic.toNat + 2 < 2 ^ 32 := Nat.lt_of_le_of_lt hmask s.bend.isLt
  have hfuel : 0 < s.bend.toNat - s.ic.toNat := by omega
  rw [step_lTok hpend hp hw, tokenLoop_continue _ helem]
  refine tokenLoop_past_bend (s := continueStep _ s) hfuel hp ?_ hlt
  rwa [cursor_continueStep, hctx, hbytes]

/-- A copy token with length field 7 whose extension bytes are all 0xFF up to BEND is IncompleteBlock at BEND. -/
theorem step_ext_chain_past_bend {s : State} (hpend : s.pending = []) (hp : s.phase = .lTok) (hw : s.work = none)
    (hsel : s.sel ≠ 0) (hbit : s.mask &&& s.sel ≠ 0) (hle : s.ic.toNat + 2 ≤ s.bend.toNat)
    (hlf : (bufByte s s.ic.toNat).extractLsb' 0 5 = (7 : BitVec 5))
    (hff : ∀ a, s.ic.toNat + 2 ≤ a → a < s.bend.toNat → s.bufAt a = some 0xFF) :
    step s = .next (faultState s 7 s.bend (s.blen.setWidth 32)) := by
  have hcur := cursor_of_none hw
  have hctx : tokenCtx s.cursor = .token true := by
    rw [hcur, tokenCtx_token rfl hsel, decide_eq_true hbit]
  obtain ⟨c, hstep⟩ := tokenElement_escape hp hctx (by rw [hcur]; exact hle) (by rw [hcur]; exact hlf)
  simp only [hcur] at hstep
  rw [step_lTok hpend hp hw, tokenLoop_continue _ hstep]
  refine tokenLoop_ext_chain _ (continueStep _ s) hp (Option.some_ne_none c) hle ?_ hff
  simp only [cursor_continueStep, continueStep_bend]
  omega

/-- Settles O22: each element's meaning fails its own `need`, and a step faults at the first element that passes
BEND, with the elements before it discarded. -/
theorem tokenReadPastRegionFaults : Obligations.TokenReadPastRegionFaults := by
  refine ⟨fun s hlt => ⟨fun hpast i hi => ?_, fun hpast hc e => ?_⟩,
    fun s m hpend hp hw hm => ⟨fun hsel hpast => ?_, fun hsel hmask hpast => ?_, fun hsel hbit hpast => ?_,
      fun hsel hbit hpast => ?_, fun hsel hbit hle hlf hff => ?_⟩⟩
  · rw [← incomplete_eq_faultState s hlt]
    rcases admits_mask_or_copy_cases hi with ⟨m, rfl⟩ | ⟨ohi, lf, olo, hexec⟩
    · exact runMask_past_bend m hpast
    · rw [hexec, copyToken_past_bend ohi lf olo hpast]
  · rw [← incomplete_eq_faultState s hlt]
    exact runExt_past_bend e hc hpast
  · have hctx : tokenCtx s.cursor = .mask := by rw [cursor_of_none hw, tokenCtx_mask rfl hsel]
    exact step_past_bend hpend hp hw (by rw [hctx]; exact hpast)
  · exact step_token_after_mask_past_bend hpend hp hw hm hsel hmask hpast
  · have hctx : tokenCtx s.cursor = .token false := by
      rw [cursor_of_none hw, tokenCtx_token rfl hsel, decide_eq_false (not_not.2 hbit)]
    exact step_past_bend hpend hp hw (by rw [hctx]; exact hpast)
  · have hctx : tokenCtx s.cursor = .token true := by
      rw [cursor_of_none hw, tokenCtx_token rfl hsel, decide_eq_true hbit]
    exact step_past_bend hpend hp hw (by rw [hctx]; exact hpast)
  · exact step_ext_chain_past_bend hpend hp hw hsel hbit hle hlf hff

end Sys2Proof.Machine
/-! PROOFS. The engine's step and the machine's invariant (10_state.md R22, R30, R33, R36): what one engine step and one
host action can do, and that each keeps `MachineInv`. -/

namespace Sys2Proof.Machine

section
variable {cap : Word} {s t : State}

/-! ### The facts of each phase -/

theorem phaseInv_of_idle (h : s.phase = .idle) : phaseInv cap s := by simp only [phaseInv, h]

theorem phaseInv_cmd (h : s.phase = .cmd) : phaseInv cap s ↔ s.ic = 0 ∧ s.oc = 0 := by simp only [phaseInv, h]

theorem phaseInv_check_or_sig (h : s.phase = .lCheck ∨ s.phase = .lSig) :
    phaseInv cap s ↔ s.ic = 0 ∧ s.oc = 0 ∧ s.op = 0 ∧ s.bufLen.toNat ≤ cap.toNat := by
  rcases h with h | h <;> simp only [phaseInv, h]

theorem phaseInv_lHdr (h : s.phase = .lHdr) :
    phaseInv cap s ↔
      s.op = 0 ∧ s.bufLen.toNat ≤ cap.toNat ∧ (s.ic.toNat = 0x200 ∨ s.ic.toNat + 6 ≤ s.bufLen.toNat) := by
  simp only [phaseInv, h]

theorem phaseInv_lTok (h : s.phase = .lTok) :
    phaseInv cap s ↔
      s.op = 0 ∧ s.bufLen.toNat ≤ cap.toNat ∧ BlockInv s ∧ s.bstart.toNat ≤ s.ic.toNat ∧
        s.ic.toNat < s.bend.toNat ∧ selLegal s.sel = true := by
  simp only [phaseInv, h]

theorem phaseInv_lTrl (h : s.phase = .lTrl) :
    phaseInv cap s ↔ s.op = 0 ∧ s.bufLen.toNat ≤ cap.toNat ∧ BlockInv s ∧ s.ic = s.bend := by
  simp only [phaseInv, h]

theorem phaseInv_lRaw (h : s.phase = .lRaw) :
    phaseInv cap s ↔
      s.op = 0 ∧ s.bufLen.toNat ≤ cap.toNat ∧ s.bstart.toNat + s.blen.toNat + 6 ≤ s.bufLen.toNat ∧
        s.rawn.toNat ≤ s.blen.toNat ∧ 0 < s.blen.toNat ∧ s.ic = s.bstart := by
  simp only [phaseInv, h]

theorem phaseInv_xIv (h : s.phase = .xIv) :
    phaseInv cap s ↔ s.ic = 0 ∧ s.oc = 0 ∧ (s.op = 1 ∨ s.op = 2) ∧ s.bufLen.toNat ≤ cap.toNat := by
  simp only [phaseInv, h]

theorem phaseInv_xChk (h : s.phase = .xChk) :
    phaseInv cap s ↔ s.ic = 0 ∧ s.oc = 0 ∧ s.op = 1 ∧ s.bufLen.toNat ≤ cap.toNat := by
  simp only [phaseInv, h]

theorem phaseInv_xBlk (h : s.phase = .xBlk) :
    phaseInv cap s ↔
      s.oc = 0 ∧ s.op = 1 ∧ s.bufLen.toNat ≤ cap.toNat ∧
        s.xbase.toNat + s.xstart.toNat + s.xlen.toNat ≤ s.bufLen.toNat ∧
        s.xbase.toNat + s.xstart.toNat ≤ s.ic.toNat ∧
        s.ic.toNat < s.xbase.toNat + s.xstart.toNat + s.xlen.toNat ∧
        (s.ic.toNat - (s.xbase.toNat + s.xstart.toNat)) % 0x80 = 0 ∧ s.xlen.toNat % 0x80 = 0 := by
  simp only [phaseInv, h]

theorem BlockInv.congr (h : BlockInv s) (hstart : t.bstart = s.bstart) (hlen : t.blen = s.blen)
    (hend : t.bend = s.bend) (hbuf : t.bufLen = s.bufLen) : BlockInv t where
  fits := by rw [hstart, hlen, hbuf]; exact h.fits
  trailerRoom := by rw [hlen]; exact h.trailerRoom
  bendEq := by rw [hstart, hlen, hend]; exact h.bendEq

/-- The facts of a phase read neither the memories nor the flags nor the host's side. -/
theorem phaseInv_congr (h : phaseInv cap s)
    (ht : t = { s with ie := t.ie, pending := t.pending, rdData := t.rdData, memData := t.memData,
                       draws := t.draws, done := t.done, err := t.err, errCode := t.errCode }) :
    phaseInv cap t := by
  rw [ht]
  cases hp : s.phase
  all_goals simp only [phaseInv, hp] at h ⊢
  case lTok => obtain ⟨hop, hcap, hb, hrest⟩ := h; exact ⟨hop, hcap, hb.congr rfl rfl rfl rfl, hrest⟩
  case lTrl => obtain ⟨hop, hcap, hb, hrest⟩ := h; exact ⟨hop, hcap, hb.congr rfl rfl rfl rfl, hrest⟩
  all_goals exact h

/-! ### The parts of the invariant -/

/-- The part of the invariant about the two memories and the output cursor (20_memory.md R60, R61). -/
structure MemoriesInv (cap : Word) (buf out : Memory) (oc : Word) : Prop where
  bufWf : memoryWf buf = true
  outWf : memoryWf out = true
  bufBelow : memoryBelow buf cap.toNat = true
  outBelow : memoryBelow out 0x2000000 = true
  outputFits : oc.toNat ≤ 0x2000000

theorem MachineInv.memories (h : MachineInv cap s) : MemoriesInv cap s.buf s.out s.oc :=
  ⟨h.bufWf, h.outWf, h.bufBelow, h.outBelow, h.outputFits⟩

/-- While a command runs no flag is up and no fault code stands (10_state.md R22; 40_host_commands.md R101). -/
theorem MachineInv.flags_of_busy (h : MachineInv cap s) (hp : s.phase ≠ .idle) :
    s.done = false ∧ s.err = false ∧ s.errCode = 0 := by
  obtain ⟨hdone, herr⟩ := h.busyClear (by simpa [State.busy] using hp)
  exact ⟨hdone, herr, h.codeIff.2 herr⟩

/-- A running machine has the invariant if its memories and its phase are in order. -/
theorem MachineInv.of_running (hm : MemoriesInv cap t.buf t.out t.oc)
    (hf : t.done = false ∧ t.err = false ∧ t.errCode = 0) (hw : t.work = none) (hp : phaseInv cap t) :
    MachineInv cap t := by
  obtain ⟨hdone, herr, hcode⟩ := hf
  exact ⟨hm.bufWf, hm.outWf, hm.bufBelow, hm.outBelow, by simp [hcode, herr], by simp [hcode], by simp [herr],
    fun _ => ⟨hdone, herr⟩, hm.outputFits, hw, hp⟩

/-- An idle machine has the invariant if its memories and its flags are in order. -/
theorem MachineInv.of_idle (hi : t.phase = .idle) (hm : MemoriesInv cap t.buf t.out t.oc)
    (hc : t.errCode = 0 ↔ t.err = false) (hr : t.errCode.toNat ≤ 12) (hn : ¬(t.done = true ∧ t.err = true))
    (hw : t.work = none) : MachineInv cap t :=
  ⟨hm.bufWf, hm.outWf, hm.bufBelow, hm.outBelow, hc, hr, hn, by simp [State.busy, hi], hm.outputFits, hw,
    phaseInv_of_idle hi⟩

/-- An idle machine's configuration registers, memories and host side may change as they like. -/
theorem MachineInv.idle_congr (h : MachineInv cap s) (hi : t.phase = .idle)
    (hm : MemoriesInv cap t.buf t.out t.oc) (hd : t.done = s.done) (he : t.err = s.err) (hc : t.errCode = s.errCode)
    (hw : t.work = s.work) : MachineInv cap t := by
  refine .of_idle hi hm ?_ ?_ ?_ (hw.trans h.noWork)
  · rw [hc, he]; exact h.codeIff
  · rw [hc]; exact h.codeRange
  · rw [hd, he]; exact h.notBoth

theorem MachineInv.of_complete (hm : MemoriesInv cap t.buf t.out t.oc)
    (hf : t.done = false ∧ t.err = false ∧ t.errCode = 0) : MachineInv cap (complete t) := by
  obtain ⟨-, herr, hcode⟩ := hf
  exact .of_idle rfl hm (by simp [hcode, herr]) (by simp [hcode]) (by simp [herr]) rfl

theorem causeCode_ne_zero (c : Cause) : causeCode c ≠ 0 := by cases c <;> decide

theorem causeCode_toNat_le (c : Cause) : (causeCode c).toNat ≤ 12 := by cases c <;> decide

theorem MachineInv.of_fault (h : MachineInv cap s) (hp : s.phase ≠ .idle) (c : Cause) (inp val : Nat) :
    MachineInv cap (raiseFault c inp val s) := by
  obtain ⟨hdone, -, -⟩ := h.flags_of_busy hp
  exact .of_idle rfl h.memories (iff_of_false (causeCode_ne_zero c) (by simp)) (by simpa using causeCode_toNat_le c)
    (by simp [hdone]) rfl

theorem MemoriesInv.emitted (h : MemoriesInv cap s.buf s.out s.oc) (he : Emitted s t) :
    MemoriesInv cap t.buf t.out t.oc where
  bufWf := by rw [he.buf_eq]; exact h.bufWf
  outWf := he.wf h.outWf
  bufBelow := by rw [he.buf_eq]; exact h.bufBelow
  outBelow := he.below h.outBelow
  outputFits := he.cap

theorem MemoriesInv.store_buf {buf out : Memory} {oc : Word} (h : MemoriesInv cap buf out oc) (a : Nat) (bs : List Byte)
    (hn : a + bs.length ≤ cap.toNat) : MemoriesInv cap (storeBytes buf a bs) out oc where
  bufWf := memoryWf_storeBytes _ _ _ h.bufWf
  outWf := h.outWf
  bufBelow := memoryBelow_storeBytes _ _ _ _ h.bufBelow hn
  outBelow := h.outBelow
  outputFits := h.outputFits

theorem MemoriesInv.store_out {buf out : Memory} {oc : Word} (h : MemoriesInv cap buf out oc) (a : Nat) (bs : List Byte)
    (hn : a + bs.length ≤ 0x2000000) : MemoriesInv cap buf (storeBytes out a bs) oc where
  bufWf := h.bufWf
  outWf := memoryWf_storeBytes _ _ _ h.outWf
  bufBelow := h.bufBelow
  outBelow := memoryBelow_storeBytes _ _ _ _ h.outBelow hn
  outputFits := h.outputFits

/-- IE, the host's list, what the host has read and the draw counter are no part of the invariant. -/
theorem MachineInv.host_congr (h : MachineInv cap s)
    (ht : t = { s with ie := t.ie, pending := t.pending, rdData := t.rdData, memData := t.memData, draws := t.draws }) :
    MachineInv cap t := by
  have hp : phaseInv cap t := phaseInv_congr h.phaseFacts (by rw [ht])
  rw [ht] at hp ⊢
  exact ⟨h.bufWf, h.outWf, h.bufBelow, h.outBelow, h.codeIff, h.codeRange, h.notBoth, h.busyClear, h.outputFits,
    h.noWork, hp⟩

end

end Sys2Proof.Machine

namespace Sys2Proof.Machine

section
variable {cap : Word} {s t : State}

/-! ### The engine's steps and the invariant -/

theorem selLegal_iff (v : Half) : selLegal v = true ↔ v = 0 ∨ ∃ k < 16, v = BitVec.ofNat 16 (2 ^ k) := by
  simp [selLegal]

/-- Moving the selector on leaves it 0 or one-hot (44_lzd_tokens.md R130). -/
theorem selLegal_shift {v : Half} (h : selLegal v = true) : selLegal (v >>> 1) = true := by
  have hpow : ∀ k < 16, selLegal (BitVec.ofNat 16 (2 ^ k) >>> 1) = true := by decide
  rcases (selLegal_iff v).1 h with rfl | ⟨k, hk, rfl⟩
  · decide
  · exact hpow k hk

/-- Between steps the token step's cursor is IC and its selector SEL (44_lzd_tokens.md R129). -/
theorem MachineInv.cursor_p (h : MachineInv cap s) : s.cursor.p = s.ic.toNat := by rw [cursor_of_none h.noWork]

theorem MachineInv.cursor_s (h : MachineInv cap s) : s.cursor.s = s.sel := by rw [cursor_of_none h.noWork]

/-- A raw block's header that fits: the block lies inside BUF from the new IC on (43_lzd_blocks.md R121, R123). -/
theorem MachineInv.rawBlock (h : MachineInv cap s) (hp : s.phase = .lHdr) (len n : Nat)
    (hl : len = 0xC002 ∧ n = 0xC000 ∨ len = 0x6000 ∧ n = 0x6000)
    (hf : s.ic.toNat + 2 + len + 6 ≤ s.bufLen.toNat) :
    MachineInv cap { enterBlock len s with rawn := BitVec.ofNat 16 n, phase := .lRaw } := by
  obtain ⟨hop, hcap, -⟩ := (phaseInv_lHdr hp).1 h.phaseFacts
  have hbuf := s.bufLen.isLt
  refine .of_running h.memories (h.flags_of_busy (by simp [hp])) h.noWork
    ((phaseInv_lRaw rfl).2 ⟨hop, hcap, ?_, ?_, ?_, rfl⟩) <;>
    simp only [enterBlock_bstart, enterBlock_blen, enterBlock_bufLen, BitVec.toNat_ofNat] <;> omega

/-- A token block's header that fits: the block, its trailer and its token region lie inside BUF from the new IC on
(43_lzd_blocks.md R121, R123). -/
theorem MachineInv.tokenBlock (h : MachineInv cap s) (hp : s.phase = .lHdr) (len : Half) (hl : 2 ≤ len.toNat)
    (hf : s.ic.toNat + 2 + len.toNat + 6 ≤ s.bufLen.toNat) :
    MachineInv cap { enterBlock len.toNat s with
      bend := BitVec.ofNat 32 (s.ic.toNat + 2 + len.toNat - 2), mask := 0, sel := 0,
      phase := if len.toNat = 2 then .lTrl else .lTok } := by
  obtain ⟨hop, hcap, -⟩ := (phaseInv_lHdr hp).1 h.phaseFacts
  have hbuf := s.bufLen.isLt
  have hlen := len.isLt
  have hblock (p : Phase) : BlockInv { enterBlock len.toNat s with
      bend := BitVec.ofNat 32 (s.ic.toNat + 2 + len.toNat - 2), mask := 0, sel := 0, phase := p } := by
    constructor <;>
      simp only [enterBlock_bstart, enterBlock_blen, enterBlock_bufLen, BitVec.toNat_ofNat] <;> omega
  refine .of_running h.memories (h.flags_of_busy (by simp [hp])) h.noWork ?_
  split
  · refine (phaseInv_lTrl rfl).2 ⟨hop, hcap, hblock _, ?_⟩
    simp [*]
  · refine (phaseInv_lTok rfl).2 ⟨hop, hcap, hblock _, ?_, ?_, (by decide : selLegal 0 = true)⟩ <;>
      simp only [enterBlock_bstart, enterBlock_ic, BitVec.toNat_ofNat] <;> omega

/-- A committed token leaves IC inside the token region or at its end (44_lzd_tokens.md R129). -/
theorem MachineInv.token (h : MachineInv cap s) (hp : s.phase = .lTok) (w : Work) (h1 : s.cursor.p < w.p)
    (h2 : w.p ≤ s.bend.toNat) (h3 : w.s = 0x8000 ∨ w.s = s.cursor.s) (h4 : Emitted s t) :
    MachineInv cap (commitToken w t) := by
  obtain ⟨hop, hcap, hblock, hstart, hic, hsel⟩ := (phaseInv_lTok hp).1 h.phaseFacts
  rw [h.cursor_p] at h1
  rw [h.cursor_s] at h3
  have hbend := s.bend.isLt
  have hp32 : (BitVec.ofNat 32 w.p).toNat = w.p := by rw [BitVec.toNat_ofNat]; omega
  have hblock' : BlockInv (commitToken w t) := hblock.congr h4.bstart_eq h4.blen_eq h4.bend_eq h4.bufLen_eq
  have hop' : (commitToken w t).op = 0 := h4.op_eq.trans hop
  have hcap' : (commitToken w t).bufLen.toNat ≤ cap.toNat := by rw [commitToken_bufLen, h4.bufLen_eq]; exact hcap
  have hsel' : selLegal (commitToken w t).sel = true := by
    refine selLegal_shift ?_
    rcases h3 with h3 | h3 <;> rw [h3]
    · decide
    · exact hsel
  refine .of_running (show MemoriesInv cap t.buf t.out t.oc from h.memories.emitted h4) ?_ rfl ?_
  · simpa [h4.done_eq, h4.err_eq, h4.errCode_eq] using h.flags_of_busy (by simp [hp])
  · by_cases hend : BitVec.ofNat 32 w.p = t.bend
    · exact (phaseInv_lTrl (by simp [hend])).2 ⟨hop', hcap', hblock', by simpa using hend⟩
    · refine (phaseInv_lTok (by simp [hend, h4.phase_eq, hp])).2 ⟨hop', hcap', hblock', ?_, ?_, hsel'⟩
      · rw [commitToken_bstart, commitToken_ic, h4.bstart_eq, hp32]
        omega
      · have hne : w.p ≠ s.bend.toNat := fun he => hend (by rw [h4.bend_eq, he, BitVec.ofNat_toNat]; simp)
        rw [commitToken_bend, commitToken_ic, h4.bend_eq, hp32]
        omega

/-- After a block inside BUF the next header lies inside BUF too (43_lzd_blocks.md R126, R127). -/
theorem MachineInv.of_leaveBlock (hm : MemoriesInv cap t.buf t.out t.oc)
    (hf : t.done = false ∧ t.err = false ∧ t.errCode = 0) (hw : t.work = none) (hop : t.op = 0)
    (hcap : t.bufLen.toNat ≤ cap.toNat) (hfits : t.bstart.toNat + t.blen.toNat + 6 ≤ t.bufLen.toNat) :
    MachineInv cap (leaveBlock t) := by
  have hbuf := t.bufLen.isLt
  refine .of_running hm hf hw ((phaseInv_lHdr rfl).2 ⟨hop, hcap, .inr ?_⟩)
  rw [leaveBlock_ic, leaveBlock_bufLen, BitVec.toNat_ofNat]
  omega

/-- The IV step's two ends, whatever the key it loads (41_xke_keystream.md R108). -/
theorem MachineInv.keygen (h : MachineInv cap s) (hp : s.phase = .xIv) (key : Vector Word 32) :
    MachineInv cap (complete (redraw { s with key := key })) :=
  .of_complete h.memories (h.flags_of_busy (by simp [hp]))

theorem MachineInv.keyed (h : MachineInv cap s) (hp : s.phase = .xIv) (hop : s.op ≠ 2) (key : Vector Word 32) :
    MachineInv cap { redraw { s with key := key } with phase := .xChk } := by
  obtain ⟨hic, hoc, hops, hcap⟩ := (phaseInv_xIv hp).1 h.phaseFacts
  exact .of_running h.memories (h.flags_of_busy (by simp [hp])) h.noWork
    ((phaseInv_xChk rfl).2 ⟨hic, hoc, hops.resolve_right hop, hcap⟩)

/-- The block at IC lies inside the region, so inside BUF: IC has moved from the region's start by whole blocks
(41_xke_keystream.md R111). -/
theorem MachineInv.block_fits (h : MachineInv cap s) (hp : s.phase = .xBlk) :
    s.ic.toNat + 0x80 ≤ s.xbase.toNat + s.xstart.toNat + s.xlen.toNat ∧ s.ic.toNat + 0x80 ≤ cap.toNat := by
  obtain ⟨-, -, hcap, hend, hstart, hlt, hmod, hlen⟩ := (phaseInv_xBlk hp).1 h.phaseFacts
  omega

theorem MachineInv.xorStored (h : MachineInv cap s) (hp : s.phase = .xBlk) :
    MemoriesInv cap (storeBytes s.buf s.ic.toNat (xorBlock (.withBufCap cap) s)) s.out s.oc :=
  h.memories.store_buf _ _ (by rw [length_xorBlock]; exact (h.block_fits hp).2)

/-- A block that is not the last leaves IC at the next one, inside the region. -/
theorem MachineInv.block (h : MachineInv cap s) (hp : s.phase = .xBlk)
    (he : s.ic.toNat + 0x80 ≠ s.xbase.toNat + s.xstart.toNat + s.xlen.toNat) :
    MachineInv cap { s with
      buf := storeBytes s.buf s.ic.toNat (xorBlock (.withBufCap cap) s), ic := BitVec.ofNat 32 (s.ic.toNat + 0x80) } := by
  obtain ⟨hoc, hop, hcap, hend, hstart, hlt, hmod, hlen⟩ := (phaseInv_xBlk hp).1 h.phaseFacts
  obtain ⟨hregion, -⟩ := h.block_fits hp
  have hbuf := s.bufLen.isLt
  have hic : (BitVec.ofNat 32 (s.ic.toNat + 0x80)).toNat = s.ic.toNat + 0x80 := by rw [BitVec.toNat_ofNat]; omega
  refine .of_running (h.xorStored hp) (h.flags_of_busy (by simp [hp])) h.noWork
    ((phaseInv_xBlk (by exact hp)).2 ⟨hoc, hop, hcap, hend, ?_, ?_, ?_, hlen⟩) <;> simp only [hic] <;> omega

/-- Whatever an engine step does keeps the invariant. -/
theorem EngineResult.keeps_inv (h : MachineInv cap s) (r : EngineResult cap s t) : MachineInv cap t := by
  cases r with
  | stutter _ => exact h
  | fault hp c inp val _ => exact h.of_fault hp c inp val
  | toCheck hp hop hb =>
    obtain ⟨hic, hoc⟩ := (phaseInv_cmd hp).1 h.phaseFacts
    exact .of_running h.memories (h.flags_of_busy (by simp [hp])) h.noWork
      ((phaseInv_check_or_sig (.inl rfl)).2 ⟨hic, hoc, hop, hb⟩)
  | toIv hp hop hb =>
    obtain ⟨hic, hoc⟩ := (phaseInv_cmd hp).1 h.phaseFacts
    exact .of_running h.memories (h.flags_of_busy (by simp [hp])) h.noWork
      ((phaseInv_xIv rfl).2 ⟨hic, hoc, hop, hb⟩)
  | toSig hp =>
    exact .of_running h.memories (h.flags_of_busy (by simp [hp])) h.noWork
      ((phaseInv_check_or_sig (.inr rfl)).2 ((phaseInv_check_or_sig (.inl hp)).1 h.phaseFacts))
  | toHdr hp _ =>
    obtain ⟨-, -, hop, hcap⟩ := (phaseInv_check_or_sig (.inr hp)).1 h.phaseFacts
    exact .of_running h.memories (h.flags_of_busy (by simp [hp])) h.noWork
      ((phaseInv_lHdr rfl).2 ⟨hop, hcap, .inl rfl⟩)
  | streamEnd hp _ _ => exact .of_complete h.memories (h.flags_of_busy (by simp [hp]))
  | rawBlock hp _ _ len n hl hf => exact h.rawBlock hp len n hl hf
  | tokenBlock hp _ _ len hl hf => exact h.tokenBlock hp len hl hf
  | token hp w t h1 h2 h3 h4 => exact h.token hp w h1 h2 h3 h4
  | trailer hp _ =>
    obtain ⟨hop, hcap, hblock, -⟩ := (phaseInv_lTrl hp).1 h.phaseFacts
    exact .of_leaveBlock h.memories (h.flags_of_busy (by simp [hp])) h.noWork hop hcap hblock.fits
  | payload hp hr =>
    obtain ⟨hop, hcap, hfits, -, -, -⟩ := (phaseInv_lRaw hp).1 h.phaseFacts
    exact .of_leaveBlock (h.memories.emitted (emitted_payload s hr)) (h.flags_of_busy (by simp [hp])) h.noWork hop hcap
      hfits
  | keygen hp _ _ => exact h.keygen hp _
  | keyed hp hop _ => exact h.keyed hp hop _
  | noBlocks hp _ _ => exact .of_complete h.memories (h.flags_of_busy (by simp [hp]))
  | toBlocks hp hs hm hl hb =>
    obtain ⟨-, hoc, hop, hcap⟩ := (phaseInv_xChk hp).1 h.phaseFacts
    have hbuf := s.bufLen.isLt
    have hlen : s.xlen.toNat ≠ 0 := fun h0 => hl (BitVec.eq_of_toNat_eq h0)
    have hic : (BitVec.ofNat 32 (s.xbase.toNat + s.xstart.toNat)).toNat = s.xbase.toNat + s.xstart.toNat := by
      rw [BitVec.toNat_ofNat]; omega
    refine .of_running h.memories (h.flags_of_busy (by simp [hp])) h.noWork
      ((phaseInv_xBlk rfl).2 ⟨hoc, hop, hcap, hb, ?_, ?_, ?_, hm⟩) <;> simp only [hic] <;> omega
  | block hp he => exact h.block hp he
  | lastBlock hp _ => exact .of_complete (h.xorStored hp) (h.flags_of_busy (by simp [hp]))

/-- Every engine step keeps the invariant. -/
theorem engineStep_keeps_inv (h : MachineInv cap s) (hs : engineStep (.withBufCap cap) s = .next t) :
    MachineInv cap t :=
  (engineStep_result hs).keeps_inv h

end

/-! ### The engine always moves -/

/-- Settles O44: by the cases of `EngineResult`, where the invariant bounds the new IC below 2^32. -/
theorem cursorStrictlyAdvances : Obligations.CursorStrictlyAdvances := by
  intro cap s t h hphase hs
  have hbuf := s.bufLen.isLt
  have hbend := s.bend.isLt
  cases engineStep_result hs with
  | fault _ c inp val _ => exact .inl rfl
  | streamEnd hp hb _ =>
    right
    simp only [complete_ic, BitVec.toNat_ofNat]
    omega
  | rawBlock hp hb _ len n _ _ =>
    right
    simp only [enterBlock_ic, BitVec.toNat_ofNat]
    omega
  | tokenBlock hp hb _ len _ _ =>
    right
    simp only [enterBlock_ic, BitVec.toNat_ofNat]
    omega
  | token hp w t h1 h2 _ _ =>
    right
    rw [h.cursor_p] at h1
    simp only [commitToken_ic, BitVec.toNat_ofNat]
    omega
  | trailer hp _ =>
    obtain ⟨-, -, hblock, hic⟩ := (phaseInv_lTrl hp).1 h.phaseFacts
    obtain ⟨hfits, hroom, hend⟩ := hblock
    right
    simp only [leaveBlock_ic, BitVec.toNat_ofNat, hic]
    omega
  | payload hp _ =>
    obtain ⟨-, -, hfits, -, hpos, hic⟩ := (phaseInv_lRaw hp).1 h.phaseFacts
    right
    simp only [leaveBlock_ic, emit_bstart, emit_blen, BitVec.toNat_ofNat, hic]
    omega
  | stutter hp | toCheck hp | toIv hp | toSig hp | toHdr hp | keygen hp | keyed hp | noBlocks hp | toBlocks hp
  | block hp | lastBlock hp => simp [hp] at hphase

theorem engineStep_of_idle {cfg : Config} {s : State} (h : s.phase = .idle) : engineStep cfg s = .next s := by
  simp only [engineStep, h]

/-- The engine has its next step in every phase: where it decodes an element, the decoder answers. -/
theorem exists_engineStep (cap : Word) (s : State) : ∃ t, engineStep (.withBufCap cap) s = .next t := by
  cases hp : s.phase
  case lHdr =>
    rw [engineStep_lHdr s hp]
    split
    · obtain ⟨t, ht, -⟩ := engineResult_header (cap := cap) s hp ‹_›
      exact ⟨t, ht⟩
    · exact ⟨_, rfl⟩
  case lTok =>
    obtain ⟨t, ht, -⟩ := engineStep_lTok (cap := cap) s hp
    exact ⟨t, ht⟩
  case lTrl =>
    rw [engineStep_lTrl s hp]
    split <;> exact ⟨_, rfl⟩
  all_goals
    simp only [engineStep, hp]
    exact ⟨_, rfl⟩

/-- Settles O45: the step of each phase, and the stutter in IDLE. -/
theorem engineNeverStops : Obligations.EngineNeverStops := by
  refine ⟨fun cap s _ => exists_engineStep cap s, fun cap s h => engineStep_of_idle h, fun s h hpend => ?_⟩
  rw [step_of_no_pending hpend, engineStep_of_idle h]

end Sys2Proof.Machine

/-! PROOFS. The host's side (10_state.md R19 to R29, R39): what a host action can do, that it keeps the invariant, and
what REG reads and writes give. -/

namespace Sys2Proof.Machine

section
variable {cfg : Config} {cap : Word} {s t : State} {off : Nat} {v : Word} {rest : List HostOp}

/-! ### Which REG accesses there are -/

theorem regRefusal_of_aligned (ha : off % 4 = 0) (hlt : off < 0x100) : regRefusal off = none := by
  rw [regRefusal, if_neg (not_not.2 ha), if_neg (by omega)]

theorem regRefusal_of_misaligned (h : off % 4 ≠ 0) : regRefusal off = some .regMisaligned := if_pos h

theorem hostRead_of_aligned (ha : off % 4 = 0) (hlt : off < 0x100) :
    hostRead cfg off s = .next { s with rdData := readReg cfg off s } := by
  simp only [hostRead, regRefusal_of_aligned ha hlt]

/-- A write past CTRL and STATUS is no instruction: it writes a register (30_encoding.md R89). -/
theorem hostWrite_of_aligned (ha : off % 4 = 0) (hlt : off < 0x100) (h8 : 8 ≤ off) :
    hostWrite cfg off v s = .next (writeReg off v s) := by
  have hdec : regWriteDecode cfg off v = none := by
    rw [regWriteDecode, if_neg (by omega), if_neg (by omega)]
  simp only [hostWrite, regRefusal_of_aligned ha hlt, hdec]

/-! ### Writes to the registers -/

theorem whileIdle_of_idle (h : s.phase = .idle) (k : State → State) : whileIdle k s = k s :=
  if_neg (by simp [State.busy, h])

theorem whileIdle_of_busy (h : s.phase ≠ .idle) (k : State → State) : whileIdle k s = s :=
  if_pos (by simpa [State.busy] using h)

theorem writeReg_bufLen (h : s.phase = .idle) : writeReg 0x08 v s = { s with bufLen := v } := by
  simp [writeReg, whileIdle_of_idle h]
theorem writeReg_model (h : s.phase = .idle) : writeReg 0x0C v s = { s with model := v.extractLsb' 0 8 } := by
  simp [writeReg, whileIdle_of_idle h]
theorem writeReg_xbase (h : s.phase = .idle) : writeReg 0x10 v s = { s with xbase := v } := by
  simp [writeReg, whileIdle_of_idle h]
theorem writeReg_xivoff (h : s.phase = .idle) : writeReg 0x14 v s = { s with xivoff := v } := by
  simp [writeReg, whileIdle_of_idle h]
theorem writeReg_xstart (h : s.phase = .idle) : writeReg 0x18 v s = { s with xstart := v } := by
  simp [writeReg, whileIdle_of_idle h]
theorem writeReg_xlen (h : s.phase = .idle) : writeReg 0x1C v s = { s with xlen := v } := by
  simp [writeReg, whileIdle_of_idle h]

/-- While busy no configuration register is written (10_state.md R20). -/
theorem writeReg_of_busy (h : s.phase ≠ .idle) (off : Nat) (v : Word) : writeReg off v s = s := by
  simp only [writeReg, whileIdle_of_busy h, ite_self]

/-- Read-only and reserved offsets ignore a write (10_state.md R19, R20). -/
theorem writeReg_of_readOnly (h : 0x20 ≤ off) : writeReg off v s = s := by
  unfold writeReg
  repeat rw [if_neg (by omega)]

/-- A write changes configuration registers only. -/
theorem writeReg_frame (off : Nat) (v : Word) (s : State) :
    writeReg off v s =
      { s with
        bufLen := (writeReg off v s).bufLen, model := (writeReg off v s).model, xbase := (writeReg off v s).xbase
        xivoff := (writeReg off v s).xivoff, xstart := (writeReg off v s).xstart, xlen := (writeReg off v s).xlen } := by
  unfold writeReg whileIdle
  split_ifs <;> rfl

/-- A word written to CTRL is a CTRL write, whatever command it names (30_encoding.md R87). -/
theorem run_decodeCtrl (cfg : Config) (w : Word) (s : State) :
    ∃ start op e ie, run cfg (decodeCtrl w) s = .next (writeCtrl start op e ie s) := by
  unfold decodeCtrl
  simp only
  split_ifs <;> exact ⟨_, _, _, _, rfl⟩

/-- Everything a host write that has a next state can do. -/
theorem hostWrite_cases (h : hostWrite cfg off v s = .next t) :
    (∃ start op e ie, t = writeCtrl start op e ie s) ∨ (∃ d e, t = acknowledge d e s) ∨ t = writeReg off v s := by
  unfold hostWrite at h
  split at h
  · cases h
  · by_cases hctrl : off = 0x00
    · subst hctrl
      obtain ⟨start, op, e, ie, hrun⟩ := run_decodeCtrl cfg v s
      exact .inl ⟨start, op, e, ie, Host.Outcome.next.inj (h.symm.trans hrun)⟩
    · by_cases hstatus : off = 0x04
      · subst hstatus
        exact .inr (.inl ⟨_, _, (Host.Outcome.next.inj h).symm⟩)
      · simp only [regWriteDecode, if_neg hctrl, if_neg hstatus] at h
        exact .inr (.inr (Host.Outcome.next.inj h).symm)

/-- A host access to BUF or OUT that has a next state happens while idle and inside the memory. -/
theorem memAccess_cases {fits : Bool} {absent : Fault} {k : State → State}
    (h : memAccess fits absent k s = .next t) : s.phase = .idle ∧ fits = true ∧ t = k s := by
  unfold memAccess at h
  split at h
  · cases h
  · rename_i hbusy
    split at h
    · cases h
      exact ⟨by simpa [State.busy] using hbusy, ‹_›, rfl⟩
    · cases h

/-! ### The host's actions keep the invariant -/

theorem writeCtrl_keeps_inv (h : MachineInv cap s) (start : Bool) (op : BitVec 2) (e : Endian) (ie : Bool) :
    MachineInv cap (writeCtrl start op e ie s) := by
  have hidle (hb : s.busy = false) : s.phase = .idle := by simpa [State.busy] using hb
  rcases writeCtrl_cases start op e ie s with ⟨-, hw⟩ | ⟨-, -, hw⟩ | ⟨hb, -, hw⟩ <;> rw [hw]
  · exact h.host_congr rfl
  · exact .of_running { h.memories with outputFits := by simp } ⟨rfl, rfl, rfl⟩ h.noWork ((phaseInv_cmd rfl).2 ⟨rfl, rfl⟩)
  · exact h.idle_congr (hidle hb) h.memories rfl rfl rfl rfl

/-- ACK lowers flags, and ERR_CODE with ERR (40_host_commands.md R101). -/
theorem acknowledge_keeps_inv (h : MachineInv cap s) (d e : Bool) : MachineInv cap (acknowledge d e s) := by
  have hcode := h.codeIff
  have hrange := h.codeRange
  have hboth := h.notBoth
  have hclear := h.busyClear
  refine ⟨h.bufWf, h.outWf, h.bufBelow, h.outBelow, ?_, ?_, ?_, fun hb => ?_, h.outputFits, h.noWork,
    phaseInv_congr h.phaseFacts rfl⟩
  · cases e
    · exact hcode
    · exact iff_of_true rfl rfl
  · cases e <;> simp [hrange]
  · cases d <;> cases e <;> simp_all
  · obtain ⟨hdone, herr⟩ := hclear hb
    simp [hdone, herr]

theorem writeReg_keeps_inv (h : MachineInv cap s) (off : Nat) (v : Word) : MachineInv cap (writeReg off v s) := by
  by_cases hp : s.phase = .idle
  · rw [writeReg_frame]
    exact h.idle_congr hp h.memories rfl rfl rfl rfl
  · rw [writeReg_of_busy hp]
    exact h

end

/-- Settles O48: at reset the memories are empty, the flags down and the machine idle. -/
theorem resetHasInv : Obligations.ResetHasInv := fun _ =>
  .of_idle rfl ⟨rfl, rfl, rfl, rfl, by decide⟩ (by decide) (by decide) (by decide) rfl

section
variable {cap : Word} {s t : State}

/-- Every action of the host keeps the invariant; waiting and ticking do by the engine's step. -/
theorem hostStep_keeps_inv {op : HostOp} (h : MachineInv cap s) (hs : hostStep (.withBufCap cap) op s = .next t) :
    MachineInv cap t := by
  cases op with
  | wr off v =>
    rcases hostWrite_cases hs with ⟨start, op, e, ie, rfl⟩ | ⟨d, e, rfl⟩ | rfl
    · exact writeCtrl_keeps_inv h start op e ie
    · exact acknowledge_keeps_inv h d e
    · exact writeReg_keeps_inv h off v
  | rd off =>
    simp only [hostStep, hostRead] at hs
    split at hs <;> cases hs
    exact h.host_congr rfl
  | load off bs =>
    simp only [hostStep] at hs
    obtain ⟨hi, hfits, rfl⟩ := memAccess_cases hs
    exact h.idle_congr hi (h.memories.store_buf off bs (of_decide_eq_true hfits)) rfl rfl rfl rfl
  | storeOut off bs =>
    simp only [hostStep] at hs
    obtain ⟨hi, hfits, rfl⟩ := memAccess_cases hs
    exact h.idle_congr hi (h.memories.store_out off bs (of_decide_eq_true hfits)) rfl rfl rfl rfl
  | readBuf off n =>
    simp only [hostStep] at hs
    obtain ⟨-, -, rfl⟩ := memAccess_cases hs
    exact h.host_congr rfl
  | readOut off n =>
    simp only [hostStep] at hs
    obtain ⟨-, -, rfl⟩ := memAccess_cases hs
    exact h.host_congr rfl
  | readImage =>
    simp only [hostStep] at hs
    obtain ⟨-, -, rfl⟩ := memAccess_cases hs
    exact h.host_congr rfl
  | wait =>
    simp only [hostStep, hostWait] at hs
    split at hs
    · exact engineStep_keeps_inv (h.host_congr rfl) hs
    · cases hs
      exact h.host_congr rfl
  | waitIrq =>
    simp only [hostStep, hostWaitIrq] at hs
    split at hs
    · cases hs
      exact h
    · exact engineStep_keeps_inv (h.host_congr rfl) hs
  | tick => exact engineStep_keeps_inv h hs
  | onlyIf flag n =>
    cases hs
    exact h.host_congr rfl
  | stopOnErr =>
    cases hs
    split
    · exact h.host_congr rfl
    · exact h
  | reset =>
    cases hs
    exact (resetHasInv cap).host_congr rfl

/-- Every step of the machine keeps the invariant, whatever P_BUF_CAP is. -/
theorem stepWith_keeps_inv (h : MachineInv cap s) (hs : stepWith (.withBufCap cap) s = .next t) : MachineInv cap t := by
  cases hpend : s.pending with
  | nil =>
    rw [stepWith_of_no_pending hpend] at hs
    exact engineStep_keeps_inv h hs
  | cons op rest =>
    rw [stepWith_of_pending hpend] at hs
    exact hostStep_keeps_inv (h.host_congr rfl) hs

end

/-- Settles O49: the machine behind the host's interface is the case of its own P_BUF_CAP. -/
theorem stepKeepsInv : Obligations.StepKeepsInv :=
  ⟨fun _ _ _ h hs => stepWith_keeps_inv h hs, fun _ _ h hs => stepWith_keeps_inv h hs⟩

end Sys2Proof.Machine

namespace Sys2Proof.Machine

section
variable {cfg : Config} {s : State} {off : Nat} {v : Word} {rest : List HostOp}

/-! ### The host's register accesses as steps -/

/-- A pending aligned read of REG returns the register's word and changes nothing of the block. -/
theorem step_rd (hp : s.pending = .rd off :: rest) (ha : off % 4 = 0) (hlt : off < 0x100) :
    step s = .next { s with pending := rest, rdData := readReg Config.hw off s } := by
  rw [step_of_pending hp]
  exact hostRead_of_aligned ha hlt

/-- A pending aligned write past CTRL and STATUS writes its register. -/
theorem step_wr (hp : s.pending = .wr off v :: rest) (ha : off % 4 = 0) (hlt : off < 0x100) (h8 : 8 ≤ off) :
    step s = .next (writeReg off v { s with pending := rest }) := by
  rw [step_of_pending hp]
  exact hostWrite_of_aligned ha hlt h8

/-- Settles O50: each configuration register is written only while idle. -/
theorem busyWritesIgnored : Obligations.BusyWritesIgnored := by
  intro s off v rest hbusy ha hlt h8 hp
  rw [step_wr hp ha hlt h8]
  exact congrArg Host.Outcome.next (writeReg_of_busy (s := { s with pending := rest }) hbusy off v)

/-- Settles O51: one register for each offset. -/
theorem idleWritesSetOneRegister : Obligations.IdleWritesSetOneRegister := by
  intro s v rest hidle
  refine ⟨fun hp => ?_, fun hp => ?_, fun hp => ?_, fun hp => ?_, fun hp => ?_, fun hp => ?_⟩ <;>
    rw [step_wr hp (by decide) (by decide) (by decide)]
  · exact congrArg Host.Outcome.next (writeReg_bufLen hidle)
  · exact congrArg Host.Outcome.next (writeReg_model hidle)
  · exact congrArg Host.Outcome.next (writeReg_xbase hidle)
  · exact congrArg Host.Outcome.next (writeReg_xivoff hidle)
  · exact congrArg Host.Outcome.next (writeReg_xstart hidle)
  · exact congrArg Host.Outcome.next (writeReg_xlen hidle)

/-! ### What a read returns -/

/-- Reserved offsets read 0 (10_state.md R19). -/
theorem readReg_of_reserved (h1 : 0x3C ≤ off) (h2 : off < 0x80) : readReg cfg off s = 0 := by
  unfold readReg
  repeat rw [if_neg (by omega)]

/-- The 32 registers of KEY (10_state.md R29). -/
theorem readReg_key (i : Fin 32) : readReg cfg (0x80 + 4 * i.val) s = s.key[i] := by
  have hi : (0x80 + 4 * i.val - 0x80) / 4 = i.val := by omega
  unfold readReg
  repeat rw [if_neg (by omega)]
  rw [if_pos (by omega), hi]
  simp

/-- Settles O52: no register of `writeReg` lies from 0x20 on, and none of `readReg` from 0x3C to 0x7C. -/
theorem readOnlyAndReservedOffsets : Obligations.ReadOnlyAndReservedOffsets := by
  intro s off v rest ha hlt h20
  refine ⟨fun hp => ?_, fun hp h1 h2 => ?_⟩
  · rw [step_wr hp ha hlt (by omega), writeReg_of_readOnly h20]
  · rw [step_rd hp ha hlt, readReg_of_reserved h1 h2]

/-- The fields of the word CTRL reads as (10_state.md R21). -/
theorem ctrlWord_fields (op : BitVec 2) (e : Endian) (ie : Bool) :
    (Sys2Proof.ctrlWord false op e ie).getLsbD 0 = false ∧
    (Sys2Proof.ctrlWord false op e ie).extractLsb' 1 2 = op ∧
    ((Sys2Proof.ctrlWord false op e ie).getLsbD 3 = true ↔ e = .big) ∧
    (Sys2Proof.ctrlWord false op e ie).getLsbD 4 = ie ∧
    (Sys2Proof.ctrlWord false op e ie).extractLsb' 5 27 = 0 := by
  revert op
  cases e <;> cases ie <;> decide

/-- The bits of the word STATUS reads as (10_state.md R22). -/
theorem getLsbD_statusWord (s : State) (i : Nat) :
    s.statusWord.getLsbD i =
      if i = 0 then s.busy else if i = 1 then s.done else if i = 2 then s.err
      else decide (8 ≤ i) && s.errCode.getLsbD (i - 8) := by
  have happend : s.statusWord.getLsbD i =
      ((0 : BitVec 16) ++ s.errCode ++ (0 : BitVec 5) ++ BitVec.ofBool s.err ++ BitVec.ofBool s.done ++
        BitVec.ofBool s.busy).getLsbD i := rfl
  simp only [happend, BitVec.getLsbD_append, BitVec.ofNat_eq_ofNat, BitVec.getLsbD_zero, BitVec.getLsbD_ofBool]
  rcases i with _ | _ | _ | i
  · simp
  · simp
  · simp
  · by_cases h8 : i - 5 < 8
    · by_cases h5 : i < 5
      · simp [h5, Nat.not_le.2 h5]
      · simp [h5, h8, Nat.not_lt.1 h5]
    · have hge : s.errCode.getLsbD (i - 5) = false := BitVec.getLsbD_of_ge _ _ (by omega)
      simp [h8, hge]

/-- The fields of the word STATUS reads as (10_state.md R22). -/
theorem statusWord_fields (s : State) :
    s.statusWord.getLsbD 0 = decide (s.phase ≠ .idle) ∧ s.statusWord.getLsbD 1 = s.done ∧
    s.statusWord.getLsbD 2 = s.err ∧ s.statusWord.extractLsb' 8 8 = s.errCode ∧
    s.statusWord.extractLsb' 3 5 = 0 ∧ s.statusWord.extractLsb' 16 16 = 0 := by
  refine ⟨?_, ?_, ?_, ?_, ?_, ?_⟩
  · rw [getLsbD_statusWord, if_pos rfl]
    rfl
  · rw [getLsbD_statusWord, if_neg (by decide), if_pos rfl]
  · rw [getLsbD_statusWord, if_neg (by decide), if_neg (by decide), if_pos rfl]
  · ext i hi
    have hne : 8 + i ≠ 0 ∧ 8 + i ≠ 1 ∧ 8 + i ≠ 2 := by omega
    simp [getLsbD_statusWord, hne, BitVec.getLsbD_eq_getElem hi]
  · ext i hi
    have hlow : 3 + i ≠ 0 ∧ 3 + i ≠ 1 ∧ 3 + i ≠ 2 ∧ ¬ 8 ≤ 3 + i := by omega
    simp [getLsbD_statusWord, hlow]
  · ext i hi
    have hhigh : 16 + i ≠ 0 ∧ 16 + i ≠ 1 ∧ 16 + i ≠ 2 := by omega
    have hge : s.errCode.getLsbD (16 + i - 8) = false := BitVec.getLsbD_of_ge _ _ (by omega)
    simp [getLsbD_statusWord, hhigh, hge]

/-- The fields of the word MODEL reads as (10_state.md R24). -/
theorem modelWord_fields (m : Byte) :
    (m.setWidth 32).extractLsb' 0 8 = m ∧ (m.setWidth 32).extractLsb' 8 24 = 0 := by
  constructor
  · ext i hi
    simp [BitVec.getLsbD_eq_getElem hi, Nat.lt_trans hi (by decide : 8 < 32)]
  · ext i hi
    simp

/-- Settles O53: CTRL and MODEL by the fields of their words, every other register read as it stands. -/
theorem registerReads : Obligations.RegisterReads := by
  intro s rest
  refine ⟨fun hp => ⟨_, step_rd hp (by decide) (by decide), ctrlWord_fields s.op s.endian s.ie⟩,
    fun hp => step_rd hp (by decide) (by decide),
    fun hp => ⟨_, step_rd hp (by decide) (by decide), modelWord_fields s.model⟩,
    fun hp => step_rd hp (by decide) (by decide), fun hp => step_rd hp (by decide) (by decide),
    fun hp => step_rd hp (by decide) (by decide), fun hp => step_rd hp (by decide) (by decide),
    fun hp => step_rd hp (by decide) (by decide), fun hp => step_rd hp (by decide) (by decide),
    fun hp => step_rd hp (by decide) (by decide), fun hp => step_rd hp (by decide) (by decide),
    fun hp => step_rd hp (by decide) (by decide), fun hp => step_rd hp (by decide) (by decide),
    fun hp => step_rd hp (by decide) (by decide), fun i hp => ?_⟩
  rw [step_rd hp (by omega) (by omega), readReg_key]

/-- Settles O54: the read's word is STATUS, field by field. -/
theorem statusRead : Obligations.StatusRead := fun s _ hp =>
  ⟨_, step_rd hp (by decide) (by decide), statusWord_fields s⟩

/-- Every register but the two capacities reads 0 after reset (10_state.md R39). -/
theorem readReg_reset (cfg : Config) (off : Nat) (hout : off ≠ 0x34) (hbuf : off ≠ 0x38) :
    readReg cfg off State.reset = 0 := by
  have hctrl : State.reset.ctrlWord = 0 := by decide
  have hstatus : State.reset.statusWord = 0 := by decide
  have hkey (k : Nat) : State.reset.key.toList.getD k 0 = 0 := by
    rw [show State.reset.key.toList = List.replicate 32 0 from rfl, List.getD_eq_getElem?_getD, List.getElem?_replicate]
    split <;> rfl
  unfold readReg
  simp only [if_neg hout, if_neg hbuf, hctrl, hstatus, hkey]
  simp [State.reset]

/-- Settles O56: the capacity registers read the configuration, every other register its reset value 0. -/
theorem resetValues : Obligations.ResetValues :=
  ⟨fun _ off _ _ hout hbuf => readReg_reset _ off hout hbuf, fun _ => ⟨rfl, rfl⟩, rfl, rfl, rfl, rfl, rfl, rfl, rfl,
    rfl, rfl⟩

/-- Settles O59: the alignment check is the first of both accesses. -/
theorem misalignedRegAccessRefused : Obligations.MisalignedRegAccessRefused := by
  intro s off v rest hmis hp
  rcases hp with hp | hp <;> rw [step_of_pending hp]
  · simp only [hostStep, hostWrite, regRefusal_of_misaligned hmis]
  · simp only [hostStep, hostRead, regRefusal_of_misaligned hmis]

end

/-! ### The decoded element of a step -/

/-- With no host action pending a step in L_HDR or L_TRL runs one element, at the engine's fetch point. -/
theorem step_of_element {s : State} {c : Ctx} {a : Nat} (hpend : s.pending = []) (hfetch : fetchPoint s = some (c, a))
    (hp : s.phase ≠ .lTok) : step s = elementStep Config.hw s c a := by
  rw [step_of_no_pending hpend]
  unfold fetchPoint at hfetch
  cases hphase : s.phase <;> simp only [hphase, reduceCtorEq, Option.some.injEq, Prod.mk.injEq] at hfetch
  case lTok => exact absurd hphase hp
  all_goals
    obtain ⟨rfl, rfl⟩ := hfetch
    simp only [engineStep, hphase]

/-- Inside a token step the fetch point is the token loop's next element. -/
theorem tokenElement_of_fetchPoint {cfg : Config} {s : State} {c : Ctx} {a : Nat}
    (hfetch : fetchPoint s = some (c, a)) (hp : s.phase = .lTok) : tokenElement cfg s = elementStep cfg s c a := by
  simp only [fetchPoint, hp, Option.some.injEq, Prod.mk.injEq] at hfetch
  obtain ⟨rfl, rfl⟩ := hfetch
  rfl

/-- A token step is its first element, and the rest of the token where that leaves it unfinished. -/
theorem step_of_tokenElement {s t : State} (hpend : s.pending = []) (hp : s.phase = .lTok)
    (helem : tokenElement Config.hw s = .next t) :
    step s = if t.work.isSome then tokenLoop Config.hw (tokenFuel s - 1) t else .next t := by
  have hfuel : tokenFuel s = tokenFuel s - 1 + 1 := by simp [tokenFuel]
  rw [step_of_no_pending hpend]
  simp only [engineStep, hp]
  rw [hfuel, tokenLoop_succ _ _ _ _ helem, Nat.add_sub_cancel]

/-- Settles O6: the element at the fetch point, in each of the three phases that decode one. -/
theorem stepRunsDecodedElement : Obligations.StepRunsDecodedElement := by
  intro s c a hpend hfetch
  refine ⟨fun hp => ?_, fun hp => ?_, fun hp => ?_, fun hall i n hdec => ⟨fun hp => ?_, fun hp t ht => ?_⟩,
    fun hall => ⟨fun hp => ?_, fun hp ha => ?_⟩⟩
  · simp [fetchAllowed, hp, headerInBounds]
  · simp [fetchAllowed, hp, need]
  · simp [fetchAllowed, hp]
  · rw [step_of_element hpend hfetch hp, elementStep_of_allowed hall hdec, run_hw]
  · refine step_of_tokenElement hpend hp ?_
    rw [tokenElement_of_fetchPoint hfetch hp, elementStep_of_allowed hall hdec, run_hw, ht]
  · have hic : a = s.ic.toNat := by simp_all [fetchPoint]
    rw [step_of_element hpend hfetch (by simp [hp]), elementStep_of_not_allowed hall, fetchFault, hp, hic]
    simp only [fault, raiseFault_eq_faultState _ s s.ic.isLt (by decide : 2 < 2 ^ 32)]
    simp [causeCode]
  · have helem : tokenElement Config.hw s = .next (faultState s 7 (BitVec.ofNat 32 a) (s.blen.setWidth 32)) := by
      rw [tokenElement_of_fetchPoint hfetch hp, elementStep_of_not_allowed hall, ← incomplete_eq_faultState s ha]
      simp only [fetchFault, hp]
    rw [step_of_tokenElement hpend hp helem]
    rfl

end Sys2Proof.Machine

/-! PROOFS. The memories (20_memory.md R60 to R62, R67): which engine steps write BUF, KEY and OUT, and that a
DECOMPRESS depends on BUF below BUF_LEN and MODEL alone. -/

namespace Sys2Proof.Machine

section
variable {cap : Word} {s t : State}

/-! ### Which engine steps write BUF, KEY and OUT -/

/-- Only the XOR block step writes BUF (20_memory.md R62). -/
theorem EngineResult.buf_eq (r : EngineResult cap s t) (hp : s.phase ≠ .xBlk) : t.buf = s.buf := by
  cases r with
  | token _ w t _ _ _ he => exact he.buf_eq
  | block hphase _ => exact absurd hphase hp
  | lastBlock hphase _ => exact absurd hphase hp
  | _ => simp

/-- Only the IV step writes KEY (20_memory.md R62). -/
theorem EngineResult.key_eq (r : EngineResult cap s t) (hp : s.phase ≠ .xIv) : t.key = s.key := by
  cases r with
  | token _ w t _ _ _ he => exact he.key_eq
  | keygen hphase _ _ => exact absurd hphase hp
  | keyed hphase _ _ => exact absurd hphase hp
  | _ => simp

/-- Only a token step and a raw block's payload step touch OUT and OC (20_memory.md R62). -/
theorem EngineResult.out_eq (r : EngineResult cap s t) (htok : s.phase ≠ .lTok) (hraw : s.phase ≠ .lRaw) :
    t.out = s.out ∧ t.oc = s.oc := by
  cases r with
  | token hphase => exact absurd hphase htok
  | payload hphase _ => exact absurd hphase hraw
  | _ => simp

/-- Whatever an engine step does to OUT and OC is producing output (20_memory.md R61). -/
theorem EngineResult.emitted (r : EngineResult cap s t) (hoc : s.oc.toNat ≤ 0x2000000) :
    ∃ u, Emitted s u ∧ t.out = u.out ∧ t.oc = u.oc := by
  cases r with
  | token _ w u _ _ _ he => exact ⟨u, he, rfl, rfl⟩
  | payload _ hr => exact ⟨_, emitted_payload s hr, rfl, rfl⟩
  | _ => exact ⟨s, emitted_self s hoc, by simp⟩

end

/-- Settles O42: by the steps that write each memory. -/
theorem commandsKeepTheirMemories : Obligations.CommandsKeepTheirMemories := by
  intro cap s t hs
  have r := engineStep_result hs
  refine ⟨fun hp => ⟨r.buf_eq ?_, r.key_eq ?_⟩, fun hp => r.out_eq ?_ ?_, r.buf_eq, r.key_eq⟩ <;>
    · intro hphase
      simp [hphase] at hp

/-- Settles O43: the step's output is produced output, whose frame and values `Emitted` states. -/
theorem outputOnlyAppended : Obligations.OutputOnlyAppended := by
  intro cap s t h _ hs
  obtain ⟨u, he, hout, hoc⟩ := (engineStep_result hs).emitted h.outputFits
  simp only [State.outAt, hout, hoc]
  exact ⟨he.le, he.cap, he.frame, he.valued⟩

end Sys2Proof.Machine

namespace Sys2Proof.Machine

/-! ### Two runs of one DECOMPRESS -/

/-- The block registers that the step of the phase reads are the same; in the other phases they may hold anything
(10_state.md R30, R36). -/
def SameBlock (s t : State) : Prop :=
  match s.phase with
  | .lTok => s.bstart = t.bstart ∧ s.blen = t.blen ∧ s.bend = t.bend ∧ s.mask = t.mask ∧ s.sel = t.sel
  | .lTrl => s.bstart = t.bstart ∧ s.blen = t.blen ∧ s.bend = t.bend
  | .lRaw => s.bstart = t.bstart ∧ s.blen = t.blen ∧ s.rawn = t.rawn
  | .idle | .cmd | .lCheck | .lSig | .lHdr | .xIv | .xChk | .xBlk => True

/-- Two states of one DECOMPRESS: the same but for what the command does not depend on. OUT from OC on, BUF from
BUF_LEN on, KEY, the region registers, ENDIAN, IE and what the host has read may differ (20_memory.md R67). -/
structure SameRun (s t : State) : Prop where
  phase : s.phase = t.phase
  op : s.op = t.op
  bufLen : s.bufLen = t.bufLen
  model : s.model = t.model
  ic : s.ic = t.ic
  oc : s.oc = t.oc
  done : s.done = t.done
  err : s.err = t.err
  errCode : s.errCode = t.errCode
  errIn : s.errIn = t.errIn
  errOut : s.errOut = t.errOut
  errVal : s.errVal = t.errVal
  work : s.work = t.work
  pending : s.pending = t.pending
  /-- BUF below BUF_LEN is stored, and the same (R60, R173). -/
  buf : ∀ a, a < s.bufLen.toNat → s.bufAt a = t.bufAt a ∧ (s.bufAt a).isSome = true
  /-- OUT below OC has been produced, and is the same (R61). -/
  out : ∀ a, a < s.oc.toNat → s.outAt a = t.outAt a ∧ (s.outAt a).isSome = true
  block : SameBlock s t

/-- Two outcomes that are both a next state, of one DECOMPRESS. -/
def SameNext (x y : Host.Outcome State Fault Refusal) : Prop :=
  ∃ s t, x = .next s ∧ y = .next t ∧ SameRun s t

/-- What holds along a DECOMPRESS that no host action interrupts: the bytes its next step decodes or copies lie below
BUF_LEN (43_lzd_blocks.md R123). -/
structure StreamInv (s : State) : Prop where
  op : s.op = 0
  pending : s.pending = []
  phase : s.phase ∉ [.xIv, .xChk, .xBlk]
  tokens : s.phase ∈ [.lTok, .lTrl] → s.bend.toNat + 2 ≤ s.bufLen.toNat
  raw : s.phase = .lRaw → s.bstart.toNat + s.rawn.toNat ≤ s.bufLen.toNat

section
variable {cap : Word} {s t : State}

theorem SameRun.next (h : SameRun s t) : SameNext (.next s) (.next t) := ⟨s, t, rfl, rfl, h⟩

theorem SameRun.block_lTok (h : SameRun s t) (hp : s.phase = .lTok) :
    s.bstart = t.bstart ∧ s.blen = t.blen ∧ s.bend = t.bend ∧ s.mask = t.mask ∧ s.sel = t.sel := by
  simpa only [SameBlock, hp] using h.block

theorem SameRun.block_lTrl (h : SameRun s t) (hp : s.phase = .lTrl) :
    s.bstart = t.bstart ∧ s.blen = t.blen ∧ s.bend = t.bend := by
  simpa only [SameBlock, hp] using h.block

theorem SameRun.block_lRaw (h : SameRun s t) (hp : s.phase = .lRaw) :
    s.bstart = t.bstart ∧ s.blen = t.blen ∧ s.rawn = t.rawn := by
  simpa only [SameBlock, hp] using h.block

/-! ### What the two runs read is the same -/

theorem SameRun.bufByte_eq (h : SameRun s t) {a : Nat} (ha : a < s.bufLen.toNat) : bufByte s a = bufByte t a := by
  obtain ⟨hsame, hsome⟩ := h.buf a ha
  obtain ⟨b, hb⟩ := Option.isSome_iff_exists.1 hsome
  rw [bufByte_of_some hb, bufByte_of_some (hsame.symm.trans hb)]

theorem SameRun.outByte_eq (h : SameRun s t) {a : Nat} (ha : a < s.oc.toNat) : outByte s a = outByte t a := by
  obtain ⟨hsame, hsome⟩ := h.out a ha
  obtain ⟨b, hb⟩ := Option.isSome_iff_exists.1 hsome
  rw [outByte_of_some hb, outByte_of_some (hsame.symm.trans hb)]

theorem SameRun.be16At_eq (h : SameRun s t) {a : Nat} (ha : a + 2 ≤ s.bufLen.toNat) : be16At s a = be16At t a := by
  simp only [be16At, h.bufByte_eq (show a < s.bufLen.toNat by omega),
    h.bufByte_eq (show a + 1 < s.bufLen.toNat by omega)]

theorem SameRun.rdw_eq (h : SameRun s t) (e : Endian) {a : Nat} (ha : a + 4 ≤ s.bufLen.toNat) :
    rdw s e a = rdw t e a := by
  simp only [rdw, h.bufByte_eq (show a < s.bufLen.toNat by omega), h.bufByte_eq (show a + 1 < s.bufLen.toNat by omega),
    h.bufByte_eq (show a + 2 < s.bufLen.toNat by omega), h.bufByte_eq (show a + 3 < s.bufLen.toNat by omega)]

theorem SameRun.wordSum_eq (h : SameRun s t) {k : Nat} (hk : 4 * k ≤ s.bufLen.toNat) : wordSum s k = wordSum t k := by
  induction k with
  | zero => rfl
  | succ k ih => rw [wordSum, wordSum, ih (by omega), h.rdw_eq _ (by omega)]

theorem SameRun.bufBytes_eq (h : SameRun s t) {a n : Nat} (hn : a + n ≤ s.bufLen.toNat) :
    bufBytes s a n = bufBytes t a n := by
  induction n generalizing a with
  | zero => rfl
  | succ n ih => rw [bufBytes, bufBytes, ih (by omega), h.bufByte_eq (by omega)]

/-! ### The shared operations keep the two runs the same -/

theorem SameRun.raiseFault (h : SameRun s t) (c : Cause) (inp val : Nat) :
    SameRun (raiseFault c inp val s) (raiseFault c inp val t) :=
  { h with
    phase := rfl, err := rfl, errCode := rfl, errIn := rfl, errVal := rfl, errOut := h.oc, work := rfl,
    block := trivial }

theorem SameRun.redraw (h : SameRun s t) : SameRun (redraw s) (redraw t) := { h with }

theorem SameRun.continueStep (h : SameRun s t) (w : Work) : SameRun (continueStep w s) (continueStep w t) :=
  { h with work := rfl }

/-- The same bytes produced by both runs (20_memory.md R61). -/
theorem SameRun.emit (h : SameRun s t) (bs : List Byte) (hr : s.oc.toNat + bs.length ≤ 0x2000000) :
    SameRun (emit bs s) (emit bs t) := by
  have hoc : (BitVec.ofNat 32 (s.oc.toNat + bs.length)).toNat = s.oc.toNat + bs.length := by
    rw [BitVec.toNat_ofNat]; omega
  refine { h with oc := by rw [emit_oc, emit_oc, h.oc], out := fun a ha => ?_ }
  rw [emit_oc, hoc] at ha
  simp only [State.outAt, emit_out, readCell_storeBytes, ← h.oc]
  split
  · rw [List.getElem?_eq_getElem (by omega)]
    exact ⟨rfl, rfl⟩
  · exact h.out a (by omega)

/-- Both runs copy the same bytes: each one lies below OC, where OUT is the same (44_lzd_tokens.md R132). -/
theorem SameRun.copyLoop (h : SameRun s t) {off : Nat} (hpos : 0 < off) (hle : off ≤ s.oc.toNat) (k : Nat)
    (hr : s.oc.toNat + k ≤ 0x2000000) : SameRun (copyLoop off s k) (copyLoop off t k) := by
  induction k with
  | zero => exact h
  | succ k ih =>
    have hk := ih (by omega)
    have hoc := copyLoop_oc off s k (by omega)
    have hbyte := hk.outByte_eq (a := (Machine.copyLoop off s k).oc.toNat - off) (by omega)
    have hemit := hk.emit [outByte (Machine.copyLoop off s k) ((Machine.copyLoop off s k).oc.toNat - off)]
      (by rw [List.length_singleton]; omega)
    rw [Machine.copyLoop, Machine.copyLoop]
    simp only [← hk.oc, ← hbyte]
    exact hemit

theorem SameRun.commitToken (h : SameRun s t) (hp : s.phase = .lTok) (w : Work) :
    SameRun (commitToken w s) (commitToken w t) := by
  obtain ⟨hstart, hlen, hend, -, -⟩ := h.block_lTok hp
  refine { h with phase := ?_, ic := rfl, work := rfl, block := ?_ }
  · rw [commitToken_phase, commitToken_phase, ← hend, ← h.phase]
  · by_cases hlast : BitVec.ofNat 32 w.p = s.bend
    · simp only [SameBlock, commitToken_phase, if_pos hlast]
      exact ⟨hstart, hlen, hend⟩
    · simp only [SameBlock, commitToken_phase, if_neg hlast, hp]
      exact ⟨hstart, hlen, hend, rfl, rfl⟩

theorem SameRun.leaveBlock (h : SameRun s t) (hstart : s.bstart = t.bstart) (hlen : s.blen = t.blen) :
    SameRun (leaveBlock s) (leaveBlock t) :=
  { h with phase := rfl, ic := by rw [leaveBlock_ic, leaveBlock_ic, hstart, hlen], block := trivial }

/-! ### The steps that decode nothing -/

theorem SameRun.cmdStep (h : SameRun s t) :
    SameRun (cmdStep (.withBufCap cap) s) (cmdStep (.withBufCap cap) t) := by
  rw [cmdStep_withBufCap, cmdStep_withBufCap, ← h.op, ← h.bufLen]
  split_ifs
  · exact h.raiseFault _ _ _
  · exact h.raiseFault _ _ _
  · exact { h with phase := rfl, op := rfl, bufLen := rfl, block := trivial }
  · exact { h with phase := rfl, op := rfl, bufLen := rfl, block := trivial }

/-- The checksum reads whole words below BUF_LEN (42_lzd_checks.md R116). -/
theorem SameRun.lCheckStep (h : SameRun s t) : SameRun (lCheckStep s) (lCheckStep t) := by
  have hsum : wordSum s (s.bufLen.toNat / 4) = wordSum t (s.bufLen.toNat / 4) := h.wordSum_eq (by omega)
  unfold Machine.lCheckStep
  simp only [← h.bufLen, ← hsum]
  split_ifs
  · exact h.raiseFault _ _ _
  · exact h.raiseFault _ _ _
  · exact { h with phase := rfl, bufLen := rfl, block := trivial }

/-- The signature is read only where it lies below BUF_LEN (42_lzd_checks.md R118). -/
theorem SameRun.lSigStep (h : SameRun s t) :
    SameRun (lSigStep (.withBufCap cap) s) (lSigStep (.withBufCap cap) t) := by
  rw [lSigStep_withBufCap, lSigStep_withBufCap, ← h.bufLen]
  by_cases hshort : s.bufLen.toNat < 0x1F6 + 2
  · rw [if_pos hshort, if_pos hshort]
    exact h.raiseFault _ _ _
  · rw [if_neg hshort, if_neg hshort, ← h.be16At_eq (by omega)]
    split_ifs
    · exact h.raiseFault _ _ _
    · exact { h with phase := rfl, bufLen := rfl, ic := rfl, block := trivial }

/-- The payload of a raw block is read below BUF_LEN (43_lzd_blocks.md R126). -/
theorem SameRun.lRawStep (h : SameRun s t) (hi : StreamInv s) (hp : s.phase = .lRaw) :
    SameRun (lRawStep (.withBufCap cap) s) (lRawStep (.withBufCap cap) t) := by
  obtain ⟨hstart, hlen, hrawn⟩ := h.block_lRaw hp
  rw [lRawStep_withBufCap, lRawStep_withBufCap, ← h.oc, ← hstart, ← hrawn, ← h.bufBytes_eq (hi.raw hp)]
  split_ifs with hfull
  · exact h.raiseFault _ _ _
  · exact (h.emit _ (by rw [length_bufBytes]; omega)).leaveBlock hstart hlen

/-! ### Headers and trailers -/

theorem SameRun.withHeader (h : SameRun s t) {k : State → State} (hk : SameRun (k s) (k t)) :
    SameNext (withHeader k s) (withHeader k t) := by
  unfold Machine.withHeader headerInBounds
  rw [← h.ic, ← h.bufLen]
  split_ifs
  · exact hk.next
  · exact (h.raiseFault _ _ _).next

theorem SameRun.enterRaw (h : SameRun s t) (cfg : Config) (len n : Nat) :
    SameRun (openRaw cfg len n s) (openRaw cfg len n t) := by
  unfold openRaw blockFits
  rw [← h.ic, ← h.bufLen]
  split_ifs
  · have hpast : BitVec.ofNat 32 (s.ic.toNat + 2) = BitVec.ofNat 32 (t.ic.toNat + 2) := by rw [h.ic]
    exact { h with phase := rfl, ic := hpast, block := ⟨hpast, rfl, rfl⟩ }
  · exact h.raiseFault _ _ _

theorem SameRun.enterTokens (h : SameRun s t) (cfg : Config) (len : Nat) :
    SameRun (openTokens cfg len s) (openTokens cfg len t) := by
  unfold openTokens blockFits
  rw [← h.ic, ← h.bufLen]
  have hpast : BitVec.ofNat 32 (s.ic.toNat + 2) = BitVec.ofNat 32 (t.ic.toNat + 2) := by rw [h.ic]
  split_ifs
  · exact h.raiseFault _ _ _
  · exact { h with phase := rfl, ic := hpast, block := ⟨hpast, rfl, rfl⟩ }
  · exact { h with phase := rfl, ic := hpast, block := ⟨hpast, rfl, rfl, rfl, rfl⟩ }
  · exact h.raiseFault _ _ _

theorem SameRun.execEndMarker (h : SameRun s t) : SameNext (execEndMarker s) (execEndMarker t) := by
  refine h.withHeader ?_
  exact { h with phase := rfl, done := rfl, ic := by simp [h.ic], work := rfl, block := trivial }

/-- OversizedBlock(h, v) at the same header of both runs (43_lzd_blocks.md R122). -/
theorem SameRun.oversized (h : SameRun s t) (v : Nat) :
    SameNext (Machine.withHeader (fun s => Machine.raiseFault .oversizedBlock s.ic.toNat v s) s)
      (Machine.withHeader (fun s => Machine.raiseFault .oversizedBlock s.ic.toNat v s) t) := by
  refine h.withHeader ?_
  rw [← h.ic]
  exact h.raiseFault _ _ _

/-- Whatever header the same value and MODEL select, it does the same to both runs (43_lzd_blocks.md R121, R124). -/
theorem SameRun.run_decodeHeader (h : SameRun s t) (cfg : Config) (model : Byte) (v : Half) :
    SameNext (run cfg (decodeHeader cfg model v) s) (run cfg (decodeHeader cfg model v) t) := by
  unfold decodeHeader
  split
  · exact h.execEndMarker
  · split
    · split
      · exact h.oversized _
      · exact h.oversized _
    · split
      · exact h.withHeader (h.enterRaw _ _ _)
      · split
        · exact h.withHeader (h.enterRaw _ _ _)
        · exact h.withHeader (h.enterRaw _ _ _)
      · exact h.withHeader (h.enterTokens _ _)

theorem SameRun.headerStep (h : SameRun s t) (hp : s.phase = .lHdr) :
    SameNext (engineStep (.withBufCap cap) s) (engineStep (.withBufCap cap) t) := by
  rw [engineStep_lHdr s hp, engineStep_lHdr t (h.phase.symm.trans hp), ← h.ic, ← h.bufLen, ← h.model]
  by_cases hb : s.ic.toNat + 2 ≤ s.bufLen.toNat
  · rw [if_pos hb, if_pos hb, ← h.be16At_eq hb]
    exact h.run_decodeHeader _ _ _
  · rw [if_neg hb, if_neg hb]
    exact (h.raiseFault _ _ _).next

theorem SameRun.trailerStep (h : SameRun s t) (hi : StreamInv s) (hp : s.phase = .lTrl) :
    SameNext (engineStep (.withBufCap cap) s) (engineStep (.withBufCap cap) t) := by
  obtain ⟨hstart, hlen, hend⟩ := h.block_lTrl hp
  rw [engineStep_lTrl s hp, engineStep_lTrl t (h.phase.symm.trans hp), ← hend,
    ← h.be16At_eq (hi.tokens (by simp [hp]))]
  split_ifs
  · exact (h.leaveBlock hstart hlen).next
  · exact (h.raiseFault _ _ _).next

/-! ### The token step -/

theorem SameRun.cursor_eq (h : SameRun s t) (hp : s.phase = .lTok) : s.cursor = t.cursor := by
  obtain ⟨-, -, -, hmask, hsel⟩ := h.block_lTok hp
  simp only [State.cursor, h.work, h.ic, hmask, hsel]

theorem SameRun.need_eq (h : SameRun s t) (hp : s.phase = .lTok) (a n : Nat) : need s a n = need t a n := by
  obtain ⟨-, -, hend, -, -⟩ := h.block_lTok hp
  simp only [need, hend]

theorem SameRun.incomplete (h : SameRun s t) (hp : s.phase = .lTok) (a : Nat) :
    SameNext (incomplete a s) (incomplete a t) := by
  obtain ⟨-, hlen, -, -, -⟩ := h.block_lTok hp
  simp only [Machine.incomplete, fault, ← hlen]
  exact (h.raiseFault _ _ _).next

theorem SameRun.finishCopy (h : SameRun s t) (hp : s.phase = .lTok) (w : Work) (c : PendingCopy) :
    SameRun (finishCopy (.withBufCap cap) w c s) (finishCopy (.withBufCap cap) w c t) := by
  simp only [Machine.finishCopy, outRoom_withBufCap, ← h.oc, decide_eq_false_iff_not, Nat.not_le]
  split_ifs with hzero hback hfull
  · exact h.raiseFault _ _ _
  · exact h.raiseFault _ _ _
  · exact h.raiseFault _ _ _
  · have hpos : c.off.toNat ≠ 0 := fun h0 => hzero (BitVec.eq_of_toNat_eq h0)
    have hroom := Nat.not_lt.1 hfull
    have hcopy := h.copyLoop (Nat.pos_of_ne_zero hpos) (Nat.not_lt.1 hback) c.len hroom
    have hphase := (emitted_copyLoop c.off.toNat s c.len hroom).phase_eq
    exact hcopy.redraw.commitToken (hphase.trans hp) w

theorem SameRun.copyToken (h : SameRun s t) (hp : s.phase = .lTok) (ohi : BitVec 3) (lf : BitVec 5) (olo : Byte) :
    SameNext (copyToken (.withBufCap cap) ohi lf olo s) (copyToken (.withBufCap cap) ohi lf olo t) := by
  simp only [Machine.copyToken, ← h.cursor_eq hp, ← h.need_eq hp]
  split_ifs
  · exact (h.continueStep _).next
  · exact (h.finishCopy hp _ _).next
  · exact h.incomplete hp _

theorem SameRun.runMask (h : SameRun s t) (hp : s.phase = .lTok) (cfg : Config) (m : Half) :
    SameNext (runMask cfg m s) (runMask cfg m t) := by
  simp only [Machine.runMask, ← h.cursor_eq hp, ← h.need_eq hp]
  split_ifs
  · exact (h.continueStep _).next
  · exact h.incomplete hp _

theorem SameRun.runLit (h : SameRun s t) (hp : s.phase = .lTok) (b : Byte) :
    SameNext (runLit (.withBufCap cap) b s) (runLit (.withBufCap cap) b t) := by
  simp only [Machine.runLit, outRoom_withBufCap, ← h.cursor_eq hp, ← h.need_eq hp, ← h.oc, decide_eq_false_iff_not,
    Nat.not_le]
  split_ifs with hpast hfull
  · exact h.incomplete hp _
  · exact (h.raiseFault _ _ _).next
  · exact ((h.emit [b] (Nat.not_lt.1 hfull)).commitToken hp _).next

theorem SameRun.runExt (h : SameRun s t) (hp : s.phase = .lTok) (hcopy : s.cursor.copy ≠ none) (e : Byte) :
    SameNext (runExt (.withBufCap cap) e s) (runExt (.withBufCap cap) e t) := by
  obtain ⟨c, hc⟩ := Option.ne_none_iff_exists'.1 hcopy
  simp only [Machine.runExt, ← h.cursor_eq hp, ← h.need_eq hp, hc]
  split_ifs
  · exact h.incomplete hp _
  · exact (h.continueStep _).next
  · exact (h.finishCopy hp _ _).next

/-- Whatever element two bytes select as a copy token, it does the same to both runs (30_encoding.md R84). -/
theorem SameRun.run_decodeCopy (h : SameRun s t) (hp : s.phase = .lTok) (s0 s1 : Byte) :
    SameNext (run (.withBufCap cap) (decodeCopy (.withBufCap cap) s0 s1) s)
      (run (.withBufCap cap) (decodeCopy (.withBufCap cap) s0 s1) t) := by
  unfold decodeCopy
  dsimp only
  split
  · exact h.copyToken hp _ _ _
  · split
    · exact h.copyToken hp _ _ _
    · exact h.copyToken hp _ _ _

/-- Where a token step stands: at an extension byte, at a mask word or at a token (30_encoding.md R89). -/
theorem tokenCtx_cases (w : Work) :
    (w.copy ≠ none ∧ tokenCtx w = .extension) ∨ tokenCtx w = .mask ∨ ∃ copy, tokenCtx w = .token copy := by
  rcases hc : w.copy with _ | c
  · by_cases hs : w.s = 0
    · exact .inr (.inl (tokenCtx_mask hc hs))
    · exact .inr (.inr ⟨_, tokenCtx_token hc hs⟩)
  · exact .inl ⟨Option.some_ne_none c, tokenCtx_extension (by simp [hc])⟩

theorem tokenElement_of_decoded {cfg : Config} {c : Ctx} {i : Instr} {n : Nat} (hp : s.phase = .lTok)
    (hctx : tokenCtx s.cursor = c) (hneed : s.cursor.p + ctxBytes c ≤ s.bend.toNat)
    (hdec : fetchDecode cfg s c s.cursor.p = .ok i n) : tokenElement cfg s = run cfg i s := by
  rw [tokenElement, hctx, elementStep_of_allowed (by simp [fetchAllowed, hp, need_of_le hneed]) hdec]

/-- Both runs decode the same element, from bytes of BUF below BEND, so below BUF_LEN (00_scope.md R13). -/
theorem SameRun.tokenElement_of_decoded (h : SameRun s t) (hp : s.phase = .lTok)
    (hb : s.bend.toNat ≤ s.bufLen.toNat) {cfg : Config} {c : Ctx} {i : Instr} {n : Nat}
    (hctx : tokenCtx s.cursor = c) (hneed : s.cursor.p + ctxBytes c ≤ s.bend.toNat)
    (hdec : fetchDecode cfg s c s.cursor.p = .ok i n) (hrun : SameNext (run cfg i s) (run cfg i t)) :
    SameNext (tokenElement cfg s) (tokenElement cfg t) := by
  obtain ⟨-, -, hend, -, -⟩ := h.block_lTok hp
  have hcur := h.cursor_eq hp
  have hread := h.bufBytes_eq (Nat.le_trans hneed hb)
  have hdec' : fetchDecode cfg t c t.cursor.p = .ok i n := by
    rw [← hdec, fetchDecode, fetchDecode, ← hcur, hread]
  rw [Machine.tokenElement_of_decoded hp hctx hneed hdec,
    Machine.tokenElement_of_decoded (h.phase.symm.trans hp) (by rw [← hcur, hctx]) (by rwa [← hcur, ← hend]) hdec']
  exact hrun

theorem SameRun.tokenElement (h : SameRun s t) (hp : s.phase = .lTok) (hb : s.bend.toNat ≤ s.bufLen.toNat) :
    SameNext (tokenElement (.withBufCap cap) s) (tokenElement (.withBufCap cap) t) := by
  by_cases hneed : s.cursor.p + ctxBytes (tokenCtx s.cursor) ≤ s.bend.toNat
  · rcases tokenCtx_cases s.cursor with ⟨hcopy, hctx⟩ | hctx | ⟨_ | _, hctx⟩ <;> rw [hctx] at hneed
    · exact h.tokenElement_of_decoded hp hb hctx hneed rfl (h.runExt hp hcopy _)
    · exact h.tokenElement_of_decoded hp hb hctx hneed rfl (h.runMask hp _ _)
    · exact h.tokenElement_of_decoded hp hb hctx hneed rfl (h.runLit hp _)
    · exact h.tokenElement_of_decoded hp hb hctx hneed rfl (h.run_decodeCopy hp _ _)
  · obtain ⟨-, -, hend, -, -⟩ := h.block_lTok hp
    have hpast := Nat.not_le.1 hneed
    rw [tokenElement_past_bend hp hpast, h.cursor_eq hp,
      tokenElement_past_bend (h.phase.symm.trans hp) (by rwa [← h.cursor_eq hp, ← hend])]
    exact h.incomplete hp _

/-- Both runs take the same elements until the token ends, by induction on the fuel (44_lzd_tokens.md R129). -/
theorem SameRun.tokenLoop (h : SameRun s t) (hp : s.phase = .lTok) (hb : s.bend.toNat ≤ s.bufLen.toNat) {n : Nat}
    (hn : s.bend.toNat - s.cursor.p < n) :
    SameNext (tokenLoop (.withBufCap cap) n s) (tokenLoop (.withBufCap cap) n t) := by
  induction n generalizing s t with
  | zero => omega
  | succ n ih =>
    obtain ⟨s', t', hs, ht, h'⟩ := h.tokenElement (cap := cap) hp hb
    obtain ⟨u, hu, hres⟩ := tokenElement_cases (cap := cap) s hp
    obtain rfl : s' = u := Host.Outcome.next.inj (hs.symm.trans hu)
    rw [tokenLoop_succ _ n s s' hs, tokenLoop_succ _ n t t' ht, ← h'.work]
    cases hres with
    | fault c inp val _ => exact h'.next
    | finished w u _ _ _ _ => exact h'.next
    | more w h1 _ _ =>
      refine ih h' hp hb ?_
      rw [cursor_continueStep, continueStep_bend]
      omega

/-! ### The engine's step and the run -/

/-- Every step of a DECOMPRESS leaves what its next step reads below BUF_LEN. -/
theorem EngineResult.keeps_streamInv (r : EngineResult cap s t) (hi : StreamInv s) : StreamInv t := by
  obtain ⟨hop, hpend, hphase, htokens, hraw⟩ := hi
  have hbuf := s.bufLen.isLt
  cases r with
  | stutter _ => exact ⟨hop, hpend, hphase, htokens, hraw⟩
  | toIv _ hops _ => simp [hop] at hops
  | rawBlock _ _ _ len n hl hf =>
    refine ⟨hop, hpend, by simp, by simp, fun _ => ?_⟩
    simp only [enterBlock_bstart, enterBlock_bufLen, BitVec.toNat_ofNat]
    omega
  | tokenBlock _ _ _ len hl hf =>
    refine ⟨hop, hpend, ?_, fun _ => ?_, ?_⟩
    · simp only
      split <;> simp
    · simp only [enterBlock_bufLen, BitVec.toNat_ofNat]
      omega
    · simp only
      split <;> simp
  | token hp w u _ _ _ he =>
    refine ⟨he.op_eq.trans hop, he.pending_eq.trans hpend, ?_, fun _ => ?_, ?_⟩
    · simp only [commitToken_phase, he.phase_eq, hp]
      split <;> simp
    · rw [commitToken_bend, commitToken_bufLen, he.bend_eq, he.bufLen_eq]
      exact htokens (by simp [hp])
    · simp only [commitToken_phase, he.phase_eq, hp]
      split <;> simp
  | keygen hp | keyed hp | noBlocks hp | toBlocks hp | block hp | lastBlock hp => simp [hp] at hphase
  | _ => exact ⟨hop, hpend, by simp, by simp, by simp⟩

/-- One engine step takes both runs to the same again. -/
theorem SameRun.engineStep (h : SameRun s t) (hi : StreamInv s) :
    SameNext (engineStep (.withBufCap cap) s) (engineStep (.withBufCap cap) t) := by
  have hphase := hi.phase
  have ht := h.phase.symm
  cases hp : s.phase with
  | idle =>
    rw [engineStep_of_idle hp, engineStep_of_idle (ht.trans hp)]
    exact h.next
  | cmd => simpa only [Machine.engineStep, ht, hp] using h.cmdStep.next
  | lCheck => simpa only [Machine.engineStep, ht, hp] using h.lCheckStep.next
  | lSig => simpa only [Machine.engineStep, ht, hp] using h.lSigStep.next
  | lHdr => exact h.headerStep hp
  | lTok =>
    obtain ⟨-, -, hend, -, -⟩ := h.block_lTok hp
    have hb : s.bend.toNat ≤ s.bufLen.toNat := Nat.le_of_add_right_le (hi.tokens (by simp [hp]))
    have hloop := h.tokenLoop (cap := cap) hp hb (n := tokenFuel s) (Nat.lt_succ_self _)
    have hfuel : tokenFuel t = tokenFuel s := by simp only [tokenFuel, h.cursor_eq hp, hend]
    simpa only [Machine.engineStep, ht, hp, hfuel] using hloop
  | lTrl => exact h.trailerStep hi hp
  | lRaw => simpa only [Machine.engineStep, ht, hp] using (h.lRawStep hi hp).next
  | xIv | xChk | xBlk => simp [hp] at hphase

theorem runSteps_succ {cfg : Config} {k : Nat} (h : stepWith cfg s = .next t) :
    runSteps cfg (k + 1) s = runSteps cfg k t := by
  simp [runSteps, Host.Core.run, coreWith, h]

/-- Two runs of one DECOMPRESS stay the same for any number of steps. -/
theorem SameRun.runSteps (h : SameRun s t) (hi : StreamInv s) (k : Nat) :
    SameNext (runSteps (.withBufCap cap) k s) (runSteps (.withBufCap cap) k t) := by
  induction k generalizing s t with
  | zero => exact h.next
  | succ k ih =>
    obtain ⟨s', t', hs, ht, h'⟩ := h.engineStep (cap := cap) hi
    have hi' := (engineStep_result hs).keeps_streamInv hi
    rw [runSteps_succ ((stepWith_of_no_pending hi.pending).trans hs),
      runSteps_succ ((stepWith_of_no_pending (h.pending.symm.trans hi.pending)).trans ht)]
    exact ih h' hi'

theorem SameRun.statusWord_eq (h : SameRun s t) : s.statusWord = t.statusWord := by
  simp only [State.statusWord, State.busy, h.errCode, h.err, h.done, h.phase]

/-! ### The start of the two runs -/

/-- An idle machine accepts CMD_DECOMPRESS (40_host_commands.md R100). -/
theorem exec_cmdDecompress_of_idle (h : s.phase = .idle) (e : Endian) (ie : Bool) :
    exec (.cmdDecompress e ie) s = .next (startCommand (setCtrl 0 e ie s)) := by
  simp [exec, execCmdDecompress, writeCtrl, State.busy, h]

theorem streamInv_start (hpend : s.pending = []) (e : Endian) (ie : Bool) :
    StreamInv (startCommand (setCtrl 0 e ie s)) :=
  ⟨rfl, hpend, by simp, by simp, by simp⟩

/-- START clears the flags and the cursors, so BUF below BUF_LEN, BUF_LEN and MODEL are all that is left to agree on
(40_host_commands.md R100). -/
theorem sameRun_start (hpend : s.pending = t.pending) (hwork : s.work = t.work) (hlen : s.bufLen = t.bufLen)
    (hmodel : s.model = t.model)
    (hbuf : ∀ a, a < s.bufLen.toNat → s.bufAt a = t.bufAt a ∧ (s.bufAt a).isSome = true) (e₁ e₂ : Endian)
    (ie₁ ie₂ : Bool) : SameRun (startCommand (setCtrl 0 e₁ ie₁ s)) (startCommand (setCtrl 0 e₂ ie₂ t)) where
  phase := rfl
  op := rfl
  bufLen := hlen
  model := hmodel
  ic := rfl
  oc := rfl
  done := rfl
  err := rfl
  errCode := rfl
  errIn := rfl
  errOut := rfl
  errVal := rfl
  work := hwork
  pending := hpend
  buf := hbuf
  out := fun a ha => absurd ha (Nat.not_lt_zero a)
  block := trivial

end

/-- Settles O47: the two runs start the same and every step keeps them so. -/
theorem imageDependsOnBufAndModel : Obligations.ImageDependsOnBufAndModel := by
  intro cap k s₁ s₂ u₁ u₂ t₁ e₁ e₂ ie₁ ie₂ hidle₁ hidle₂ hpend₁ hpend₂ hwork₁ hwork₂ hlen hmodel hbuf hu₁ hu₂ hrun
  rw [exec_cmdDecompress_of_idle hidle₁] at hu₁
  rw [exec_cmdDecompress_of_idle hidle₂] at hu₂
  cases hu₁
  cases hu₂
  have hstart := sameRun_start (hpend₁.trans hpend₂.symm) (hwork₁.trans hwork₂.symm) hlen hmodel hbuf e₁ e₂ ie₁ ie₂
  obtain ⟨v, t₂, hv, ht₂, h⟩ := hstart.runSteps (cap := cap) (streamInv_start hpend₁ e₁ ie₁) k
  obtain rfl : t₁ = v := Host.Outcome.next.inj (hrun.symm.trans hv)
  exact ⟨t₂, ht₂, h.phase, h.ic, h.oc, h.statusWord_eq, h.errIn, h.errOut, h.errVal, fun a ha => (h.out a ha).1⟩

end Sys2Proof.Machine

/-! PROOFS. The encoding of 30_encoding.md: what the decoder answers in each context, and that it undoes the encoder. -/

namespace Sys2Proof.Machine

/-! ### The fields of the formats -/

/-- Format H16, and every other 16-bit value of the stream (30_encoding.md R81). -/
@[simp] theorem be16_bytes (v : Half) : be16 (v.extractLsb' 8 8) (v.extractLsb' 0 8) = v := by
  rw [be16, BitVec.extractLsb'_append_extractLsb'_eq_extractLsb' (by rfl : 8 = 0 + 8)]
  exact BitVec.extractLsb'_eq_self

/-- Format CTRL32, bit by bit (30_encoding.md R87). -/
theorem getLsbD_ctrlWord (start : Bool) (op : BitVec 2) (e : Endian) (ie : Bool) (i : Nat) :
    (Sys2Proof.ctrlWord start op e ie).getLsbD i =
      if i = 0 then start else if i < 3 then op.getLsbD (i - 1)
      else if i = 3 then bitOfEndian e else decide (i = 4) && ie := by
  have happend : (Sys2Proof.ctrlWord start op e ie).getLsbD i =
      ((0 : BitVec 27) ++ BitVec.ofBool ie ++ BitVec.ofBool (bitOfEndian e) ++ op ++ BitVec.ofBool start).getLsbD i :=
    rfl
  simp only [happend, BitVec.getLsbD_append, BitVec.ofNat_eq_ofNat, BitVec.getLsbD_zero, BitVec.getLsbD_ofBool]
  rcases i with _ | _ | _ | _ | _ | i <;> simp

/-- Format CTRL32, field by field (30_encoding.md R87). -/
theorem ctrlWord_encoded_fields (start : Bool) (op : BitVec 2) (e : Endian) (ie : Bool) :
    (Sys2Proof.ctrlWord start op e ie).getLsbD 0 = start ∧
    (Sys2Proof.ctrlWord start op e ie).extractLsb' 1 2 = op ∧
    (Sys2Proof.ctrlWord start op e ie).getLsbD 3 = bitOfEndian e ∧
    (Sys2Proof.ctrlWord start op e ie).getLsbD 4 = ie := by
  refine ⟨getLsbD_ctrlWord .., ?_, getLsbD_ctrlWord .., getLsbD_ctrlWord ..⟩
  ext i hi
  have hpos : 1 + i ≠ 0 := by omega
  have hlt : 1 + i < 3 := by omega
  rw [BitVec.getElem_extractLsb', getLsbD_ctrlWord, if_neg hpos, if_pos hlt, Nat.add_sub_cancel_left,
    BitVec.getLsbD_eq_getElem hi]

@[simp] theorem endianOfBit_bitOfEndian (e : Endian) : endianOfBit (bitOfEndian e) = e := by cases e <;> rfl

/-! ### Block headers (30_encoding.md R89, rows of L_HDR) -/

theorem decodeHeader_zero (model : Byte) : decodeHeader Config.hw model 0 = .endMarker := rfl

theorem decodeHeader_sentinel_model1 : decodeHeader Config.hw 1 0xE000 = .raw1 := rfl

theorem decodeHeader_sentinel_model2 : decodeHeader Config.hw 2 0xE000 = .raw2 := rfl

theorem decodeHeader_sentinel_of_ne {model : Byte} (h1 : model ≠ 1) (h2 : model ≠ 2) :
    decodeHeader Config.hw model 0xE000 = .illegalSentinel := by
  have hlen : blockLen Config.hw model 0xE000 = none := by rw [blockLen, if_pos rfl, if_neg h1, if_neg h2]
  rw [decodeHeader, if_neg (by decide), hlen]
  rfl

theorem decodeHeader_subM2_model2 : decodeHeader Config.hw 2 0x6000 = .raw2v := rfl

theorem decodeHeader_of_gt_maxBlock {v : Half} (model : Byte) (hgt : 0x8000 < v) (hs : v ≠ 0xE000) :
    decodeHeader Config.hw model v = .illegalOversized v := by
  have hlen : blockLen Config.hw model v = none := by rw [blockLen, if_neg hs, if_pos hgt]
  rw [decodeHeader, if_neg (by bv_omega), hlen]
  exact if_neg hs

theorem decodeHeader_of_le_maxBlock {model : Byte} {v : Half} (h0 : v ≠ 0) (hle : v ≤ 0x8000)
    (hv : ¬(v = 0x6000 ∧ model = 2)) : decodeHeader Config.hw model v = .blk v := by
  have hlen : blockLen Config.hw model v = some (v.toNat, false) := by
    rw [blockLen, if_neg (by bv_omega), if_neg (by bv_omega)]
  have hkind : blockKind Config.hw model v.toNat false = .token := by
    have h1 : v.toNat ≠ 0xC002 := by bv_omega
    have h2 : ¬(model = 2 ∧ v.toNat = 0x6000) := fun ⟨hm, hn⟩ => hv ⟨BitVec.eq_of_toNat_eq hn, hm⟩
    simp only [blockKind]
    rw [if_neg fun ⟨_, hn, _⟩ => h1 hn, if_neg fun ⟨hm, hn, _⟩ => h2 ⟨hm, hn⟩]
  simp only [decodeHeader, if_neg h0, hlen, hkind]

/-- The rows of R89 for L_HDR leave no value out. -/
theorem header_value_cases (model : Byte) (v : Half) :
    v = 0 ∨ (v = 0xE000 ∧ model = 1) ∨ (v = 0xE000 ∧ model = 2) ∨ (v = 0xE000 ∧ model ≠ 1 ∧ model ≠ 2) ∨
    (v = 0x6000 ∧ model = 2) ∨ (0x8000 < v ∧ v ≠ 0xE000) ∨
    (v ≠ 0 ∧ v ≤ 0x8000 ∧ ¬(v = 0x6000 ∧ model = 2)) := by
  by_cases h0 : v = 0
  · exact .inl h0
  by_cases hs : v = 0xE000
  · by_cases h1 : model = 1
    · exact .inr (.inl ⟨hs, h1⟩)
    by_cases h2 : model = 2
    · exact .inr (.inr (.inl ⟨hs, h2⟩))
    exact .inr (.inr (.inr (.inl ⟨hs, h1, h2⟩)))
  by_cases hm : v = 0x6000 ∧ model = 2
  · exact .inr (.inr (.inr (.inr (.inl hm))))
  by_cases hgt : 0x8000 < v
  · exact .inr (.inr (.inr (.inr (.inr (.inl ⟨hgt, hs⟩)))))
  · exact .inr (.inr (.inr (.inr (.inr (.inr ⟨h0, BitVec.not_lt.1 hgt, hm⟩)))))

/-- Settles O4: one row of R89 for each clause. -/
theorem headerValueSelectsElement : Obligations.HeaderValueSelectsElement := by
  intro model v
  refine ⟨?_, ?_, ?_, ?_, ?_, decodeHeader_of_gt_maxBlock model, decodeHeader_of_le_maxBlock⟩
  · rintro rfl
    exact decodeHeader_zero model
  · rintro rfl rfl
    exact decodeHeader_sentinel_model1
  · rintro rfl rfl
    exact decodeHeader_sentinel_model2
  · rintro rfl h1 h2
    exact decodeHeader_sentinel_of_ne h1 h2
  · rintro rfl rfl
    exact decodeHeader_subM2_model2

/-! ### Copy tokens and host words -/

/-- Which element a copy token's three fields select (30_encoding.md R84, R89). -/
theorem decodeCopy_append (ohi : BitVec 3) (lf : BitVec 5) (olo : Byte) :
    decodeCopy Config.hw (ohi ++ lf) olo =
      if ohi = 0 ∧ olo = 0 then .illegalZeroOffset lf
      else if copyLength Config.hw lf = Config.hw.escLen then .cpyx ohi olo else .cpy ohi lf olo := by
  have hohi : (ohi ++ lf).extractLsb' 5 3 = ohi := BitVec.extractLsb'_append_eq_left
  have hlf : (ohi ++ lf).extractLsb' 0 5 = lf := BitVec.extractLsb'_append_eq_right
  simp only [decodeCopy, hohi, hlf]

theorem decodeCtrl_start (op : BitVec 2) (e : Endian) (ie : Bool) :
    decodeCtrl (Sys2Proof.ctrlWord true op e ie) =
      if op = 0 then .cmdDecompress e ie else if op = 1 then .cmdXorRegion e ie
      else if op = 2 then .cmdKeygen e ie else .illegalCommand e ie := by
  obtain ⟨hstart, hop, he, hie⟩ := ctrlWord_encoded_fields true op e ie
  simp only [decodeCtrl, hstart, hop, he, hie, endianOfBit_bitOfEndian, if_true]

theorem decodeCtrl_no_start (op : BitVec 2) (e : Endian) (ie : Bool) :
    decodeCtrl (Sys2Proof.ctrlWord false op e ie) = .cfgCtrl op e ie := by
  obtain ⟨hstart, hop, he, hie⟩ := ctrlWord_encoded_fields false op e ie
  simp only [decodeCtrl, hstart, hop, he, hie, endianOfBit_bitOfEndian, Bool.false_eq_true, if_false]

theorem decodeStatus_statWord (clrDone clrErr : Bool) : decodeStatus (statWord clrDone clrErr) =
    .ack clrDone clrErr := by
  cases clrDone <;> cases clrErr <;> rfl

/-! ### What the constraints of a row say -/

theorem wellFormed_blk_iff (h : Half) : (Instr.blk h).WellFormed ↔ h ≠ 0 ∧ h ≤ 0x8000 := by
  simp only [Instr.WellFormed, Instr.wf, Bool.and_eq_true, bne_iff_ne, decide_eq_true_eq]

theorem wellFormed_illegalOversized_iff (h : Half) :
    (Instr.illegalOversized h).WellFormed ↔ 0x8000 < h ∧ h ≠ 0xE000 := by
  simp only [Instr.WellFormed, Instr.wf, Bool.and_eq_true, bne_iff_ne, decide_eq_true_eq]

theorem wellFormed_cpy_iff (ohi : BitVec 3) (lf : BitVec 5) (olo : Byte) :
    (Instr.cpy ohi lf olo).WellFormed ↔ copyLength Config.hw lf ≠ Config.hw.escLen ∧ ¬(ohi = 0 ∧ olo = 0) := by
  simp [Instr.WellFormed, Instr.wf, copyLength, imp_iff_not_or]

theorem wellFormed_cpyx_iff (ohi : BitVec 3) (olo : Byte) :
    (Instr.cpyx ohi olo).WellFormed ↔ ¬(ohi = 0 ∧ olo = 0) := by
  simp [Instr.WellFormed, Instr.wf, imp_iff_not_or]

theorem wellFormed_illegalTrailer_iff (t : Half) : (Instr.illegalTrailer t).WellFormed ↔ t ≠ 0 := by
  simp only [Instr.WellFormed, Instr.wf, bne_iff_ne]

/-- A literal header of SUB_M2 is no BLK under MODEL 2 (30_encoding.md R89). -/
theorem admits_blk_iff (model : Byte) (h : Half) :
    Ctx.admits Config.hw (.header model) (.blk h) = true ↔ ¬(h = 0x6000 ∧ model = 2) := by
  have hval : h.toNat = 0x6000 ↔ h = 0x6000 := ⟨fun e => BitVec.eq_of_toNat_eq e, fun e => e ▸ rfl⟩
  simp [Ctx.admits, hval, imp_not_comm, imp_iff_not_or]

/-! ### The round trip, context by context -/

section
variable {i : Instr}

theorem decode_be16Bytes_header (model : Byte) (v : Half) :
    decode Config.hw (.header model) (.bytes (be16Bytes v)) = .ok (decodeHeader Config.hw model v) 2 := by
  simp [be16Bytes, decode]

theorem decode_encode_header {model : Byte} (hwf : i.WellFormed)
    (hadm : Ctx.admits Config.hw (.header model) i = true) :
    decode Config.hw (.header model) (encode Config.hw i) = .ok i i.length := by
  cases i with
  | endMarker => rfl
  | blk h =>
    obtain ⟨h0, hle⟩ := (wellFormed_blk_iff h).1 hwf
    rw [encode, decode_be16Bytes_header, decodeHeader_of_le_maxBlock h0 hle ((admits_blk_iff model h).1 hadm)]
    rfl
  | raw1 =>
    obtain rfl : model = 1 := by simpa [Ctx.admits] using hadm
    rfl
  | raw2 =>
    obtain rfl : model = 2 := by simpa [Ctx.admits] using hadm
    rfl
  | raw2v =>
    obtain rfl : model = 2 := by simpa [Ctx.admits] using hadm
    rfl
  | illegalSentinel =>
    obtain ⟨h1, h2⟩ : model ≠ 1 ∧ model ≠ 2 := by simpa [Ctx.admits] using hadm
    rw [encode, decode_be16Bytes_header, decodeHeader_sentinel_of_ne h1 h2]
    rfl
  | illegalOversized h =>
    obtain ⟨hgt, hs⟩ := (wellFormed_illegalOversized_iff h).1 hwf
    rw [encode, decode_be16Bytes_header, decodeHeader_of_gt_maxBlock model hgt hs]
    rfl
  | _ => simp [Ctx.admits] at hadm

theorem decode_copyBytes (ohi : BitVec 3) (lf : BitVec 5) (olo : Byte) :
    decode Config.hw (.token true) (.bytes (copyBytes ohi lf olo)) =
      .ok (decodeCopy Config.hw (ohi ++ lf) olo) 2 := rfl

theorem decode_encode_copy (hwf : i.WellFormed) (hadm : Ctx.admits Config.hw (.token true) i = true) :
    decode Config.hw (.token true) (encode Config.hw i) = .ok i i.length := by
  cases i with
  | cpy ohi lf olo =>
    obtain ⟨hlen, hoff⟩ := (wellFormed_cpy_iff ohi lf olo).1 hwf
    rw [encode, decode_copyBytes, decodeCopy_append, if_neg hoff, if_neg hlen]
    rfl
  | cpyx ohi olo =>
    rw [encode, decode_copyBytes, decodeCopy_append, if_neg ((wellFormed_cpyx_iff ohi olo).1 hwf)]
    rfl
  | illegalZeroOffset lf =>
    rw [encode, decode_copyBytes, decodeCopy_append, if_pos ⟨rfl, rfl⟩]
    rfl
  | _ => simp [Ctx.admits] at hadm

theorem decode_encode_trailer (hwf : i.WellFormed) (hadm : Ctx.admits Config.hw .trailer i = true) :
    decode Config.hw .trailer (encode Config.hw i) = .ok i i.length := by
  cases i with
  | trl => rfl
  | illegalTrailer t =>
    have ht := (wellFormed_illegalTrailer_iff t).1 hwf
    simp only [encode, be16Bytes, decode, be16_bytes, if_neg ht, Instr.length]
  | _ => simp [Ctx.admits] at hadm

theorem decode_encode_ctrlWrite (hadm : Ctx.admits Config.hw .ctrlWrite i = true) :
    decode Config.hw .ctrlWrite (encode Config.hw i) = .ok i i.length := by
  cases i with
  | cmdDecompress e ie => exact congrArg (Decoded.ok · 4) (decodeCtrl_start 0 e ie)
  | cmdXorRegion e ie => exact congrArg (Decoded.ok · 4) (decodeCtrl_start 1 e ie)
  | cmdKeygen e ie => exact congrArg (Decoded.ok · 4) (decodeCtrl_start 2 e ie)
  | illegalCommand e ie => exact congrArg (Decoded.ok · 4) (decodeCtrl_start 3 e ie)
  | cfgCtrl op e ie => exact congrArg (Decoded.ok · 4) (decodeCtrl_no_start op e ie)
  | _ => simp [Ctx.admits] at hadm

theorem decode_encode_mask (hadm : Ctx.admits Config.hw .mask i = true) :
    decode Config.hw .mask (encode Config.hw i) = .ok i i.length := by
  cases i with
  | mask m => simp only [encode, be16Bytes, decode, be16_bytes, Instr.length]
  | _ => simp [Ctx.admits] at hadm

theorem decode_encode_literal (hadm : Ctx.admits Config.hw (.token false) i = true) :
    decode Config.hw (.token false) (encode Config.hw i) = .ok i i.length := by
  cases i with
  | lit b => rfl
  | _ => simp [Ctx.admits] at hadm

theorem decode_encode_extension (hadm : Ctx.admits Config.hw .extension i = true) :
    decode Config.hw .extension (encode Config.hw i) = .ok i i.length := by
  cases i with
  | ext e => rfl
  | _ => simp [Ctx.admits] at hadm

theorem decode_encode_statusWrite (hadm : Ctx.admits Config.hw .statusWrite i = true) :
    decode Config.hw .statusWrite (encode Config.hw i) = .ok i i.length := by
  cases i with
  | ack clrDone clrErr => exact congrArg (Decoded.ok · 4) (decodeStatus_statWord clrDone clrErr)
  | _ => simp [Ctx.admits] at hadm

end

/-- Settles O1: the contexts of R89 one by one. -/
theorem decodeEncodeRoundTrip : Obligations.DecodeEncodeRoundTrip := by
  intro c i hwf hadm
  cases c with
  | header model => exact decode_encode_header hwf hadm
  | mask => exact decode_encode_mask hadm
  | token copy =>
    cases copy with
    | false => exact decode_encode_literal hadm
    | true => exact decode_encode_copy hwf hadm
  | extension => exact decode_encode_extension hadm
  | trailer => exact decode_encode_trailer hwf hadm
  | ctrlWrite => exact decode_encode_ctrlWrite hadm
  | statusWrite => exact decode_encode_statusWrite hadm

/-- Settles O3: the four words are the encodings of their elements, which the round trip gives back. -/
theorem specWordsDecode : Obligations.SpecWordsDecode :=
  ⟨decodeEncodeRoundTrip (.header 0) (.blk 20) (by decide) (by decide),
    decodeEncodeRoundTrip (.token true) (.cpy 7 0 0xFF) (by decide) (by decide),
    decodeEncodeRoundTrip (.token true) (.cpyx 0 0x01) (by decide) (by decide),
    decodeEncodeRoundTrip .ctrlWrite (.cmdXorRegion .big true) (by decide) (by decide)⟩

/-! ### The decoder's answers -/

/-- An answer of the decoder that R89 allows in a context. -/
def AllowedAnswer (c : Ctx) (i : Instr) (n : Nat) : Prop :=
  i.WellFormed ∧ c.admits Config.hw i = true ∧ n = i.length

theorem decodeHeader_allowed (model : Byte) (v : Half) :
    AllowedAnswer (.header model) (decodeHeader Config.hw model v) 2 := by
  rcases header_value_cases model v with
    rfl | ⟨rfl, rfl⟩ | ⟨rfl, rfl⟩ | ⟨rfl, h1, h2⟩ | ⟨rfl, rfl⟩ | ⟨hgt, hs⟩ | ⟨h0, hle, hv⟩
  · exact ⟨rfl, rfl, rfl⟩
  · exact ⟨rfl, rfl, rfl⟩
  · exact ⟨rfl, rfl, rfl⟩
  · rw [decodeHeader_sentinel_of_ne h1 h2]
    exact ⟨rfl, by simpa [Ctx.admits] using And.intro h1 h2, rfl⟩
  · exact ⟨rfl, rfl, rfl⟩
  · rw [decodeHeader_of_gt_maxBlock model hgt hs]
    exact ⟨(wellFormed_illegalOversized_iff v).2 ⟨hgt, hs⟩, rfl, rfl⟩
  · rw [decodeHeader_of_le_maxBlock h0 hle hv]
    exact ⟨(wellFormed_blk_iff v).2 ⟨h0, hle⟩, (admits_blk_iff model v).2 hv, rfl⟩

theorem decodeCopy_allowed (s0 s1 : Byte) : AllowedAnswer (.token true) (decodeCopy Config.hw s0 s1) 2 := by
  unfold decodeCopy
  dsimp only
  split_ifs with hoff hlen
  · exact ⟨rfl, rfl, rfl⟩
  · exact ⟨(wellFormed_cpyx_iff _ _).2 hoff, rfl, rfl⟩
  · exact ⟨(wellFormed_cpy_iff _ _ _).2 ⟨hlen, hoff⟩, rfl, rfl⟩

theorem decodeTrailer_allowed (t : Half) :
    AllowedAnswer .trailer (if t = 0 then .trl else .illegalTrailer t) 2 := by
  split_ifs with ht
  · exact ⟨rfl, rfl, rfl⟩
  · exact ⟨(wellFormed_illegalTrailer_iff t).2 ht, rfl, rfl⟩

theorem decodeCtrl_allowed (w : Word) : AllowedAnswer .ctrlWrite (decodeCtrl w) 4 := by
  unfold decodeCtrl
  dsimp only
  split_ifs <;> exact ⟨rfl, rfl, rfl⟩

/-- Settles O2: each arm of the decoder that answers gives an allowed answer. -/
theorem decodedInstrIsAdmitted : Obligations.DecodedInstrIsAdmitted := by
  intro c x i n h
  change AllowedAnswer c i n
  unfold decode at h
  split at h <;> cases h
  · exact decodeHeader_allowed _ _
  · exact ⟨rfl, rfl, rfl⟩
  · exact ⟨rfl, rfl, rfl⟩
  · exact decodeCopy_allowed _ _
  · exact ⟨rfl, rfl, rfl⟩
  · exact decodeTrailer_allowed _
  · exact decodeCtrl_allowed _
  · exact ⟨rfl, rfl, rfl⟩

/-! ### The selector -/

/-- The selector moves one bit right per token (44_lzd_tokens.md R130). -/
theorem selector_eq_twoPow : ∀ k < 16, (0x8000 : Half) >>> k = BitVec.twoPow 16 (15 - k) := by decide

theorem selector_after_group : (0x8000 : Half) >>> 16 = 0 := by decide

theorem twoPow_ne_zero : ∀ j < 16, BitVec.twoPow 16 j ≠ 0 := by decide

theorem and_twoPow_ne_zero_iff (m : Half) {j : Nat} (hj : j < 16) :
    m &&& BitVec.twoPow 16 j ≠ 0 ↔ m.getLsbD j = true := by
  rw [BitVec.and_twoPow]
  split
  case isTrue hm => exact iff_of_true (twoPow_ne_zero j hj) hm
  case isFalse hm => exact iff_of_false (not_not.2 rfl) hm

/-- Settles O5: the k-th selector is the one bit 15 - k, and the 16th shift leaves none. -/
theorem selectorPicksMaskBit : Obligations.SelectorPicksMaskBit := by
  intro p m
  refine ⟨fun k hk => ?_, tokenCtx_mask rfl selector_after_group⟩
  have hj : 15 - k < 16 := by omega
  rw [selector_eq_twoPow k hk, tokenCtx_token rfl (twoPow_ne_zero _ hj)]
  simp only [and_twoPow_ne_zero_iff m hj, Bool.decide_eq_true]

/-! ### The host's words -/

theorem hostWrite_ctrl (w : Word) (s : State) : hostWrite Config.hw 0x00 w s = exec (decodeCtrl w) s :=
  run_hw (decodeCtrl w) s

theorem hostWrite_status (w : Word) (s : State) : hostWrite Config.hw 0x04 w s = exec (decodeStatus w) s :=
  run_hw (decodeStatus w) s

/-- Settles O7: the pending write is taken from the list, decoded and run. -/
theorem stepRunsDecodedHostWord : Obligations.StepRunsDecodedHostWord := by
  intro s w rest
  refine ⟨fun hp => ?_, fun hp => ?_⟩
  · rw [step_of_pending hp]
    exact hostWrite_ctrl w _
  · rw [step_of_pending hp]
    exact hostWrite_status w _

end Sys2Proof.Machine

/-! PROOFS. The host's command words (40_host_commands.md R100 to R102): what a write to CTRL or STATUS does, the
dispatch step, and that every command ends within its bound of steps (R106). -/

namespace Sys2Proof.Machine

section
variable {cfg : Config} {cap : Word} {s t : State} {k : Nat}

/-! ### Writes to CTRL and STATUS -/

/-- While busy a CTRL write takes only IE (40_host_commands.md R100). -/
theorem writeCtrl_of_busy (h : s.phase ≠ .idle) (start : Bool) (op : BitVec 2) (e : Endian) (ie : Bool) :
    writeCtrl start op e ie s = { s with ie := ie } :=
  if_pos (by simpa [State.busy] using h)

theorem writeCtrl_of_idle (h : s.phase = .idle) (start : Bool) (op : BitVec 2) (e : Endian) (ie : Bool) :
    writeCtrl start op e ie s = if start then startCommand (setCtrl op e ie s) else setCtrl op e ie s :=
  if_neg (by simp [State.busy, h])

/-- The four values of OP (10_state.md R21). -/
theorem op_cases : ∀ op : BitVec 2, op = 0 ∨ op = 1 ∨ op = 2 ∨ op = 3 := by decide

/-- The four commands are the CTRL writes with START = 1, one per OP (30_encoding.md R87). -/
theorem exec_command {i : Instr} {op : BitVec 2} {e : Endian} {ie : Bool}
    (hi : (i = .cmdDecompress e ie ∧ op = 0) ∨ (i = .cmdXorRegion e ie ∧ op = 1) ∨ (i = .cmdKeygen e ie ∧ op = 2) ∨
      (i = .illegalCommand e ie ∧ op = 3)) (s : State) :
    exec i s = .next (writeCtrl true op e ie s) := by
  rcases hi with ⟨rfl, rfl⟩ | ⟨rfl, rfl⟩ | ⟨rfl, rfl⟩ | ⟨rfl, rfl⟩ <;> rfl

theorem exec_cfgCtrl (op : BitVec 2) (e : Endian) (ie : Bool) (s : State) :
    exec (.cfgCtrl op e ie) s = .next (writeCtrl false op e ie s) := rfl

/-- A word written to CTRL writes the fields its bits hold, whatever command it names (10_state.md R21). -/
theorem exec_decodeCtrl (w : Word) (s : State) :
    exec (decodeCtrl w) s =
      .next (writeCtrl (w.getLsbD 0) (w.extractLsb' 1 2) (endianOfBit (w.getLsbD 3)) (w.getLsbD 4) s) := by
  cases hstart : w.getLsbD 0 with
  | false =>
    rw [← exec_cfgCtrl]
    simp only [decodeCtrl, hstart, Bool.false_eq_true, if_false]
  | true =>
    refine exec_command ?_ s
    rcases op_cases (w.extractLsb' 1 2) with h | h | h | h <;> simp [decodeCtrl, hstart, h]

/-- A word written to STATUS clears the flags its bits 1 and 2 name (30_encoding.md R87). -/
theorem exec_decodeStatus (w : Word) (s : State) :
    exec (decodeStatus w) s = .next (acknowledge (w.getLsbD 1) (w.getLsbD 2) s) := rfl

/-- Flags that are already 0 stay as they are. -/
theorem acknowledge_of_clear (hdone : s.done = false) (herr : s.err = false) (hcode : s.errCode = 0)
    (clrDone clrErr : Bool) : acknowledge clrDone clrErr s = s := by
  have hd : (if clrDone then false else s.done) = s.done := by simp [hdone]
  have he : (if clrErr then false else s.err) = s.err := by simp [herr]
  have hc : (if clrErr then 0 else s.errCode) = s.errCode := by simp [hcode]
  rw [acknowledge, hd, he, hc]

/-- Settles O25: each of the four commands is a CTRL write with START = 1. -/
theorem startBeginsCommand : Obligations.StartBeginsCommand := by
  intro e ie s i op hidle hi
  rw [exec_command hi, writeCtrl_of_idle hidle]
  rfl

/-- Settles O26: a CTRL write with START = 0. -/
theorem cfgCtrlStoresFields : Obligations.CfgCtrlStoresFields := by
  intro op e ie s hidle
  rw [exec_cfgCtrl, writeCtrl_of_idle hidle]
  rfl

/-- Settles O27: whatever the word names, it is a CTRL write. -/
theorem ctrlWriteWhileBusyTakesOnlyIe : Obligations.CtrlWriteWhileBusyTakesOnlyIe := by
  intro w s hbusy
  rw [exec_decodeCtrl, writeCtrl_of_busy hbusy]

/-- Settles O28: the word is an ACK, which writes DONE, ERR and ERR_CODE only. -/
theorem ackClearsFlags : Obligations.AckClearsFlags := by
  intro w s
  refine ⟨rfl, fun hdone herr hcode => ?_, fun hclrDone hclrErr t ht => ?_⟩
  · rw [exec_decodeStatus, acknowledge_of_clear hdone herr hcode]
  · rw [exec_decodeStatus, hclrDone, hclrErr] at ht
    cases ht
    simp [State.irq, acknowledge]

/-! ### The steps that decode nothing -/

theorem engineStep_cmd (hp : s.phase = .cmd) : engineStep cfg s = .next (cmdStep cfg s) := by
  simp only [engineStep, hp]
theorem engineStep_lCheck (hp : s.phase = .lCheck) : engineStep cfg s = .next (lCheckStep s) := by
  simp only [engineStep, hp]
theorem engineStep_lSig (hp : s.phase = .lSig) : engineStep cfg s = .next (lSigStep cfg s) := by
  simp only [engineStep, hp]
theorem engineStep_xIv (hp : s.phase = .xIv) : engineStep cfg s = .next (xIvStep cfg s) := by
  simp only [engineStep, hp]
theorem engineStep_xChk (hp : s.phase = .xChk) : engineStep cfg s = .next (xChkStep cfg s) := by
  simp only [engineStep, hp]
theorem engineStep_xBlk (hp : s.phase = .xBlk) : engineStep cfg s = .next (xBlkStep cfg s) := by
  simp only [engineStep, hp]

/-! ### The dispatch step, OP by OP (40_host_commands.md R102) -/

theorem cmdStep_illegal (hop : s.op = 3) : cmdStep (.withBufCap cap) s = raiseFault .illegalCommand 0 3 s := if_pos hop

theorem cmdStep_tooLong (hop : s.op ≠ 3) (hb : cap.toNat < s.bufLen.toNat) :
    cmdStep (.withBufCap cap) s = raiseFault .outOfBounds s.bufLen.toNat 0 s := by
  rw [cmdStep_withBufCap, if_neg hop, if_pos hb]

theorem cmdStep_decompress (hop : s.op = 0) (hb : s.bufLen.toNat ≤ cap.toNat) :
    cmdStep (.withBufCap cap) s = { s with phase := .lCheck } := by
  rw [cmdStep_withBufCap, if_neg (by simp [hop]), if_neg (Nat.not_lt.2 hb), if_pos hop]

theorem cmdStep_xke (hop : s.op = 1 ∨ s.op = 2) (hb : s.bufLen.toNat ≤ cap.toNat) :
    cmdStep (.withBufCap cap) s = { s with phase := .xIv } := by
  have h3 : s.op ≠ 3 := by rcases hop with h | h <;> simp [h]
  have h0 : s.op ≠ 0 := by rcases hop with h | h <;> simp [h]
  rw [cmdStep_withBufCap, if_neg h3, if_neg (Nat.not_lt.2 hb), if_neg h0]

/-- Settles O29: by OP and the length of the buffer. -/
theorem dispatchStep : Obligations.DispatchStep := by
  intro cap s hp
  simp only [engineStep_cmd hp]
  refine ⟨fun hop => ?_, fun hop hb => ?_, fun hop hb => ?_, fun hop hb => ?_⟩
  · rw [cmdStep_illegal hop, raiseFault_eq_faultState _ _ (by decide) (by decide)]
    rfl
  · rw [cmdStep_tooLong hop hb, raiseFault_eq_faultState _ _ s.bufLen.isLt (by decide), BitVec.ofNat_toNat,
      BitVec.setWidth_eq]
    rfl
  · rw [cmdStep_decompress hop hb]
  · rw [cmdStep_xke hop hb]

/-! ### Every command ends (40_host_commands.md R106) -/

/-- A command has ended: the machine is idle with DONE or ERR set (60_exceptions.md R141, R143). -/
def Ended (s : State) : Prop := s.phase = .idle ∧ (s.done = true ∨ s.err = true)

/-- After k steps the command has ended. -/
def EndsWithin (cap : Word) (k : Nat) (s : State) : Prop := ∃ t, runSteps (.withBufCap cap) k s = .next t ∧ Ended t

theorem ended_raiseFault (c : Cause) (inp val : Nat) (s : State) : Ended (raiseFault c inp val s) := ⟨rfl, .inr rfl⟩

theorem ended_complete (s : State) : Ended (complete s) := ⟨rfl, .inl rfl⟩

theorem endsWithin_succ (hpend : s.pending = []) (hs : engineStep (.withBufCap cap) s = .next t)
    (h : EndsWithin cap k t) : EndsWithin cap (k + 1) s := by
  rw [EndsWithin, runSteps_succ ((stepWith_of_no_pending hpend).trans hs)]
  exact h

/-- An ended command stays ended: the idle engine takes no step (log entry 16). -/
theorem Ended.endsWithin (h : Ended s) (hpend : s.pending = []) (k : Nat) : EndsWithin cap k s := by
  induction k with
  | zero => exact ⟨s, rfl, h⟩
  | succ k ih => exact endsWithin_succ hpend (engineStep_of_idle h.1) ih

/-! ### The commands of the XKE unit -/

/-- k + 1 blocks of the region are left, and they lie inside BUF: the loop takes one step per block
(41_xke_keystream.md R111). -/
theorem endsWithin_xBlk (hpend : s.pending = []) (hp : s.phase = .xBlk)
    (hb : s.xbase.toNat + s.xstart.toNat + s.xlen.toNat ≤ s.bufLen.toNat)
    (hk : s.ic.toNat + 0x80 * (k + 1) = s.xbase.toNat + s.xstart.toNat + s.xlen.toNat) : EndsWithin cap (k + 1) s := by
  have hbuf := s.bufLen.isLt
  induction k generalizing s with
  | zero =>
    refine endsWithin_succ hpend (engineStep_xBlk hp) ?_
    rw [xBlkStep_withBufCap, if_pos hk]
    exact (ended_complete _).endsWithin (by exact hpend) 0
  | succ k ih =>
    have hic : (BitVec.ofNat 32 (s.ic.toNat + 0x80)).toNat = s.ic.toNat + 0x80 := by rw [BitVec.toNat_ofNat]; omega
    refine endsWithin_succ hpend (engineStep_xBlk hp) ?_
    rw [xBlkStep_withBufCap, if_neg (by omega)]
    refine ih hpend hp hb ?_ hbuf
    simp only [hic]
    omega

/-- The region check, and one step per block of the region (41_xke_keystream.md R110, R111). -/
theorem endsWithin_xChk (hpend : s.pending = []) (hp : s.phase = .xChk) (hk : s.xlen.toNat / 0x80 = k) :
    EndsWithin cap (k + 1) s := by
  refine endsWithin_succ hpend (engineStep_xChk hp) ?_
  rw [xChkStep_withBufCap]
  split
  · exact (ended_raiseFault _ _ _ s).endsWithin hpend _
  · rename_i hm
    split
    · exact (ended_complete s).endsWithin hpend _
    · rename_i hl
      split
      · exact (ended_raiseFault _ _ _ s).endsWithin hpend _
      · have hbuf := s.bufLen.isLt
        have hlen : s.xlen.toNat ≠ 0 := fun h0 => hl (BitVec.eq_of_toNat_eq h0)
        obtain ⟨j, rfl⟩ : ∃ j, k = j + 1 := Nat.exists_eq_succ_of_ne_zero (by omega)
        have hic : (BitVec.ofNat 32 (s.xbase.toNat + s.xstart.toNat)).toNat = s.xbase.toNat + s.xstart.toNat := by
          rw [BitVec.toNat_ofNat]; omega
        refine endsWithin_xBlk hpend rfl ?_ ?_ <;> simp only [hic] <;> omega

/-- The IV step ends a KEYGEN (41_xke_keystream.md R108). -/
theorem endsWithin_xIv_keygen (hpend : s.pending = []) (hp : s.phase = .xIv) (hop : s.op = 2) : EndsWithin cap 1 s := by
  refine endsWithin_succ hpend (engineStep_xIv hp) ?_
  rw [xIvStep_withBufCap]
  generalize loadKey _ _ = key
  split
  · exact (ended_raiseFault _ _ _ s).endsWithin hpend 0
  · exact (ended_complete _).endsWithin (by exact hpend) 0

/-- In an XOR_REGION the region check follows the IV step (41_xke_keystream.md R108). -/
theorem endsWithin_xIv_region (hpend : s.pending = []) (hp : s.phase = .xIv) (hop : s.op = 1) :
    EndsWithin cap (s.xlen.toNat / 0x80 + 2) s := by
  refine endsWithin_succ hpend (engineStep_xIv hp) ?_
  rw [xIvStep_withBufCap]
  generalize loadKey _ _ = key
  split
  · exact (ended_raiseFault _ _ _ s).endsWithin hpend _
  · rw [if_neg (by simp [hop])]
    exact endsWithin_xChk (by exact hpend) rfl rfl

/-! ### DECOMPRESS -/

/-- The registers that a step past the signature reads to move IC, as far as they bound IC by BUF_LEN: the part of
`phaseInv` that holds whatever the cursors and flags were when the command started (43_lzd_blocks.md R121, R123). -/
def blockInStream (s : State) : Prop :=
  match s.phase with
  | .lHdr => True
  | .lTok => BlockInv s ∧ s.ic.toNat < s.bend.toNat
  | .lTrl => BlockInv s ∧ s.ic = s.bend
  | .lRaw => s.bstart.toNat + s.blen.toNat ≤ s.bufLen.toNat ∧ 0 < s.blen.toNat ∧ s.ic = s.bstart
  | .idle | .cmd | .lCheck | .lSig | .xIv | .xChk | .xBlk => False

/-- A DECOMPRESS past its signature, between two steps that no host action interrupts. -/
structure InStream (s : State) : Prop where
  pending : s.pending = []
  work : s.work = none
  block : blockInStream s

theorem InStream.lTok (h : InStream s) (hp : s.phase = .lTok) : BlockInv s ∧ s.ic.toNat < s.bend.toNat := by
  simpa only [blockInStream, hp] using h.block

theorem InStream.lTrl (h : InStream s) (hp : s.phase = .lTrl) : BlockInv s ∧ s.ic = s.bend := by
  simpa only [blockInStream, hp] using h.block

theorem InStream.lRaw (h : InStream s) (hp : s.phase = .lRaw) :
    s.bstart.toNat + s.blen.toNat ≤ s.bufLen.toNat ∧ 0 < s.blen.toNat ∧ s.ic = s.bstart := by
  simpa only [blockInStream, hp] using h.block

/-- A token block's header that fits opens a block inside BUF (43_lzd_blocks.md R121, R123). -/
theorem InStream.of_tokenBlock (hpend : s.pending = []) (hwork : s.work = none) (len : Half) (hl : 2 ≤ len.toNat)
    (hf : s.ic.toNat + 2 + len.toNat + 6 ≤ s.bufLen.toNat) :
    InStream { enterBlock len.toNat s with
      bend := BitVec.ofNat 32 (s.ic.toNat + 2 + len.toNat - 2), mask := 0, sel := 0,
      phase := if len.toNat = 2 then .lTrl else .lTok } := by
  have hbuf := s.bufLen.isLt
  have hlen := len.isLt
  have hblock (p : Phase) : BlockInv { enterBlock len.toNat s with
      bend := BitVec.ofNat 32 (s.ic.toNat + 2 + len.toNat - 2), mask := 0, sel := 0, phase := p } := by
    constructor <;>
      simp only [enterBlock_bstart, enterBlock_blen, enterBlock_bufLen, BitVec.toNat_ofNat] <;> omega
  refine ⟨hpend, hwork, ?_⟩
  split
  · refine ⟨hblock _, ?_⟩
    simp [*]
  · refine ⟨hblock _, ?_⟩
    simp only [enterBlock_ic, BitVec.toNat_ofNat]
    omega

/-- A committed token leaves IC inside the token region or at its end (44_lzd_tokens.md R129). -/
theorem InStream.of_token {w : Work} (h : InStream s) (hp : s.phase = .lTok) (hw : w.p ≤ s.bend.toNat)
    (he : Emitted s t) : InStream (commitToken w t) := by
  obtain ⟨hblock, -⟩ := h.lTok hp
  have hbend := s.bend.isLt
  have hp32 : (BitVec.ofNat 32 w.p).toNat = w.p := by rw [BitVec.toNat_ofNat]; omega
  have hblock' : BlockInv (commitToken w t) := hblock.congr he.bstart_eq he.blen_eq he.bend_eq he.bufLen_eq
  refine ⟨he.pending_eq.trans h.pending, rfl, ?_⟩
  by_cases hend : BitVec.ofNat 32 w.p = t.bend
  · simpa [blockInStream, hend] using hblock'
  · have hne : w.p ≠ s.bend.toNat := fun h => hend (by rw [he.bend_eq, h, BitVec.ofNat_toNat]; simp)
    have hphase : (commitToken w t).phase = .lTok := by rw [commitToken_phase, if_neg hend, he.phase_eq, hp]
    simp only [blockInStream, hphase, commitToken_ic, commitToken_bend, he.bend_eq, hp32]
    exact ⟨hblock', by omega⟩

/-- The engine leaves the host's list as it is. -/
theorem EngineResult.pending_eq (r : EngineResult cap s t) : t.pending = s.pending := by
  cases r with
  | token _ _ _ _ _ _ he => exact he.pending_eq
  | _ => simp

/-- A step of the stream ends the command, or brings IC closer to BUF_LEN and stays in the stream (10_state.md R33). -/
theorem EngineResult.ended_or_closer (r : EngineResult cap s t) (h : InStream s) :
    Ended t ∨ InStream t ∧ t.bufLen.toNat - t.ic.toNat < s.bufLen.toNat - s.ic.toNat := by
  have hbuf := s.bufLen.isLt
  have hblock := h.block
  cases r with
  | fault _ c inp val _ => exact .inl (ended_raiseFault c inp val s)
  | streamEnd _ _ _ => exact .inl (ended_complete _)
  | rawBlock hp hb _ len n hl hf =>
    refine .inr ⟨⟨h.pending, h.work, ?_, ?_, rfl⟩, ?_⟩ <;>
      simp only [enterBlock_bstart, enterBlock_blen, enterBlock_ic, enterBlock_bufLen, BitVec.toNat_ofNat] <;> omega
  | tokenBlock hp hb _ len hl hf =>
    refine .inr ⟨.of_tokenBlock h.pending h.work len hl hf, ?_⟩
    simp only [enterBlock_ic, enterBlock_bufLen, BitVec.toNat_ofNat]
    omega
  | token hp w u h1 h2 _ he =>
    obtain ⟨⟨hfits, hroom, hend⟩, -⟩ := h.lTok hp
    refine .inr ⟨h.of_token hp h2 he, ?_⟩
    simp only [cursor_of_none h.work] at h1
    simp only [commitToken_ic, commitToken_bufLen, he.bufLen_eq, BitVec.toNat_ofNat]
    omega
  | trailer hp _ =>
    obtain ⟨⟨hfits, hroom, hend⟩, hic⟩ := h.lTrl hp
    refine .inr ⟨⟨h.pending, h.work, trivial⟩, ?_⟩
    simp only [leaveBlock_ic, leaveBlock_bufLen, BitVec.toNat_ofNat, hic]
    omega
  | payload hp _ =>
    obtain ⟨hfits, hpos, hic⟩ := h.lRaw hp
    refine .inr ⟨⟨h.pending, h.work, trivial⟩, ?_⟩
    simp only [leaveBlock_ic, leaveBlock_bufLen, emit_bstart, emit_blen, emit_bufLen, BitVec.toNat_ofNat, hic]
    omega
  | stutter hp | toCheck hp | toIv hp | toSig hp | toHdr hp | keygen hp | keyed hp | noBlocks hp | toBlocks hp
  | block hp | lastBlock hp => simp [blockInStream, hp] at hblock

/-- One step per byte left before BUF_LEN, and one more, are enough (40_host_commands.md R106). -/
theorem InStream.endsWithin (h : InStream s) (hk : s.bufLen.toNat - s.ic.toNat < k) : EndsWithin cap k s := by
  induction k generalizing s with
  | zero => omega
  | succ k ih =>
    obtain ⟨t, ht⟩ := exists_engineStep cap s
    have r := engineStep_result ht
    refine endsWithin_succ h.pending ht ?_
    rcases r.ended_or_closer h with hended | ⟨hin, hcloser⟩
    · exact hended.endsWithin (r.pending_eq.trans h.pending) k
    · exact ih hin (by omega)

/-- The signature step puts IC at the first header (42_lzd_checks.md R118). -/
theorem endsWithin_lSig (hpend : s.pending = []) (hwork : s.work = none) (hp : s.phase = .lSig) :
    EndsWithin cap (s.bufLen.toNat + 1) s := by
  refine endsWithin_succ hpend (engineStep_lSig hp) ?_
  rw [lSigStep_withBufCap]
  split
  · exact (ended_raiseFault _ _ _ s).endsWithin hpend _
  · split
    · exact (ended_raiseFault _ _ _ s).endsWithin hpend _
    · refine InStream.endsWithin ⟨hpend, hwork, trivial⟩ ?_
      simp only [BitVec.toNat_ofNat]
      omega

theorem endsWithin_lCheck (hpend : s.pending = []) (hwork : s.work = none) (hp : s.phase = .lCheck) :
    EndsWithin cap (s.bufLen.toNat + 2) s := by
  refine endsWithin_succ hpend (engineStep_lCheck hp) ?_
  unfold lCheckStep
  simp only
  split
  · exact (ended_raiseFault _ _ _ s).endsWithin hpend _
  · split
    · exact (ended_raiseFault _ _ _ s).endsWithin hpend _
    · exact endsWithin_lSig (s := redraw { s with phase := .lSig }) hpend hwork rfl

/-! ### The bound -/

theorem stepBound_decompress (hop : s.op = 0) : stepBound s = s.bufLen.toNat + 2 + 1 := by
  simp only [stepBound, hop, if_true]
  omega

theorem stepBound_xorRegion (hop : s.op = 1) : stepBound s = s.xlen.toNat / 0x80 + 2 + 1 := by
  rw [stepBound, if_neg (by simp [hop]), if_pos hop]
  omega

theorem stepBound_keygen (hop : s.op = 2) : stepBound s = 1 + 1 := by simp [stepBound, hop]

theorem stepBound_illegal (hop : s.op = 3) : stepBound s = 0 + 1 := by simp [stepBound, hop]

/-- The dispatch step's two faults end the command; else the command's own steps follow (40_host_commands.md R102). -/
theorem endsWithin_cmd (hpend : s.pending = []) (hp : s.phase = .cmd)
    (h : s.op ≠ 3 → s.bufLen.toNat ≤ cap.toNat → EndsWithin cap k (cmdStep (.withBufCap cap) s)) :
    EndsWithin cap (k + 1) s := by
  refine endsWithin_succ hpend (engineStep_cmd hp) ?_
  by_cases hop : s.op = 3
  · rw [cmdStep_illegal hop]
    exact (ended_raiseFault _ _ _ s).endsWithin hpend k
  · rcases Nat.lt_or_ge cap.toNat s.bufLen.toNat with hb | hb
    · rw [cmdStep_tooLong hop hb]
      exact (ended_raiseFault _ _ _ s).endsWithin hpend k
    · exact h hop hb

/-- Settles O46: the dispatch step, then the steps of the command that OP selects. -/
theorem everyCommandEnds : Obligations.EveryCommandEnds := by
  intro cap s hpend hwork hp
  show EndsWithin cap (stepBound s) s
  rcases op_cases s.op with hop | hop | hop | hop
  · rw [stepBound_decompress hop]
    refine endsWithin_cmd hpend hp fun _ hb => ?_
    rw [cmdStep_decompress hop hb]
    exact endsWithin_lCheck (s := { s with phase := .lCheck }) hpend hwork rfl
  · rw [stepBound_xorRegion hop]
    refine endsWithin_cmd hpend hp fun _ hb => ?_
    rw [cmdStep_xke (.inl hop) hb]
    exact endsWithin_xIv_region (s := { s with phase := .xIv }) hpend rfl hop
  · rw [stepBound_keygen hop]
    refine endsWithin_cmd hpend hp fun _ hb => ?_
    rw [cmdStep_xke (.inr hop) hb]
    exact endsWithin_xIv_keygen (s := { s with phase := .xIv }) hpend rfl hop
  · rw [stepBound_illegal hop]
    exact endsWithin_cmd hpend hp fun h _ => absurd hop h

end

end Sys2Proof.Machine

/-! PROOFS. The key schedule of the XKE unit (41_xke_keystream.md R107, R109): its words, and what they depend on. -/

namespace Sys2Proof.Machine

section
variable {iv iv' : Nat → Word} {i n : Nat}

/-! ### The words of the schedule -/

@[simp] theorem length_keysched (iv : Nat → Word) : (keysched Config.hw iv).length = 32 := by simp [keysched]

theorem getElem?_keysched (iv : Nat → Word) (hn : n < 32) :
    (keysched Config.hw iv)[n]? = some (keyWord Config.hw iv n) := by
  simp [keysched, hn]

/-- The word the loops give the index i + 8j (41_xke_keystream.md R107). -/
theorem keyWord_low (iv : Nat → Word) (hi : i < 4) (j : Nat) :
    keyWord Config.hw iv (i + 8 * j) = keyTmp Config.hw iv i + iv j - 1 := by
  have hmod4 : (i + 8 * j) % 4 = i := by omega
  have hmod8 : (i + 8 * j) % 8 = i := by omega
  have hdiv : (i + 8 * j) / 8 = j := by omega
  simp [keyWord, hmod4, hmod8, hdiv, hi]

/-- The word the loops give the index i + 8j + 4 (41_xke_keystream.md R107). -/
theorem keyWord_high (iv : Nat → Word) (hi : i < 4) (j : Nat) :
    keyWord Config.hw iv (i + 8 * j + 4) = keyTmp Config.hw iv i - iv j - 1 := by
  have hmod4 : (i + 8 * j + 4) % 4 = i := by omega
  have hmod8 : ¬ (i + 8 * j + 4) % 8 < 4 := by omega
  have hdiv : (i + 8 * j + 4) / 8 = j := by omega
  simp [keyWord, hmod4, hmod8, hdiv]

/-- The first two `tmp` words read one even or one odd pair of IV words (41_xke_keystream.md R107). -/
theorem keyTmp_low (iv : Nat → Word) (hi : i < 2) : keyTmp Config.hw iv i = iv i + ~~~(iv (i + 2)) := if_pos hi

/-- The last two are the complements of the first two (41_xke_keystream.md R107). -/
theorem keyTmp_high (iv : Nat → Word) (hi : 2 ≤ i) : keyTmp Config.hw iv i = ~~~(iv (i - 2) + ~~~(iv i)) :=
  if_neg (Nat.not_lt.2 hi)

/-- The closed form of the first two `tmp` words (41_xke_keystream.md R107). -/
theorem add_not_eq_sub_sub_one (x y : Word) : x + ~~~y = x - y - 1 := by bv_omega

/-- The closed form of the last two (41_xke_keystream.md R107). -/
theorem not_add_not_eq_sub (x y : Word) : ~~~(x + ~~~y) = y - x := by bv_omega

/-- Every index below 32 is one of the two of exactly one pair (41_xke_keystream.md R107). -/
theorem existsUnique_keyIndex (n : Fin 32) :
    ∃! p : Fin 4 × Fin 4 × Bool, n.val = p.1.val + 8 * p.2.1.val + if p.2.2 then 4 else 0 := by
  refine ⟨(⟨n.val % 4, by omega⟩, ⟨n.val / 8, by omega⟩, decide (4 ≤ n.val % 8)), ?_, ?_⟩
  · simp only [decide_eq_true_eq]
    split <;> omega
  · rintro ⟨i, j, high⟩ hn
    cases high <;> simp only [if_true, Bool.false_eq_true, if_false, Prod.mk.injEq, Fin.ext_iff] at hn ⊢
    · exact ⟨by omega, by omega, by simp only [false_eq_decide_iff]; omega⟩
    · exact ⟨by omega, by omega, by simp only [true_eq_decide_iff]; omega⟩

/-! ### What the schedule depends on -/

/-- Only the four IV words are read (41_xke_keystream.md R107). -/
theorem keyTmp_congr (h : ∀ j, j < 4 → iv j = iv' j) (hi : i < 4) : keyTmp Config.hw iv i = keyTmp Config.hw iv' i := by
  by_cases hlow : i < 2
  · rw [keyTmp_low iv hlow, keyTmp_low iv' hlow, h i hi, h (i + 2) (by omega)]
  · have hhigh : 2 ≤ i := Nat.not_lt.1 hlow
    rw [keyTmp_high iv hhigh, keyTmp_high iv' hhigh, h i hi, h (i - 2) (by omega)]

theorem keysched_congr (h : ∀ j, j < 4 → iv j = iv' j) : keysched Config.hw iv = keysched Config.hw iv' := by
  refine List.map_congr_left fun n hn => ?_
  have hn32 : n < 32 := List.mem_range.1 hn
  have htmp : keyTmp Config.hw iv (n % 4) = keyTmp Config.hw iv' (n % 4) := keyTmp_congr h (by omega)
  have hword : iv (n / 8) = iv' (n / 8) := h _ (by omega)
  simp [keyWord, htmp, hword]

/-- Adding d to IV word j adds d to the word of index i + 8j whose `tmp` does not read it, the one of the other parity
(41_xke_keystream.md R109). -/
theorem keyWord_add (iv : Nat → Word) (hi : i < 2) {j : Nat} (hj : i % 2 ≠ j % 2) (d : Word) :
    keyWord Config.hw (fun k => if k = j then iv k + d else iv k) (i + 8 * j) =
      keyWord Config.hw iv (i + 8 * j) + d := by
  have hi4 : i < 4 := by omega
  have hne : i ≠ j := by omega
  have hne2 : i + 2 ≠ j := by omega
  rw [keyWord_low _ hi4, keyWord_low _ hi4, keyTmp_low _ hi, keyTmp_low _ hi, if_neg hne, if_neg hne2, if_pos rfl]
  abel

end

/-- Settles O36: the two words of a pair, the closed forms case by case, and the indices. -/
theorem keyScheduleFormula : Obligations.KeyScheduleFormula := by
  refine ⟨fun iv i j tmp htmp => ?_, length_keysched, existsUnique_keyIndex, fun n => ?_⟩
  · have hkey : tmp = keyTmp Config.hw iv i.val := by rw [htmp]; fin_cases i <;> rfl
    refine ⟨?_, ?_, ?_⟩
    · rw [getElem?_keysched iv (by omega), keyWord_low iv i.isLt, hkey]
    · rw [getElem?_keysched iv (by omega), keyWord_high iv i.isLt, hkey]
    · rw [htmp]
      fin_cases i
      · exact add_not_eq_sub_sub_one _ _
      · exact add_not_eq_sub_sub_one _ _
      · exact not_add_not_eq_sub _ _
      · exact not_add_not_eq_sub _ _
  · rw [getElem?_keysched _ n.isLt]
    revert n
    decide

/-- Settles O37: the word at index 1 + 8j or 8j changes by d, whichever of the two does not read word j in its `tmp`. -/
theorem keyScheduleSensitivity : Obligations.KeyScheduleSensitivity := by
  refine ⟨fun iv iv' h => keysched_congr h, fun iv j d => ?_⟩
  intro iv' n
  obtain ⟨i, hi, hij, hn⟩ : ∃ i, i < 2 ∧ i % 2 ≠ j.val % 2 ∧ n = i + 8 * j.val := by
    by_cases heven : j.val % 2 = 0
    · exact ⟨1, by omega, by omega, if_pos heven⟩
    · exact ⟨0, by omega, by omega, by rw [Nat.zero_add]; exact if_neg heven⟩
  have hn32 : n < 32 := by omega
  have hword : keyWord Config.hw iv' n = keyWord Config.hw iv n + d := by rw [hn]; exact keyWord_add iv hi hij d
  refine ⟨?_, fun hd heq => hd ?_⟩
  · rw [getElem?_keysched _ hn32, getElem?_keysched _ hn32, hword, Option.map_some]
  · have hsame : some (keyWord Config.hw iv' n) = some (keyWord Config.hw iv n) := by
      rw [← getElem?_keysched iv' hn32, ← getElem?_keysched iv hn32, heq]
    exact left_eq_add.1 ((Option.some.inj hsame).symm.trans hword)

end Sys2Proof.Machine

/-! PROOFS. The steps of the XKE unit (41_xke_keystream.md R108 to R112): the IV step, the region check, and the XOR
block byte by byte. -/

namespace Sys2Proof.Machine

section
variable {cap : Word} {s : State} {k : Nat}

/-! ### The IV step and the region check -/

/-- Fault capture where only the second value is known to fit its register (log entry 10). -/
theorem raiseFault_eq_capture {val : Nat} (c : Cause) (inp : Nat) (s : State) (hv : val < 2 ^ 32) :
    raiseFault c inp val s = faultState s (causeCode c) (capture inp) (BitVec.ofNat 32 val) := by
  simp only [raiseFault, faultState, capture_of_lt hv]

/-- A schedule of 32 words fills KEY (41_xke_keystream.md R108). -/
theorem toList_loadKey {key : List Word} (h : key.length = 32) (old : Vector Word 32) :
    (loadKey key old).toList = key := by
  refine List.ext_getElem (by simp [h]) fun i h1 h2 => ?_
  simp [loadKey, h2]

/-- The key the IV step loads: the schedule of the four words at the IV (41_xke_keystream.md R108). -/
def ivKey (s : State) : Vector Word 32 :=
  loadKey (keysched Config.hw (readIv s (s.xbase.toNat + s.xivoff.toNat))) s.key

theorem toList_ivKey (s : State) :
    (ivKey s).toList = keysched Config.hw (readIv s (s.xbase.toNat + s.xivoff.toNat)) :=
  toList_loadKey (length_keysched _) _

theorem xIvStep_outOfBounds (hb : s.bufLen.toNat < s.xbase.toNat + s.xivoff.toNat + 16) :
    xIvStep (.withBufCap cap) s = raiseFault .outOfBounds (s.xbase.toNat + s.xivoff.toNat) 16 s := by
  rw [xIvStep_withBufCap, if_pos hb]

theorem xIvStep_keygen (hb : s.xbase.toNat + s.xivoff.toNat + 16 ≤ s.bufLen.toNat) (hop : s.op = 2) :
    xIvStep (.withBufCap cap) s = complete (redraw { s with key := ivKey s }) := by
  rw [xIvStep_withBufCap, if_neg (Nat.not_lt.2 hb), if_pos hop]
  rfl

theorem xIvStep_keyed (hb : s.xbase.toNat + s.xivoff.toNat + 16 ≤ s.bufLen.toNat) (hop : s.op ≠ 2) :
    xIvStep (.withBufCap cap) s = { redraw { s with key := ivKey s } with phase := .xChk } := by
  rw [xIvStep_withBufCap, if_neg (Nat.not_lt.2 hb), if_neg hop]
  rfl

theorem xChkStep_misaligned (h : s.xstart.toNat % 0x80 ≠ 0 ∨ s.xlen.toNat % 0x80 ≠ 0) :
    xChkStep (.withBufCap cap) s = raiseFault .alignmentError s.xstart.toNat s.xlen.toNat s := by
  rw [xChkStep_withBufCap, if_pos h]

theorem xChkStep_empty (hs : s.xstart.toNat % 0x80 = 0) (hl : s.xlen = 0) :
    xChkStep (.withBufCap cap) s = complete s := by
  rw [xChkStep_withBufCap, if_neg (by simp [hs, hl]), if_pos hl]

theorem xChkStep_outOfBounds (hs : s.xstart.toNat % 0x80 = 0) (hm : s.xlen.toNat % 0x80 = 0) (hl : s.xlen ≠ 0)
    (hb : s.bufLen.toNat < s.xbase.toNat + s.xstart.toNat + s.xlen.toNat) :
    xChkStep (.withBufCap cap) s = raiseFault .outOfBounds (s.xbase.toNat + s.xstart.toNat) s.xlen.toNat s := by
  rw [xChkStep_withBufCap, if_neg (by omega), if_neg hl, if_pos hb]

theorem xChkStep_blocks (hs : s.xstart.toNat % 0x80 = 0) (hm : s.xlen.toNat % 0x80 = 0) (hl : s.xlen ≠ 0)
    (hb : s.xbase.toNat + s.xstart.toNat + s.xlen.toNat ≤ s.bufLen.toNat) :
    xChkStep (.withBufCap cap) s =
      { s with ic := BitVec.ofNat 32 (s.xbase.toNat + s.xstart.toNat), phase := .xBlk } := by
  rw [xChkStep_withBufCap, if_neg (by omega), if_neg hl, if_neg (Nat.not_lt.2 hb)]

/-! ### The XOR of a block, byte by byte -/

theorem extractLsb'_append_four (b3 b2 b1 b0 : Byte) :
    (b3 ++ b2 ++ b1 ++ b0).extractLsb' 24 8 = b3 ∧ (b3 ++ b2 ++ b1 ++ b0).extractLsb' 16 8 = b2 ∧
      (b3 ++ b2 ++ b1 ++ b0).extractLsb' 8 8 = b1 ∧ (b3 ++ b2 ++ b1 ++ b0).extractLsb' 0 8 = b0 := by
  refine ⟨?_, ?_, ?_, ?_⟩ <;>
  · ext i hi
    simp only [BitVec.getElem_extractLsb', BitVec.getLsbD_append]
    grind

/-- The WordCodec's write undoes its read (00_scope.md R11). -/
theorem wordBytes_assembleWord (e : Endian) (b0 b1 b2 b3 : Byte) :
    wordBytes e (assembleWord e b0 b1 b2 b3) = [b0, b1, b2, b3] := by
  cases e with
  | little =>
    obtain ⟨h3, h2, h1, h0⟩ := extractLsb'_append_four b3 b2 b1 b0
    exact congrArg₂ _ h0 (congrArg₂ _ h1 (congrArg₂ _ h2 (congrArg₂ _ h3 rfl)))
  | big =>
    obtain ⟨h0, h1, h2, h3⟩ := extractLsb'_append_four b0 b1 b2 b3
    exact congrArg₂ _ h0 (congrArg₂ _ h1 (congrArg₂ _ h2 (congrArg₂ _ h3 rfl)))

theorem wordBytes_xor (e : Endian) (v m : Word) :
    wordBytes e (v ^^^ m) = List.zipWith (· ^^^ ·) (wordBytes e v) (wordBytes e m) := by
  cases e <;> simp [wordBytes, BitVec.extractLsb'_xor]

/-- The bytes of a mask in a command's byte order (41_xke_keystream.md R112). -/
theorem wordBytes_eq_maskByte (e : Endian) (m : Word) :
    wordBytes e m = [maskByte e m 0, maskByte e m 1, maskByte e m 2, maskByte e m 3] := by
  cases e <;> rfl

theorem getElem?_xorWord (s : State) (i : Fin 32) (hk : k < 4) :
    (xorWord s i)[k]? = some (bufByte s (s.ic.toNat + 4 * i.val + k) ^^^ maskByte s.endian (xorMask s i) k) := by
  rw [xorWord, rdw, wordBytes_xor, wordBytes_assembleWord, wordBytes_eq_maskByte]
  interval_cases k <;> rfl

/-- What byte k of word i reads after the block at IC is stored (41_xke_keystream.md R112). -/
theorem readCell_xorBlock (cap : Word) (s : State) (i : Fin 32) (hk : k < 4) :
    readCell (storeBytes s.buf s.ic.toNat (xorBlock (.withBufCap cap) s)) (s.ic.toNat + 4 * i.val + k) =
      some (bufByte s (s.ic.toNat + 4 * i.val + k) ^^^ maskByte s.endian (xorMask s i) k) := by
  have hoff : s.ic.toNat + 4 * i.val + k - s.ic.toNat = 4 * i.val + k := by omega
  rw [readCell_storeBytes, length_xorBlock, if_pos (by omega), hoff, getElem?_xorBlock cap s i k hk,
    getElem?_xorWord s i hk]

theorem readCell_xorBlock_of_not_mem (cap : Word) (s : State) {a : Nat}
    (ha : a < s.ic.toNat ∨ s.ic.toNat + 0x80 ≤ a) :
    readCell (storeBytes s.buf s.ic.toNat (xorBlock (.withBufCap cap) s)) a = readCell s.buf a :=
  readCell_storeBytes_of_not_mem _ _ _ _ (by rw [length_xorBlock]; exact ha)

/-- The XOR block step writes BUF, whether or not it is the last (41_xke_keystream.md R111). -/
theorem xBlkStep_buf (cap : Word) (s : State) :
    (xBlkStep (.withBufCap cap) s).buf = storeBytes s.buf s.ic.toNat (xorBlock (.withBufCap cap) s) := by
  rw [xBlkStep_withBufCap]
  split <;> rfl

end

/-- Settles O33: by whether the IV fits and by OP. -/
theorem ivStep : Obligations.IvStep := by
  rintro cap s _ hp rfl
  simp only [engineStep_xIv hp]
  refine ⟨fun hb => ⟨_, ?_, capture_of_lt⟩, fun hb => ⟨ivKey s, toList_ivKey s, fun hop => ?_, fun hop => ?_⟩⟩
  · rw [xIvStep_outOfBounds hb, raiseFault_eq_capture _ _ _ (by decide)]
    rfl
  · rw [xIvStep_keygen hb hop]
    generalize ivKey s = key
    rfl
  · rw [xIvStep_keyed hb hop]
    generalize ivKey s = key
    rfl

/-- Settles O34: the four outcomes of the check in its order. -/
theorem regionCheckStep : Obligations.RegionCheckStep := by
  rintro cap s _ hp rfl
  simp only [engineStep_xChk hp]
  refine ⟨fun h => ?_, fun hs hm => ⟨fun hl => ?_, fun hl hb => ⟨_, ?_, capture_of_lt⟩, fun hl hb => ?_⟩⟩
  · rw [xChkStep_misaligned h, raiseFault_eq_faultState _ _ s.xstart.isLt s.xlen.isLt, BitVec.ofNat_toNat,
      BitVec.ofNat_toNat, BitVec.setWidth_eq, BitVec.setWidth_eq]
    rfl
  · rw [xChkStep_empty hs hl]
    rfl
  · rw [xChkStep_outOfBounds hs hm hl hb, raiseFault_eq_capture _ _ _ s.xlen.isLt, BitVec.ofNat_toNat,
      BitVec.setWidth_eq]
    rfl
  · rw [xChkStep_blocks hs hm hl hb]

/-- Settles O35: the registers by whether the block is the last, the bytes by the block that is stored. -/
theorem xorBlockStep : Obligations.XorBlockStep := by
  intro cap s hp
  refine ⟨_, engineStep_xBlk hp, fun he => ?_, fun he => ?_, fun i k hk => ?_, fun a ha => ?_⟩
  · rw [xBlkStep_withBufCap, if_neg he]
  · rw [xBlkStep_withBufCap, if_pos he]
    rfl
  · rw [State.bufAt, xBlkStep_buf]
    exact readCell_xorBlock cap s i hk
  · rw [State.bufAt, xBlkStep_buf]
    exact readCell_xorBlock_of_not_mem cap s ha

end Sys2Proof.Machine

/-! PROOFS. XOR_REGION as a whole (41_xke_keystream.md R111, R113, R114): what a run of it does to BUF, that a second
run undoes it, and that a fault leaves BUF as it was. -/

namespace Sys2Proof.Machine

/-! ### The XOR of a region -/

/-- Contents of a memory with the stored bytes of a region XORed with a mask. -/
def xorOn (mask : Nat → Byte) (start len : Nat) (f : Nat → Option Byte) (a : Nat) : Option Byte :=
  if start ≤ a ∧ a < start + len then (f a).map (· ^^^ mask a) else f a

/-- The mask byte of offset a in a region from `start`: byte k of the mask of word i of the block that holds it
(41_xke_keystream.md R111, R112). -/
def regionMask (e : Endian) (key : Vector Word 32) (xbase : Word) (start a : Nat) : Byte :=
  maskByte e
    (key[(a - start) % 0x80 / 4]'(by omega) - (BitVec.ofNat 32 (start + (a - start) / 0x80 * 0x80) - xbase))
    ((a - start) % 4)

section
variable {cap : Word} {s t u : State} {k : Nat} {mask : Nat → Byte} {start len : Nat} {f : Nat → Option Byte}

theorem xorOn_of_not_mem {a : Nat} (h : a < start ∨ start + len ≤ a) : xorOn mask start len f a = f a :=
  if_neg (by omega)

@[simp] theorem xorOn_zero : xorOn mask start 0 f = f := funext fun _ => xorOn_of_not_mem (by omega)

@[simp] theorem isSome_xorOn (a : Nat) : (xorOn mask start len f a).isSome = (f a).isSome := by
  unfold xorOn
  split <;> simp

/-- XOR with the same mask twice is the identity (41_xke_keystream.md R113). -/
theorem xorOn_xorOn : xorOn mask start len (xorOn mask start len f) = f := by
  funext a
  by_cases ha : start ≤ a ∧ a < start + len
  · simp [xorOn, ha, Option.map_map, Function.comp_def]
  · simp [xorOn, ha]

/-- A region block by block: the first block, then the rest with the rest's mask. -/
theorem xorOn_append {mask' : Nat → Byte} {len' : Nat} (h : ∀ a, start + len ≤ a → mask' a = mask a) :
    xorOn mask' (start + len) len' (xorOn mask start len f) = xorOn mask start (len + len') f := by
  funext a
  rcases Nat.lt_or_ge a (start + len) with ha | ha
  · rw [xorOn_of_not_mem (.inl ha)]
    by_cases hs : start ≤ a
    · rw [xorOn, xorOn, if_pos ⟨hs, ha⟩, if_pos ⟨hs, by omega⟩]
    · rw [xorOn_of_not_mem (by omega), xorOn_of_not_mem (by omega)]
  · rw [xorOn, h a ha, xorOn_of_not_mem (.inr ha), xorOn]
    by_cases he : a < start + len + len'
    · rw [if_pos ⟨ha, he⟩, if_pos (by omega)]
    · rw [if_neg (by omega), if_neg (by omega)]

/-- The mask of a region is the mask of what is left of it after a block (41_xke_keystream.md R111). -/
theorem regionMask_next_block (e : Endian) (key : Vector Word 32) (xbase : Word) {a : Nat} (ha : start + 0x80 ≤ a) :
    regionMask e key xbase (start + 0x80) a = regionMask e key xbase start a := by
  have hblock : start + 0x80 + (a - (start + 0x80)) / 0x80 * 0x80 = start + (a - start) / 0x80 * 0x80 := by omega
  have hword : (a - (start + 0x80)) % 0x80 = (a - start) % 0x80 := by omega
  have hbyte : (a - (start + 0x80)) % 4 = (a - start) % 4 := by omega
  simp only [regionMask, hblock, hword, hbyte]

/-- The block at IC is XORed with its mask where it has been stored (41_xke_keystream.md R111, R112). -/
theorem bufAt_xBlkStep (hstored : ∀ a, a < s.ic.toNat + 0x80 → (s.bufAt a).isSome = true) :
    (xBlkStep (.withBufCap cap) s).bufAt =
      xorOn (regionMask s.endian s.key s.xbase s.ic.toNat) s.ic.toNat 0x80 s.bufAt := by
  funext a
  rw [State.bufAt, xBlkStep_buf]
  by_cases ha : s.ic.toNat ≤ a ∧ a < s.ic.toNat + 0x80
  · obtain ⟨b, hb⟩ := Option.isSome_iff_exists.1 (hstored a ha.2)
    obtain ⟨i, k, hk, rfl⟩ : ∃ (i : Fin 32) (k : Nat), k < 4 ∧ a = s.ic.toNat + 4 * i.val + k :=
      ⟨⟨(a - s.ic.toNat) / 4, by omega⟩, (a - s.ic.toNat) % 4, by omega, by simp only; omega⟩
    have hword : (s.ic.toNat + 4 * i.val + k - s.ic.toNat) % 0x80 / 4 = i.val := by omega
    have hblock : s.ic.toNat + (s.ic.toNat + 4 * i.val + k - s.ic.toNat) / 0x80 * 0x80 = s.ic.toNat := by omega
    have hbyte : (s.ic.toNat + 4 * i.val + k - s.ic.toNat) % 4 = k := by omega
    rw [readCell_xorBlock cap s i hk, bufByte_of_some hb, xorOn, if_pos ha, hb, Option.map_some, regionMask]
    simp only [hword, hblock, hbyte, BitVec.ofNat_toNat, BitVec.setWidth_eq]
    rfl
  · rw [readCell_xorBlock_of_not_mem cap s (by omega), xorOn_of_not_mem (by omega)]

/-! ### A run of XOR_REGION -/

/-- The registers a command takes from the host are the same, and so is the host's list (40_host_commands.md R104). -/
structure SameCommand (s t : State) : Prop where
  endian : t.endian = s.endian
  bufLen : t.bufLen = s.bufLen
  xbase : t.xbase = s.xbase
  xivoff : t.xivoff = s.xivoff
  xstart : t.xstart = s.xstart
  xlen : t.xlen = s.xlen
  pending : t.pending = s.pending

theorem SameCommand.trans (h : SameCommand s t) (h' : SameCommand t u) : SameCommand s u where
  endian := h'.endian.trans h.endian
  bufLen := h'.bufLen.trans h.bufLen
  xbase := h'.xbase.trans h.xbase
  xivoff := h'.xivoff.trans h.xivoff
  xstart := h'.xstart.trans h.xstart
  xlen := h'.xlen.trans h.xlen
  pending := h'.pending.trans h.pending

theorem sameCommand_raiseFault (c : Cause) (inp val : Nat) (s : State) : SameCommand s (raiseFault c inp val s) :=
  ⟨rfl, rfl, rfl, rfl, rfl, rfl, rfl⟩

theorem sameCommand_complete (s : State) : SameCommand s (complete s) := ⟨rfl, rfl, rfl, rfl, rfl, rfl, rfl⟩

theorem sameCommand_xBlkStep (cap : Word) (s : State) : SameCommand s (xBlkStep (.withBufCap cap) s) := by
  rw [xBlkStep_withBufCap]
  split <;> exact ⟨rfl, rfl, rfl, rfl, rfl, rfl, rfl⟩

/-- Every byte of the buffer has been stored (70_reset_and_hazards.md R173). -/
abbrev Stored (s : State) : Prop := ∀ a, a < s.bufLen.toNat → (s.bufAt a).isSome = true

/-- After k steps the machine is idle under the same command registers, and BUF holds f. -/
def EndsWithBuf (cap : Word) (k : Nat) (s : State) (f : Nat → Option Byte) : Prop :=
  ∃ t, runSteps (.withBufCap cap) k s = .next t ∧ t.phase = .idle ∧ SameCommand s t ∧ t.bufAt = f

theorem endsWithBuf_succ (hpend : s.pending = []) (hs : engineStep (.withBufCap cap) s = .next t)
    (hst : SameCommand s t) (h : EndsWithBuf cap k t f) : EndsWithBuf cap (k + 1) s f := by
  obtain ⟨u, hrun, hidle, htu, hbuf⟩ := h
  exact ⟨u, (runSteps_succ ((stepWith_of_no_pending hpend).trans hs)).trans hrun, hidle, hst.trans htu, hbuf⟩

/-- An idle machine keeps BUF (log entry 16). -/
theorem endsWithBuf_idle (hidle : s.phase = .idle) (hpend : s.pending = []) (k : Nat) :
    EndsWithBuf cap k s s.bufAt := by
  induction k with
  | zero => exact ⟨s, rfl, hidle, ⟨rfl, rfl, rfl, rfl, rfl, rfl, rfl⟩, rfl⟩
  | succ k ih => exact endsWithBuf_succ hpend (engineStep_of_idle hidle) ⟨rfl, rfl, rfl, rfl, rfl, rfl, rfl⟩ ih

theorem endsWithBuf_raiseFault (hpend : s.pending = []) (c : Cause) (inp val : Nat)
    (hs : engineStep (.withBufCap cap) s = .next (raiseFault c inp val s)) (k : Nat) :
    EndsWithBuf cap (k + 1) s s.bufAt :=
  endsWithBuf_succ hpend hs (sameCommand_raiseFault c inp val s)
    (endsWithBuf_idle (s := raiseFault c inp val s) rfl hpend k)

theorem xBlkStep_last (he : s.ic.toNat + 0x80 = s.xbase.toNat + s.xstart.toNat + s.xlen.toNat) :
    (xBlkStep (.withBufCap cap) s).phase = .idle := by
  rw [xBlkStep_withBufCap, if_pos he, complete_phase]

/-- A block that is not the last leaves the engine at the next one, under the same key (41_xke_keystream.md R111). -/
theorem xBlkStep_not_last (hp : s.phase = .xBlk)
    (he : s.ic.toNat + 0x80 ≠ s.xbase.toNat + s.xstart.toNat + s.xlen.toNat) (hic : s.ic.toNat + 0x80 < 2 ^ 32) :
    (xBlkStep (.withBufCap cap) s).phase = .xBlk ∧ (xBlkStep (.withBufCap cap) s).key = s.key ∧
      (xBlkStep (.withBufCap cap) s).ic.toNat = s.ic.toNat + 0x80 := by
  rw [xBlkStep_withBufCap, if_neg he]
  exact ⟨hp, rfl, by rw [BitVec.toNat_ofNat, Nat.mod_eq_of_lt hic]⟩

/-- With k + 1 blocks of the region left, k + 1 steps XOR them all (41_xke_keystream.md R111). -/
theorem endsWithBuf_xBlk (hpend : s.pending = []) (hp : s.phase = .xBlk) (hstored : Stored s)
    (hb : s.xbase.toNat + s.xstart.toNat + s.xlen.toNat ≤ s.bufLen.toNat)
    (hk : s.ic.toNat + 0x80 * (k + 1) = s.xbase.toNat + s.xstart.toNat + s.xlen.toNat) :
    EndsWithBuf cap (k + 1) s
      (xorOn (regionMask s.endian s.key s.xbase s.ic.toNat) s.ic.toNat (0x80 * (k + 1)) s.bufAt) := by
  induction k generalizing s with
  | zero =>
    have hsame := sameCommand_xBlkStep cap s
    refine endsWithBuf_succ hpend (engineStep_xBlk hp) hsame ?_
    rw [← bufAt_xBlkStep fun a ha => hstored a (by omega)]
    exact endsWithBuf_idle (xBlkStep_last hk) (hsame.pending.trans hpend) 0
  | succ k ih =>
    have hbuf := s.bufLen.isLt
    have hsame := sameCommand_xBlkStep cap s
    obtain ⟨hp', hkey, hic⟩ := xBlkStep_not_last (cap := cap) hp (by omega) (by omega)
    have hblock := bufAt_xBlkStep (cap := cap) (s := s) fun a ha => hstored a (by omega)
    refine endsWithBuf_succ hpend (engineStep_xBlk hp) hsame ?_
    have hrest := ih (hsame.pending.trans hpend) hp' (fun a ha => ?_) ?_ ?_
    · have hlen : 0x80 * (k + 1 + 1) = 0x80 + 0x80 * (k + 1) := by rw [Nat.mul_succ, Nat.add_comm]
      rw [hic, hblock, hkey, hsame.endian, hsame.xbase,
        xorOn_append fun a ha => regionMask_next_block _ _ _ ha] at hrest
      rw [hlen]
      exact hrest
    · rw [hsame.bufLen] at ha
      rw [hblock, isSome_xorOn]
      exact hstored a ha
    · rw [hsame.xbase, hsame.xstart, hsame.xlen, hsame.bufLen]
      exact hb
    · rw [hsame.xbase, hsame.xstart, hsame.xlen, hic]
      omega

/-- The IV words lie below BUF_LEN (41_xke_keystream.md R108). -/
abbrev IvFits (s : State) : Prop := s.xbase.toNat + s.xivoff.toNat + 16 ≤ s.bufLen.toNat

/-- The region is of whole blocks and lies below BUF_LEN (41_xke_keystream.md R110). -/
abbrev RegionFits (s : State) : Prop :=
  s.xstart.toNat % 0x80 = 0 ∧ s.xlen.toNat % 0x80 = 0 ∧
    s.xbase.toNat + s.xstart.toNat + s.xlen.toNat ≤ s.bufLen.toNat

/-- The IV words do not overlap the region (41_xke_keystream.md R113). -/
abbrev IvOutside (s : State) : Prop :=
  s.xbase.toNat + s.xivoff.toNat + 16 ≤ s.xbase.toNat + s.xstart.toNat ∨
    s.xbase.toNat + s.xstart.toNat + s.xlen.toNat ≤ s.xbase.toNat + s.xivoff.toNat

/-- BUF with the region of a command XORed under a key (41_xke_keystream.md R111). -/
def xorRegion (s : State) (key : Vector Word 32) : Nat → Option Byte :=
  xorOn (regionMask s.endian key s.xbase (s.xbase.toNat + s.xstart.toNat)) (s.xbase.toNat + s.xstart.toNat)
    s.xlen.toNat s.bufAt

/-- From the region check on (41_xke_keystream.md R110, R111). -/
theorem endsWithBuf_xChk (hpend : s.pending = []) (hp : s.phase = .xChk) (hstored : Stored s)
    (hk : s.xlen.toNat / 0x80 = k) :
    EndsWithBuf cap (k + 1) s (if RegionFits s then xorRegion s s.key else s.bufAt) := by
  have hs := engineStep_xChk (cfg := .withBufCap cap) hp
  by_cases haligned : s.xstart.toNat % 0x80 ≠ 0 ∨ s.xlen.toNat % 0x80 ≠ 0
  · rw [xChkStep_misaligned haligned] at hs
    rw [if_neg (by omega)]
    exact endsWithBuf_raiseFault hpend _ _ _ hs k
  have hstart : s.xstart.toNat % 0x80 = 0 := by omega
  have hblocks : s.xlen.toNat % 0x80 = 0 := by omega
  by_cases hlen : s.xlen = 0
  · have hnone : xorRegion s s.key = s.bufAt := by simp [xorRegion, hlen]
    rw [xChkStep_empty hstart hlen] at hs
    rw [hnone, ite_self]
    exact endsWithBuf_succ hpend hs (sameCommand_complete s) (endsWithBuf_idle (s := complete s) rfl hpend k)
  rcases Nat.lt_or_ge s.bufLen.toNat (s.xbase.toNat + s.xstart.toNat + s.xlen.toNat) with hout | hin
  · rw [xChkStep_outOfBounds hstart hblocks hlen hout] at hs
    rw [if_neg (by omega)]
    exact endsWithBuf_raiseFault hpend _ _ _ hs k
  · have hbuf := s.bufLen.isLt
    have hpos : s.xlen.toNat ≠ 0 := fun h0 => hlen (BitVec.eq_of_toNat_eq h0)
    have hic : (BitVec.ofNat 32 (s.xbase.toNat + s.xstart.toNat)).toNat = s.xbase.toNat + s.xstart.toNat := by
      rw [BitVec.toNat_ofNat]; omega
    obtain ⟨j, rfl⟩ : ∃ j, k = j + 1 := Nat.exists_eq_succ_of_ne_zero (by omega)
    have hlast : s.xlen.toNat = 0x80 * (j + 1) := by omega
    rw [xChkStep_blocks hstart hblocks hlen hin] at hs
    refine endsWithBuf_succ hpend hs ⟨rfl, rfl, rfl, rfl, rfl, rfl, rfl⟩ ?_
    have hrun := endsWithBuf_xBlk (cap := cap)
      (s := { s with ic := BitVec.ofNat 32 (s.xbase.toNat + s.xstart.toNat), phase := .xBlk })
      hpend rfl hstored hin (k := j) (by simp only [hic]; omega)
    simp only [hic, ← hlast] at hrun
    rw [if_pos ⟨hstart, hblocks, hin⟩]
    exact hrun

/-- From the IV step on (41_xke_keystream.md R108). -/
theorem endsWithBuf_xIv (hpend : s.pending = []) (hp : s.phase = .xIv) (hop : s.op = 1) (hstored : Stored s) :
    EndsWithBuf cap (s.xlen.toNat / 0x80 + 2) s
      (if IvFits s ∧ RegionFits s then xorRegion s (ivKey s) else s.bufAt) := by
  have hs := engineStep_xIv (cfg := .withBufCap cap) hp
  by_cases hiv : IvFits s
  · rw [xIvStep_keyed hiv (by simp [hop])] at hs
    simp only [hiv, true_and]
    generalize ivKey s = key at hs ⊢
    exact endsWithBuf_succ hpend hs ⟨rfl, rfl, rfl, rfl, rfl, rfl, rfl⟩
      (endsWithBuf_xChk (s := { redraw { s with key := key } with phase := .xChk }) hpend rfl hstored rfl)
  · rw [xIvStep_outOfBounds (Nat.not_le.1 hiv)] at hs
    rw [if_neg fun h => hiv h.1]
    exact endsWithBuf_raiseFault hpend _ _ _ hs _

/-- The command passes every check, so it reaches its blocks (40_host_commands.md R102; 41_xke_keystream.md R108,
R110). -/
abbrev Accepted (cap : Word) (s : State) : Prop := s.bufLen.toNat ≤ cap.toNat ∧ IvFits s ∧ RegionFits s

/-- A run of XOR_REGION: the region is XORed if the command passes its checks, and else BUF stays as it is
(40_host_commands.md R104). -/
theorem endsWithBuf_xorRegion (hpend : s.pending = []) (hp : s.phase = .cmd) (hop : s.op = 1) (hstored : Stored s) :
    EndsWithBuf cap (3 + s.xlen.toNat / 0x80) s (if Accepted cap s then xorRegion s (ivKey s) else s.bufAt) := by
  have hs := engineStep_cmd (cfg := .withBufCap cap) hp
  rw [Nat.add_comm 3]
  by_cases hcap : s.bufLen.toNat ≤ cap.toNat
  · rw [cmdStep_xke (.inl hop) hcap] at hs
    simp only [Accepted, hcap, true_and]
    exact endsWithBuf_succ hpend hs ⟨rfl, rfl, rfl, rfl, rfl, rfl, rfl⟩
      (endsWithBuf_xIv (s := { s with phase := .xIv }) hpend rfl hop hstored)
  · rw [cmdStep_tooLong (by simp [hop]) (Nat.not_le.1 hcap)] at hs
    rw [if_neg fun h => hcap h.1]
    exact endsWithBuf_raiseFault hpend _ _ _ hs _

/-! ### Two runs -/

theorem accepted_congr (h : SameCommand s t) : Accepted cap t ↔ Accepted cap s := by
  simp only [Accepted, IvFits, RegionFits, h.bufLen, h.xbase, h.xivoff, h.xstart, h.xlen]

theorem rdw_congr {a : Nat} (e : Endian) (h : ∀ k < 4, bufByte t (a + k) = bufByte s (a + k)) :
    rdw t e a = rdw s e a := by
  have h0 := h 0 (by decide)
  rw [Nat.add_zero] at h0
  rw [rdw, rdw, h0, h 1 (by decide), h 2 (by decide), h 3 (by decide)]

/-- The key depends on the stored bytes of the IV (41_xke_keystream.md R109). -/
theorem ivKey_congr (h : SameCommand s t)
    (hsame : ∀ a, s.xbase.toNat + s.xivoff.toNat ≤ a → a < s.xbase.toNat + s.xivoff.toNat + 16 →
      t.bufAt a = s.bufAt a ∧ (s.bufAt a).isSome = true) : ivKey t = ivKey s := by
  refine Vector.toList_inj.1 ?_
  rw [toList_ivKey, toList_ivKey, h.xbase, h.xivoff]
  refine keysched_congr fun j hj => ?_
  rw [readIv, readIv, h.endian]
  refine rdw_congr _ fun k hk => ?_
  obtain ⟨heq, hsome⟩ := hsame (s.xbase.toNat + s.xivoff.toNat + 4 * j + k) (by omega) (by omega)
  obtain ⟨b, hb⟩ := Option.isSome_iff_exists.1 hsome
  rw [bufByte_of_some hb, bufByte_of_some (heq.trans hb)]

/-- The region XORed twice under the same registers (41_xke_keystream.md R113). -/
theorem xorRegion_of_xorRegion (h : SameCommand s t) {key : Vector Word 32} (ht : t.bufAt = xorRegion s key) :
    xorRegion t key = s.bufAt := by
  rw [xorRegion, h.endian, h.xbase, h.xstart, h.xlen, ht, xorRegion, xorOn_xorOn]

/-- Where BUF holds the XORed region the second run loads the same key, as the IV is outside the region
(41_xke_keystream.md R113). -/
theorem ivKey_of_xorRegion (h : SameCommand s t) {key : Vector Word 32} (ht : t.bufAt = xorRegion s key) (hiv : IvFits s)
    (hstored : Stored s) (hout : IvOutside s) : ivKey t = ivKey s := by
  refine ivKey_congr h fun a hlow hhigh => ⟨?_, hstored a (by omega)⟩
  rw [ht]
  exact xorOn_of_not_mem (by omega)

/-- A run of XOR_REGION gives a value to no byte and takes it from none. -/
theorem isSome_xorRegion (s : State) (key : Vector Word 32) (a : Nat) :
    (xorRegion s key a).isSome = (s.bufAt a).isSome := isSome_xorOn a

/-- A second run under the same registers, over the BUF the first one left, leaves the BUF the first one found
(41_xke_keystream.md R113). -/
theorem endsWithBuf_second_run (hpend : s.pending = []) (hst : SameCommand s t) (hp : t.phase = .cmd) (hop : t.op = 1)
    (hstored : Stored s) (hout : IvOutside s)
    (ht : t.bufAt = if Accepted cap s then xorRegion s (ivKey s) else s.bufAt) :
    EndsWithBuf cap (3 + s.xlen.toNat / 0x80) t s.bufAt := by
  have hstored' : Stored t := by
    intro a ha
    rw [hst.bufLen] at ha
    rw [ht]
    split
    · rw [isSome_xorRegion]
      exact hstored a ha
    · exact hstored a ha
  have hrun := endsWithBuf_xorRegion (cap := cap) (hst.pending.trans hpend) hp hop hstored'
  simp only [accepted_congr hst, hst.xlen] at hrun
  by_cases hacc : Accepted cap s
  · have ⟨_, hiv, _⟩ := hacc
    rw [if_pos hacc] at ht hrun
    rwa [ivKey_of_xorRegion hst ht hiv hstored hout, xorRegion_of_xorRegion hst ht] at hrun
  · rw [if_neg hacc] at ht hrun
    rwa [ht] at hrun

end

/-- Settles O38: the first run leaves a BUF from which the second, started in the idle machine, gives the first one's
back. -/
theorem xorRegionInvolution : Obligations.XorRegionInvolution := by
  rintro cap s t u v ie _ hp hop hpend hstored hout rfl hrun hstart hrun' a
  obtain ⟨t', ht', hidle, hst, hbuf⟩ := endsWithBuf_xorRegion (cap := cap) hpend hp hop hstored
  obtain rfl : t = t' := Host.Outcome.next.inj (hrun.symm.trans ht')
  rw [exec_command (.inr (.inl ⟨rfl, rfl⟩)), writeCtrl_of_idle hidle] at hstart
  have hu : startCommand (setCtrl 1 s.endian ie t) = u := Host.Outcome.next.inj hstart
  have htu : SameCommand t u := by
    rw [← hu]
    exact ⟨hst.endian.symm, rfl, rfl, rfl, rfl, rfl, rfl⟩
  have hbuf' : u.bufAt = t.bufAt := by rw [← hu]; rfl
  obtain ⟨v', hv', -, -, hv⟩ := endsWithBuf_second_run (cap := cap) hpend (hst.trans htu) (by rw [← hu]; rfl)
    (by rw [← hu]; rfl) hstored hout (hbuf'.trans hbuf)
  obtain rfl : v = v' := Host.Outcome.next.inj (hrun'.symm.trans hv')
  exact congrFun hv a

/-! ### A fault of an XKE command -/

/-- Along an XKE command that started with the given BUF: until the first block BUF is that one and no fault has been
taken; a KEYGEN never reaches the blocks (41_xke_keystream.md R114). -/
def XkeBuf (buf : Memory) (s : State) : Prop :=
  match s.phase with
  | .cmd | .xIv => s.err = false ∧ (s.op = 1 ∨ s.op = 2) ∧ s.buf = buf
  | .xChk => s.err = false ∧ s.op ≠ 2 ∧ s.buf = buf
  | .xBlk => s.err = false ∧ s.op ≠ 2
  | .idle => s.err = true ∨ s.op = 2 → s.buf = buf
  | .lCheck | .lSig | .lHdr | .lTok | .lTrl | .lRaw => False

section
variable {cap : Word} {s t : State} {buf : Memory}

/-- A fault leaves BUF as it is (60_exceptions.md R141). -/
theorem xkeBuf_raiseFault (h : s.buf = buf) (c : Cause) (inp val : Nat) : XkeBuf buf (raiseFault c inp val s) :=
  fun _ => h

theorem xkeBuf_complete (h : s.buf = buf) : XkeBuf buf (complete s) := fun _ => h

/-- Every step of an XKE command keeps it so. -/
theorem XkeBuf.engineStep (h : XkeBuf buf s) (hs : engineStep (.withBufCap cap) s = .next t) : XkeBuf buf t := by
  have hnext {x : State} (hx : Machine.engineStep (.withBufCap cap) s = .next x) : t = x :=
    Host.Outcome.next.inj (hs.symm.trans hx)
  cases hp : s.phase <;> simp only [XkeBuf, hp] at h
  case idle =>
    rw [hnext (engineStep_of_idle hp)]
    simpa only [XkeBuf, hp] using h
  case cmd =>
    obtain ⟨herr, hop, hbuf⟩ := h
    rw [hnext (engineStep_cmd hp)]
    rcases Nat.lt_or_ge cap.toNat s.bufLen.toNat with hb | hb
    · rw [cmdStep_tooLong (by rcases hop with hop | hop <;> simp [hop]) hb]
      exact xkeBuf_raiseFault hbuf _ _ _
    · rw [cmdStep_xke hop hb]
      exact ⟨herr, hop, hbuf⟩
  case xIv =>
    obtain ⟨herr, hop, hbuf⟩ := h
    rw [hnext (engineStep_xIv hp)]
    rcases Nat.lt_or_ge s.bufLen.toNat (s.xbase.toNat + s.xivoff.toNat + 16) with hb | hb
    · rw [xIvStep_outOfBounds hb]
      exact xkeBuf_raiseFault hbuf _ _ _
    · by_cases hkeygen : s.op = 2
      · rw [xIvStep_keygen hb hkeygen]
        generalize ivKey s = key
        exact xkeBuf_complete hbuf
      · rw [xIvStep_keyed hb hkeygen]
        generalize ivKey s = key
        exact ⟨herr, hkeygen, hbuf⟩
  case xChk =>
    obtain ⟨herr, hop, hbuf⟩ := h
    rw [hnext (engineStep_xChk hp), xChkStep_withBufCap]
    split_ifs
    · exact xkeBuf_raiseFault hbuf _ _ _
    · exact xkeBuf_complete hbuf
    · exact xkeBuf_raiseFault hbuf _ _ _
    · exact ⟨herr, hop⟩
  case xBlk =>
    obtain ⟨herr, hop⟩ := h
    rw [hnext (engineStep_xBlk hp), xBlkStep_withBufCap]
    split_ifs
    · exact fun hend => absurd hend (not_or.2 ⟨by simp [herr], hop⟩)
    · simpa only [XkeBuf, hp] using ⟨herr, hop⟩

/-- OP is the host's: no step of the engine writes it (10_state.md R21). -/
theorem EngineResult.op_eq (r : EngineResult cap s t) : t.op = s.op := by
  cases r with
  | token _ _ _ _ _ _ he => exact he.op_eq
  | _ => simp

/-- A run of an XKE command keeps what its steps keep. -/
theorem XkeBuf.runSteps {k : Nat} (h : XkeBuf buf s) (hpend : s.pending = [])
    (hrun : runSteps (.withBufCap cap) k s = .next t) : XkeBuf buf t ∧ t.op = s.op := by
  induction k generalizing s with
  | zero =>
    obtain rfl : s = t := Host.Outcome.next.inj hrun
    exact ⟨h, rfl⟩
  | succ k ih =>
    obtain ⟨u, hu⟩ := exists_engineStep cap s
    have r := engineStep_result hu
    rw [runSteps_succ ((stepWith_of_no_pending hpend).trans hu)] at hrun
    obtain ⟨ht, hop⟩ := ih (h.engineStep hu) (r.pending_eq.trans hpend) hrun
    exact ⟨ht, hop.trans r.op_eq⟩

/-- A command that has faulted, or that is a KEYGEN, has the BUF it started with (41_xke_keystream.md R114). -/
theorem XkeBuf.buf_eq (h : XkeBuf buf s) (hend : s.err = true ∨ s.op = 2) : s.buf = buf := by
  cases hp : s.phase <;> simp only [XkeBuf, hp] at h
  case idle => exact h hend
  case cmd | xIv | xChk =>
    obtain ⟨-, -, hbuf⟩ := h
    exact hbuf
  case xBlk =>
    obtain ⟨herr, hop⟩ := h
    exact absurd hend (not_or.2 ⟨by simp [herr], hop⟩)

end

/-- Settles O39: by what every step of an XKE command keeps. -/
theorem xkeFaultLeavesBuf : Obligations.XkeFaultLeavesBuf := by
  intro cap k s t hp hpend herr hop hrun hend
  have hstart : XkeBuf s.buf s := by simpa only [XkeBuf, hp] using ⟨herr, hop, trivial⟩
  obtain ⟨ht, hopt⟩ := hstart.runSteps hpend hrun
  exact ht.buf_eq (by rwa [hopt])

end Sys2Proof.Machine

/-! PROOFS. The checks of the LZD unit before the first block (42_lzd_checks.md R116, R118): the checksum step and the
signature step. -/

namespace Sys2Proof.Machine

section
variable {cap : Word} {s : State}

/-! ### The checksum step -/

/-- The model's running sum is the sum of the words as a list (42_lzd_checks.md R116). -/
theorem wordSum_eq_sum_range (s : State) (n : Nat) :
    wordSum s n = ((List.range n).map fun k => rdw s .little (4 * k)).sum := by
  induction n with
  | zero => rfl
  | succ n ih => rw [wordSum, ih, List.sum_range_succ]

theorem lCheckStep_badLength (h : s.bufLen.toNat % 4 ≠ 0) :
    lCheckStep s = raiseFault .checksumFailure s.bufLen.toNat (s.bufLen.toNat % 4) s := if_pos h

theorem lCheckStep_badSum (h : s.bufLen.toNat % 4 = 0) (hsum : wordSum s (s.bufLen.toNat / 4) ≠ 0) :
    lCheckStep s = raiseFault .checksumFailure 0 (wordSum s (s.bufLen.toNat / 4)).toNat s :=
  (if_neg (not_not.2 h)).trans (if_pos hsum)

theorem lCheckStep_passes (h : s.bufLen.toNat % 4 = 0) (hsum : wordSum s (s.bufLen.toNat / 4) = 0) :
    lCheckStep s = redraw { s with phase := .lSig } :=
  (if_neg (not_not.2 h)).trans (if_neg (not_not.2 hsum))

/-! ### The signature step -/

/-- A 16-bit value is zero where both of its bytes are (00_scope.md R11). -/
theorem be16_eq_zero_iff (b0 b1 : Byte) : be16 b0 b1 = 0 ↔ b0 = 0 ∧ b1 = 0 := by
  constructor
  · intro h
    have hhigh : (be16 b0 b1).extractLsb' 8 8 = b0 := BitVec.extractLsb'_append_eq_left
    have hlow : (be16 b0 b1).extractLsb' 0 8 = b1 := BitVec.extractLsb'_append_eq_right
    rw [h] at hhigh hlow
    exact ⟨hhigh.symm, hlow.symm⟩
  · rintro ⟨rfl, rfl⟩
    rfl

theorem be16At_eq_zero_iff (s : State) (a : Nat) : be16At s a = 0 ↔ bufByte s a = 0 ∧ bufByte s (a + 1) = 0 :=
  be16_eq_zero_iff _ _

theorem lSigStep_tooShort (hb : s.bufLen.toNat < 0x1F8) :
    lSigStep (.withBufCap cap) s = raiseFault .outOfBounds 0x1F6 2 s := by
  rw [lSigStep_withBufCap, if_pos hb]

theorem lSigStep_missing (hb : 0x1F8 ≤ s.bufLen.toNat) (hv : be16At s 0x1F6 = 0) :
    lSigStep (.withBufCap cap) s = raiseFault .missingCompressionSignature 0x1F6 0 s := by
  rw [lSigStep_withBufCap, if_neg (Nat.not_lt.2 hb), if_pos hv]

theorem lSigStep_present (hb : 0x1F8 ≤ s.bufLen.toNat) (hv : be16At s 0x1F6 ≠ 0) :
    lSigStep (.withBufCap cap) s = { s with ic := 0x200, phase := .lHdr } := by
  rw [lSigStep_withBufCap, if_neg (Nat.not_lt.2 hb), if_neg hv]
  rfl

end

/-- Settles O30: by the length of the buffer and the sum of its words. -/
theorem checksumStep : Obligations.ChecksumStep := by
  rintro cap s _ hp rfl
  simp only [engineStep_lCheck hp, ← wordSum_eq_sum_range]
  refine ⟨fun h => ?_, fun h hsum => ?_, fun h hsum => ?_⟩
  · rw [lCheckStep_badLength h, raiseFault_eq_faultState _ _ s.bufLen.isLt (by omega), BitVec.ofNat_toNat,
      BitVec.setWidth_eq]
    rfl
  · rw [lCheckStep_badSum h hsum, raiseFault_eq_faultState _ _ (by decide) (BitVec.isLt _), BitVec.ofNat_toNat,
      BitVec.setWidth_eq]
    rfl
  · rw [lCheckStep_passes h hsum]
    rfl

/-- Settles O31: by the length of the buffer and the two signature bytes. -/
theorem signatureStep : Obligations.SignatureStep := by
  intro cap s hp
  simp only [engineStep_lSig hp]
  refine ⟨fun hb => ?_, fun hb h0 h1 => ?_, fun hb hv => ?_⟩
  · rw [lSigStep_tooShort hb, raiseFault_eq_faultState _ _ (by decide) (by decide)]
    rfl
  · rw [lSigStep_missing hb ((be16At_eq_zero_iff s 0x1F6).2 ⟨h0, h1⟩),
      raiseFault_eq_faultState _ _ (by decide) (by decide)]
    rfl
  · rw [lSigStep_present hb (mt (be16At_eq_zero_iff s 0x1F6).1 hv)]

end Sys2Proof.Machine

/-! PROOFS. The blocks of the LZD stream (43_lzd_blocks.md R121 to R127): the block headers with their faults and the
order of these, the raw block step, and the trailers. -/

namespace Sys2Proof.Machine

section
variable {cap : Word} {s : State}

/-! ### The faults of the header step -/

/-- Fault capture where ERR_IN takes a cursor or a block register. -/
theorem raiseFault_toNat {val : Nat} (c : Cause) (inp : Word) (s : State) (hv : val < 2 ^ 32) :
    raiseFault c inp.toNat val s = faultState s (causeCode c) inp (BitVec.ofNat 32 val) := by
  rw [raiseFault_eq_faultState c s inp.isLt hv, BitVec.ofNat_toNat, BitVec.setWidth_eq]

/-- Fault capture where ERR_VAL takes a 16-bit value of the stream. -/
theorem raiseFault_half (c : Cause) (inp : Word) (v : Half) (s : State) :
    raiseFault c inp.toNat v.toNat s = faultState s (causeCode c) inp (v.setWidth 32) := by
  rw [raiseFault_toNat c inp s (by omega), BitVec.ofNat_toNat]

theorem withHeader_of_le {k : State → State} (hb : s.ic.toNat + 2 ≤ s.bufLen.toNat) :
    withHeader k s = .next (k s) :=
  if_pos (decide_eq_true hb)

theorem withHeader_of_lt {k : State → State} (hb : s.bufLen.toNat < s.ic.toNat + 2) :
    withHeader k s = .next (faultState s 3 s.ic 2) := by
  have hout : ¬ headerInBounds s = true := mt of_decide_eq_true (Nat.not_le.2 hb)
  rw [withHeader, if_neg hout, fault, raiseFault_toNat _ _ _ (by decide)]
  rfl

/-- Every element of the header context makes the bounds check of R121 before anything else. -/
theorem exec_header_eq_withHeader {i : Instr} {model : Byte} (h : Ctx.admits Config.hw (.header model) i = true) :
    ∃ k, exec i s = withHeader k s := by
  cases i with
  | endMarker => exact ⟨fun s => complete { s with ic := BitVec.ofNat 32 (s.ic.toNat + 2) }, rfl⟩
  | blk | raw1 | raw2 | raw2v | illegalSentinel | illegalOversized => exact ⟨_, rfl⟩
  | _ => simp [Ctx.admits] at h

/-- A header that does not fit is not read: the step is OutOfBounds at it. -/
theorem step_header_of_lt (hb : s.bufLen.toNat < s.ic.toNat + 2) (hp : s.phase = .lHdr) (hpend : s.pending = []) :
    step s = .next (faultState s 3 s.ic 2) := by
  rw [step_of_no_pending hpend, engineStep_lHdr s hp, if_neg (Nat.not_le.2 hb), fault,
    raiseFault_toNat _ _ _ (by decide)]
  rfl

/-! ### Opening a block -/

/-- The block-fit check without its subtraction: the block and its margin end by BUF_LEN (43_lzd_blocks.md R123). -/
theorem blockFits_iff (len : Nat) :
    blockFits (.withBufCap cap) len s = true ↔ s.ic.toNat + 2 + len + 6 ≤ s.bufLen.toNat :=
  calc blockFits (.withBufCap cap) len s = true
      ↔ len + 6 ≤ s.bufLen.toNat - (s.ic.toNat + 2) := decide_eq_true_iff
    _ ↔ s.ic.toNat + 2 + len + 6 ≤ s.bufLen.toNat := by omega

/-- A raw block that fits. -/
theorem openRaw_of_le {len : Nat} (n : Nat) (hf : s.ic.toNat + 2 + len + 6 ≤ s.bufLen.toNat) :
    openRaw (.withBufCap cap) len n s = { enterBlock len s with rawn := BitVec.ofNat 16 n, phase := .lRaw } :=
  if_pos ((blockFits_iff len).2 hf)

/-- A raw block that does not fit. -/
theorem openRaw_of_lt {len : Nat} (n : Nat) (hlen : len < 2 ^ 32) (hf : s.bufLen.toNat < s.ic.toNat + 2 + len + 6) :
    openRaw (.withBufCap cap) len n s = faultState s 7 s.ic (BitVec.ofNat 32 len) := by
  rw [openRaw, if_neg (mt (blockFits_iff len).1 (Nat.not_le.2 hf)), raiseFault_toNat _ _ _ hlen]
  rfl

/-- A token block that fits and holds its trailer: BEND is where the trailer starts. -/
theorem openTokens_of_le {h : Half} (h2 : 2 ≤ h.toNat) (hf : s.ic.toNat + 2 + h.toNat + 6 ≤ s.bufLen.toNat) :
    openTokens (.withBufCap cap) h.toNat s =
      { enterBlock h.toNat s with
        bend := BitVec.ofNat 32 (s.ic.toNat + h.toNat), mask := 0, sel := 0,
        phase := if h.toNat = 2 then .lTrl else .lTok } := by
  have hbend : s.ic.toNat + 2 + h.toNat - 2 = s.ic.toNat + h.toNat := by omega
  rw [openTokens, if_pos ((blockFits_iff _).2 hf), if_neg (Nat.not_lt.2 h2), hbend]

/-- A token block that fits but is too short for a trailer. -/
theorem openTokens_of_lt_two {h : Half} (h2 : h.toNat < 2) (hf : s.ic.toNat + 2 + h.toNat + 6 ≤ s.bufLen.toNat) :
    openTokens (.withBufCap cap) h.toNat s = faultState s 9 s.ic (h.setWidth 32) := by
  rw [openTokens, if_pos ((blockFits_iff _).2 hf), if_pos h2, raiseFault_half]
  rfl

/-- A token block that does not fit, whatever its length (60_exceptions.md R148). -/
theorem openTokens_of_lt {h : Half} (hf : s.bufLen.toNat < s.ic.toNat + 2 + h.toNat + 6) :
    openTokens (.withBufCap cap) h.toNat s = faultState s 7 s.ic (h.setWidth 32) := by
  rw [openTokens, if_neg (mt (blockFits_iff _).1 (Nat.not_le.2 hf)), raiseFault_half]
  rfl

/-! ### The headers that fit -/

theorem exec_endMarker (hb : s.ic.toNat + 2 ≤ s.bufLen.toNat) :
    exec .endMarker s = .next (complete { s with ic := BitVec.ofNat 32 (s.ic.toNat + 2) }) :=
  withHeader_of_le (k := fun s => complete { s with ic := BitVec.ofNat 32 (s.ic.toNat + 2) }) hb

theorem exec_blk (h : Half) (hb : s.ic.toNat + 2 ≤ s.bufLen.toNat) :
    exec (.blk h) s = .next (openTokens Config.hw h.toNat s) :=
  withHeader_of_le hb

theorem exec_raw1 (hb : s.ic.toNat + 2 ≤ s.bufLen.toNat) :
    exec .raw1 s = .next (openRaw Config.hw 0xC002 0xC000 s) :=
  withHeader_of_le hb

/-- The two ways to a raw block of SUB_M2 bytes mean the same (43_lzd_blocks.md R124). -/
theorem exec_raw2 {i : Instr} (hi : i = .raw2 ∨ i = .raw2v) (hb : s.ic.toNat + 2 ≤ s.bufLen.toNat) :
    exec i s = .next (openRaw Config.hw 0x6000 0x6000 s) := by
  rcases hi with rfl | rfl
  · exact withHeader_of_le hb
  · exact withHeader_of_le hb

end

/-! ### The obligations about headers -/

/-- Settles O8: the header fits, so END completes behind it. -/
theorem endMarkerCompletes : Obligations.EndMarkerCompletes := fun _ hb => exec_endMarker hb

/-- Settles O9: BLEN holds the whole header value, the rest is `openTokens` where the block fits. -/
theorem tokenBlockHeaderOpens : Obligations.TokenBlockHeaderOpens := by
  intro h s h2 hf
  have hblen : BitVec.ofNat 16 h.toNat = h := by rw [BitVec.ofNat_toNat, BitVec.setWidth_eq]
  rw [exec_blk h (by omega), openTokens_of_le h2 hf, enterBlock, hblen]

/-- Settles O10: both lengths are `openRaw` where the block fits. -/
theorem rawBlockHeadersOpen : Obligations.RawBlockHeadersOpen := by
  refine fun s => ⟨fun hf => ?_, fun hf i hi => ?_⟩
  · rw [exec_raw1 (by omega), openRaw_of_le _ hf]
    rfl
  · rw [exec_raw2 hi (by omega), openRaw_of_le _ hf]
    rfl

/-- Settles O11: behind the bounds check both illegal headers raise OversizedBlock with their own value. -/
theorem illegalHeadersFaultOversized : Obligations.IllegalHeadersFaultOversized := by
  refine fun h s hb => ⟨?_, ?_⟩
  · calc exec .illegalSentinel s
        = .next (raiseFault .oversizedBlock s.ic.toNat (0xE000 : Half).toNat s) := withHeader_of_le hb
      _ = .next (faultState s 6 s.ic 0xE000) := by rw [raiseFault_half]; rfl
  · calc exec (.illegalOversized h) s
        = .next (raiseFault .oversizedBlock s.ic.toNat h.toNat s) := withHeader_of_le hb
      _ = .next (faultState s 6 s.ic (h.setWidth 32)) := by rw [raiseFault_half]; rfl

/-- Settles O12: the bounds check comes first, then the fit of the block, then the length of a token block. -/
theorem headerFaultOrder : Obligations.HeaderFaultOrder := by
  refine fun s => ⟨fun hlt => ⟨fun i hadm => ?_, step_header_of_lt hlt⟩, fun hb =>
    ⟨fun h hf => ?_, fun hf => ?_, fun hf => ⟨?_, ?_⟩, fun hf => ?_⟩⟩
  · obtain ⟨k, hk⟩ := exec_header_eq_withHeader (s := s) hadm
    rw [hk, withHeader_of_lt hlt]
  · rw [exec_blk h hb, openTokens_of_lt hf]
  · rw [exec_raw1 hb, openRaw_of_lt _ (by decide) hf]
    rfl
  · rw [exec_raw2 (.inl rfl) hb, openRaw_of_lt _ (by decide) hf]
    rfl
  · rw [exec_raw2 (.inr rfl) hb, openRaw_of_lt _ (by decide) hf]
    rfl
  · rw [exec_blk 1 hb, openTokens_of_lt_two (h := 1) (by decide) hf]
    rfl

/-! ### The raw block step and the trailers -/

section
variable {cfg : Config} {cap : Word} {s : State}

theorem engineStep_lRaw (hp : s.phase = .lRaw) : engineStep cfg s = .next (lRawStep cfg s) := by
  simp only [engineStep, hp]

theorem lRawStep_overflow (ho : 0x2000000 < s.oc.toNat + s.rawn.toNat) :
    lRawStep (.withBufCap cap) s = faultState s 10 s.bstart (s.rawn.setWidth 32) := by
  rw [lRawStep_withBufCap, if_pos ho, raiseFault_half]
  rfl

theorem lRawStep_copies (ho : s.oc.toNat + s.rawn.toNat ≤ 0x2000000) :
    lRawStep (.withBufCap cap) s = leaveBlock (emit (bufBytes s s.bstart.toNat s.rawn.toNat) s) := by
  rw [lRawStep_withBufCap, if_neg (Nat.not_lt.2 ho)]

@[simp] theorem outAt_leaveBlock (s : State) (a : Nat) : (leaveBlock s).outAt a = s.outAt a := rfl

/-- What OUT holds at the bytes just produced (20_memory.md R61). -/
theorem outAt_emit (bs : List Byte) (s : State) {k : Nat} (hk : k < bs.length) :
    (emit bs s).outAt (s.oc.toNat + k) = bs[k]? := by
  rw [State.outAt, emit_out, readCell_storeBytes, if_pos (by omega), Nat.add_sub_cancel_left]

/-- What OUT holds elsewhere. -/
theorem outAt_emit_of_not_mem (bs : List Byte) (s : State) {a : Nat}
    (ha : a < s.oc.toNat ∨ s.oc.toNat + bs.length ≤ a) : (emit bs s).outAt a = s.outAt a := by
  rw [State.outAt, emit_out, readCell_storeBytes_of_not_mem _ _ _ _ ha]

end

/-- Settles O32: by the capacity check; the payload is one `emit` of the block's bytes, and leaving the block keeps
OUT. -/
theorem rawPayloadStep : Obligations.RawPayloadStep := by
  intro cap s hp
  rw [engineStep_lRaw hp]
  refine ⟨fun ho => by rw [lRawStep_overflow ho], fun ho => ?_⟩
  rw [lRawStep_copies ho]
  have hlen := length_bufBytes s s.bstart.toNat s.rawn.toNat
  refine ⟨_, rfl, ?_, fun k hk => ?_, fun a ha => ?_⟩
  · rw [leaveBlock, emit_eq, hlen]
  · rw [outAt_leaveBlock, outAt_emit _ _ (hk.trans_eq hlen.symm), getElem?_bufBytes _ _ _ _ hk]
  · rw [outAt_leaveBlock, outAt_emit_of_not_mem _ _ (hlen.symm ▸ ha)]

/-- Settles O24: TRL is `leaveBlock`, and an illegal trailer faults at BEND. -/
theorem trailerEndsBlockOrFaults : Obligations.TrailerEndsBlockOrFaults := by
  refine fun t s => ⟨rfl, ?_⟩
  calc exec (.illegalTrailer t) s
      = .next (raiseFault .missingBlockTrailer s.bend.toNat t.toNat s) := rfl
    _ = .next (faultState s 9 s.bend (t.setWidth 32)) := by rw [raiseFault_half]; rfl

end Sys2Proof.Machine

/-! PROOFS. The token stream (44_lzd_tokens.md R129 to R135): the bytes an in-order copy produces, the meanings of the
elements where they stay below BEND, and the extended copy token as one engine step. -/

namespace Sys2Proof.Machine

section
variable {s : State}

/-! ### The bytes of an in-order copy (44_lzd_tokens.md R135) -/

@[simp] theorem copyLoop_draws (off : Nat) (s : State) (k : Nat) : (copyLoop off s k).draws = s.draws :=
  (congrArg State.draws (copyLoop_eq off s k)).trans rfl

/-- A copy leaves the output before it as it was, for a later read too. -/
theorem outByte_copyLoop_of_lt (off : Nat) (k : Nat) {a : Nat} (hb : s.oc.toNat + k < 2 ^ 32) (ha : a < s.oc.toNat) :
    outByte (copyLoop off s k) a = outByte s a := by
  rw [outByte, readCell_copyLoop_of_not_mem off s k a hb (.inl ha), copyLoop_draws, outByte]

/-- The overlap law, by induction on the length: the last byte reads one from before the token, or a byte of the copy
itself that lies `off` back, where the law holds already. -/
theorem outAt_copyLoop {off len k : Nat} (hpos : 0 < off) (hback : off ≤ s.oc.toNat) (hb : s.oc.toNat + len < 2 ^ 32)
    (hk : k < len) :
    (copyLoop off s len).outAt (s.oc.toNat + k) = some (outByte s (s.oc.toNat - off + k % off)) := by
  induction len generalizing k with
  | zero => omega
  | succ n ih =>
    have hb' : s.oc.toNat + n < 2 ^ 32 := by omega
    rw [State.outAt, readCell_copyLoop_succ, copyLoop_oc off s n hb']
    rcases Nat.lt_succ_iff_lt_or_eq.1 hk with hlt | rfl
    · rw [if_neg (by omega)]
      exact ih hb' hlt
    · rw [if_pos rfl]
      congr 1
      rcases Nat.lt_or_ge k off with hfirst | hagain
      · rw [outByte_copyLoop_of_lt off k hb' (by omega), Nat.mod_eq_of_lt hfirst, Nat.sub_add_comm hback]
      · have hsource : s.oc.toNat + k - off = s.oc.toNat + (k - off) := by omega
        rw [hsource, outByte_of_some (ih hb' (by omega)), ← Nat.mod_eq_sub_mod hagain]

/-! ### The end of a token -/

/-- The commit of a token that ends by BEND, with the test for the end of the region on offsets. -/
theorem commitToken_eq_afterToken {w : Work} (hp : w.p ≤ s.bend.toNat) : commitToken w s = afterToken s w w.p := by
  have hend : BitVec.ofNat 32 w.p = s.bend ↔ w.p = s.bend.toNat := by
    rw [← BitVec.toNat_inj, BitVec.toNat_ofNat, Nat.mod_eq_of_lt (Nat.lt_of_le_of_lt hp s.bend.isLt)]
  simp only [commitToken, afterToken, hend]

/-- What a completed copy token has done to the state: the commit, and the bytes of OUT. -/
structure CopyCommitted (s : State) (w : Work) (p off len : Nat) (t : State) : Prop where
  eq : t = { afterToken s w p with
        out := t.out, oc := BitVec.ofNat 32 (s.oc.toNat + len), draws := s.draws + 1 }
  bytes : ∀ k, k < len → t.outAt (s.oc.toNat + k) = some (outByte s (s.oc.toNat - off + k % off))
  frame : ∀ a, a < s.oc.toNat ∨ s.oc.toNat + len ≤ a → t.outAt a = s.outAt a

theorem CopyCommitted.work_eq {w : Work} {p off len : Nat} {t : State} (h : CopyCommitted s w p off len t) :
    t.work = none :=
  congrArg State.work h.eq

end

/-! ### The checks of a complete copy token (44_lzd_tokens.md R134) -/

section
variable {cap : Word} {s : State} {w : Work} {t len : Nat} {off : BitVec 11}

theorem finishCopy_zeroOffset (h0 : off = 0) (ht : t < 2 ^ 32) (hlen : len < 2 ^ 32) :
    finishCopy (.withBufCap cap) w { t := t, len := len, off := off } s =
      faultState s 8 (BitVec.ofNat 32 t) (BitVec.ofNat 32 len) := by
  rw [finishCopy, if_pos h0, raiseFault_eq_faultState _ _ ht hlen]
  rfl

theorem finishCopy_offsetBeforeStart (h0 : off ≠ 0) (hback : s.oc.toNat < off.toNat) (ht : t < 2 ^ 32) :
    finishCopy (.withBufCap cap) w { t := t, len := len, off := off } s =
      faultState s 11 (BitVec.ofNat 32 t) (BitVec.ofNat 32 off.toNat) := by
  rw [finishCopy, if_neg h0, if_pos hback, raiseFault_eq_faultState _ _ ht (by omega)]
  rfl

theorem finishCopy_overflow (h0 : off ≠ 0) (hback : off.toNat ≤ s.oc.toNat) (hfull : 0x2000000 < s.oc.toNat + len)
    (ht : t < 2 ^ 32) (hlen : len < 2 ^ 32) :
    finishCopy (.withBufCap cap) w { t := t, len := len, off := off } s =
      faultState s 10 (BitVec.ofNat 32 t) (BitVec.ofNat 32 len) := by
  rw [finishCopy, if_neg h0, if_neg (Nat.not_lt.2 hback), outRoom_withBufCap,
    if_pos (decide_eq_false (Nat.not_le.2 hfull)), raiseFault_eq_faultState _ _ ht hlen]
  rfl

/-- A copy token that passes its checks copies and commits. -/
theorem finishCopy_copies (hpos : 0 < off.toNat) (hback : off.toNat ≤ s.oc.toNat)
    (hroom : s.oc.toNat + len ≤ 0x2000000) (hp : w.p ≤ s.bend.toNat) :
    CopyCommitted s w w.p off.toNat len (finishCopy (.withBufCap cap) w { t := t, len := len, off := off } s) := by
  have h0 : off ≠ 0 := fun h => by simp [h] at hpos
  have hb : s.oc.toNat + len < 2 ^ 32 := by omega
  have hcommit : finishCopy (.withBufCap cap) w { t := t, len := len, off := off } s =
      commitToken w (redraw (copyLoop off.toNat s len)) := by
    rw [finishCopy, if_neg h0, if_neg (Nat.not_lt.2 hback), outRoom_withBufCap, if_neg (by simp [hroom])]
  have hoc : (copyLoop off.toNat s len).oc = BitVec.ofNat 32 (s.oc.toNat + len) :=
    BitVec.eq_of_toNat_eq (by rw [copyLoop_oc _ _ _ hb, BitVec.toNat_ofNat, Nat.mod_eq_of_lt hb])
  rw [hcommit]
  refine ⟨?_, fun k hk => outAt_copyLoop hpos hback hb hk, fun a ha => readCell_copyLoop_of_not_mem _ _ _ _ hb ha⟩
  rw [commitToken_eq_afterToken (by rw [copyLoop_eq]; exact hp), ← hoc, copyLoop_eq]
  rfl

end

section
variable {s : State}

/-! ### Literals (44_lzd_tokens.md R131) -/

theorem exec_lit_past_bend (b : Byte) (h : s.bend.toNat < s.cursor.p + 1) :
    exec (.lit b) s = incomplete s.cursor.p s :=
  if_pos (need_of_lt h)

theorem exec_lit_overflow (b : Byte) (h : s.cursor.p + 1 ≤ s.bend.toNat) (hfull : 0x2000000 ≤ s.oc.toNat) :
    exec (.lit b) s = fault .outputCapacityExceeded s.cursor.p 1 s := by
  change runLit Config.hw b s = _
  simp [runLit, need_of_le h, outRoom, Nat.not_le.2 (Nat.lt_succ_of_le hfull)]

theorem exec_lit_emits (b : Byte) (h : s.cursor.p + 1 ≤ s.bend.toNat) (hroom : s.oc.toNat < 0x2000000) :
    exec (.lit b) s = .next (commitToken { s.cursor with p := s.cursor.p + 1 } (emit [b] s)) := by
  change runLit Config.hw b s = _
  simp [runLit, need_of_le h, outRoom, Nat.succ_le_of_lt hroom]

/-! ### The two bytes of a copy token (44_lzd_tokens.md R132, R133) -/

theorem copyOffset_toNat (ohi : BitVec 3) (olo : Byte) :
    (copyOffset ohi olo).toNat = ohi.toNat * 256 + olo.toNat := by
  rw [copyOffset, BitVec.toNat_append, ← Nat.shiftLeft_add_eq_or_of_lt olo.isLt, Nat.shiftLeft_eq]

/-- The escape length is that of length field 7 (30_encoding.md R84). -/
theorem copyLength_eq_escLen_iff (lf : BitVec 5) : copyLength Config.hw lf = Config.hw.escLen ↔ lf = 7 := by
  have hval : lf.toNat + 3 = 10 ↔ lf.toNat = 7 := by omega
  exact hval.trans (BitVec.toNat_inj (y := (7 : BitVec 5)))

theorem copyToken_short {lf : BitVec 5} (ohi : BitVec 3) (olo : Byte) (hlf : lf ≠ 7)
    (h : s.cursor.p + 2 ≤ s.bend.toNat) :
    copyToken Config.hw ohi lf olo s =
      .next (finishCopy Config.hw { s.cursor with p := s.cursor.p + 2 }
        { t := s.cursor.p, len := lf.toNat + 3, off := copyOffset ohi olo } s) := by
  have hshort := mt (copyLength_eq_escLen_iff lf).1 hlf
  simp only [copyToken, need_of_le h, if_true, if_neg hshort]
  rfl

theorem copyToken_escape (ohi : BitVec 3) (olo : Byte) (h : s.cursor.p + 2 ≤ s.bend.toNat) :
    copyToken Config.hw ohi 7 olo s =
      .next (continueStep
        { s.cursor with
          p := s.cursor.p + 2, copy := some { t := s.cursor.p, len := 10, off := copyOffset ohi olo } } s) := by
  have hesc := (copyLength_eq_escLen_iff 7).2 rfl
  simp only [copyToken, need_of_le h, if_true, hesc]

/-- The first element of a token step that stands at a copy token with length field 7. -/
theorem tokenElement_copy_escape {s0 s1 : Byte} (hp : s.phase = .lTok) (hw : s.work = none) (hsel : s.sel ≠ 0)
    (hbit : s.mask &&& s.sel ≠ 0) (h0 : s.bufAt s.ic.toNat = some s0) (h1 : s.bufAt (s.ic.toNat + 1) = some s1)
    (hlf : s0.extractLsb' 0 5 = (7 : BitVec 5)) (h : s.ic.toNat + 2 ≤ s.bend.toNat) :
    tokenElement Config.hw s =
      .next (continueStep
        { p := s.ic.toNat + 2, m := s.mask, s := s.sel,
          copy := some { t := s.ic.toNat, len := 10, off := copyOffset (s0.extractLsb' 5 3) s1 } } s) := by
  have hcur := cursor_of_none hw
  have hctx : tokenCtx s.cursor = .token true := by rw [hcur, tokenCtx_token rfl hsel, decide_eq_true hbit]
  have hneed : s.cursor.p + 2 ≤ s.bend.toNat := by rw [hcur]; exact h
  have hdec : fetchDecode Config.hw s (.token true) s.cursor.p = .ok (decodeCopy Config.hw s0 s1) 2 := by
    rw [hcur, ← bufByte_of_some h0, ← bufByte_of_some h1]
    rfl
  rw [tokenElement_of_decoded hp hctx hneed hdec, run_decodeCopy, hlf, copyToken_escape _ _ hneed, hcur]

/-! ### Extension bytes (44_lzd_tokens.md R133) -/

/-- An extension byte 0xFF inside the token region. -/
theorem exec_ext_ff {w : Work} {c : PendingCopy} (hw : s.work = some w) (hc : w.copy = some c)
    (h : w.p + 1 ≤ s.bend.toNat) :
    exec (.ext 0xFF) s =
      .next (continueStep { w with p := w.p + 1, copy := some { c with len := c.len + 255 } } s) := by
  change runExt Config.hw 0xFF s = _
  simp only [runExt, cursor_of_some hw, hc, need_of_le h]
  rfl

/-- Any other extension byte inside the token region. -/
theorem exec_ext_last {w : Work} {c : PendingCopy} {e : Byte} (hw : s.work = some w) (hc : w.copy = some c)
    (hne : e ≠ 0xFF) (h : w.p + 1 ≤ s.bend.toNat) :
    exec (.ext e) s =
      .next (finishCopy Config.hw { w with p := w.p + 1 } { c with len := c.len + e.toNat } s) := by
  change runExt Config.hw e s = _
  simp only [runExt, cursor_of_some hw, hc, need_of_le h, if_neg hne, Bool.true_eq_false, if_false]

/-- The temporaries of a token step after m extension bytes 0xFF. -/
def extended (w : Work) (c : PendingCopy) (m : Nat) : Work :=
  { w with p := w.p + m, copy := some { c with len := c.len + 255 * m } }

/-- Where a token step stands at an extension byte below BEND, its next element is that byte. -/
theorem tokenElement_extended {w : Work} {c : PendingCopy} {m : Nat} {e : Byte} (hp : s.phase = .lTok)
    (he : s.bufAt (w.p + m) = some e) (h : w.p + m + 1 ≤ s.bend.toNat) :
    tokenElement Config.hw (continueStep (extended w c m) s) =
      exec (.ext e) (continueStep (extended w c m) s) := by
  have hbyte : bufByte (continueStep (extended w c m) s) (w.p + m) = e := bufByte_of_some he
  rw [tokenElement_of_decoded (s := continueStep (extended w c m) s) (c := .extension) hp rfl h
    (congrArg (fun b => Decoded.ok (.ext b) 1) hbyte), run_hw]

theorem tokenElement_extended_ff {w : Work} {c : PendingCopy} {m : Nat} (hp : s.phase = .lTok)
    (hff : s.bufAt (w.p + m) = some 0xFF) (h : w.p + m + 1 ≤ s.bend.toNat) :
    tokenElement Config.hw (continueStep (extended w c m) s) = .next (continueStep (extended w c (m + 1)) s) := by
  rw [tokenElement_extended hp hff h, exec_ext_ff (s := continueStep (extended w c m) s) rfl rfl h]
  simp only [extended, Nat.mul_succ, Nat.add_assoc]
  rfl

theorem tokenElement_extended_last {w : Work} {c : PendingCopy} {m : Nat} {e : Byte} (hp : s.phase = .lTok)
    (he : s.bufAt (w.p + m) = some e) (hne : e ≠ 0xFF) (h : w.p + m + 1 ≤ s.bend.toNat) (hpos : 0 < c.off.toNat)
    (hback : c.off.toNat ≤ s.oc.toNat) (hroom : s.oc.toNat + (c.len + 255 * m + e.toNat) ≤ 0x2000000) :
    ∃ t, tokenElement Config.hw (continueStep (extended w c m) s) = .next t ∧
      CopyCommitted s w (w.p + m + 1) c.off.toNat (c.len + 255 * m + e.toNat) t := by
  have hcopied := finishCopy_copies (s := continueStep (extended w c m) s)
    (w := { extended w c m with p := w.p + m + 1 }) (cap := Config.pBufCap) (t := c.t) hpos hback hroom h
  refine ⟨_, ?_, hcopied.eq, hcopied.bytes, hcopied.frame⟩
  exact (tokenElement_extended hp he h).trans
    (exec_ext_last (s := continueStep (extended w c m) s) rfl rfl hne h)

/-- A token step passes m extension bytes 0xFF, by induction on m. -/
theorem tokenLoop_extended {w : Work} {c : PendingCopy} (n m : Nat) (hp : s.phase = .lTok)
    (hff : ∀ k, k < m → s.bufAt (w.p + k) = some 0xFF) (h : w.p + m ≤ s.bend.toNat) :
    tokenLoop Config.hw (n + m) (continueStep (extended w c 0) s) =
      tokenLoop Config.hw n (continueStep (extended w c m) s) := by
  induction m generalizing n with
  | zero => rfl
  | succ m ih =>
    rw [Nat.add_left_comm, Nat.add_comm m, ih (n + 1) (fun k hk => hff k (by omega)) (by omega)]
    exact tokenLoop_continue n (tokenElement_extended_ff hp (hff m (Nat.lt_succ_self m)) h)

/-- The rest of a token step that waits for extension bytes: m bytes 0xFF and the byte that ends the token. -/
theorem tokenLoop_extension_bytes {w : Work} {c : PendingCopy} {n m : Nat} {e : Byte} (hp : s.phase = .lTok)
    (hcopy : w.copy = some c) (hff : ∀ k, k < m → s.bufAt (w.p + k) = some 0xFF) (he : s.bufAt (w.p + m) = some e)
    (hne : e ≠ 0xFF) (h : w.p + m + 1 ≤ s.bend.toNat) (hn : m < n) (hpos : 0 < c.off.toNat)
    (hback : c.off.toNat ≤ s.oc.toNat) (hroom : s.oc.toNat + (c.len + 255 * m + e.toNat) ≤ 0x2000000) :
    ∃ t, tokenLoop Config.hw n (continueStep w s) = .next t ∧
      CopyCommitted s w (w.p + m + 1) c.off.toNat (c.len + 255 * m + e.toNat) t := by
  obtain ⟨n, rfl⟩ : ∃ n', n = n' + 1 + m := ⟨n - m - 1, by omega⟩
  have hstart : extended w c 0 = w := congrArg (fun x => { w with copy := x }) hcopy.symm
  obtain ⟨t, hlast, hcopied⟩ := tokenElement_extended_last hp he hne h hpos hback hroom
  refine ⟨t, ?_, hcopied⟩
  calc tokenLoop Config.hw (n + 1 + m) (continueStep w s)
      = tokenLoop Config.hw (n + 1) (continueStep (extended w c m) s) := by
        rw [← tokenLoop_extended (n + 1) m hp hff (by omega), hstart]
    _ = .next t := by rw [tokenLoop_succ _ n _ _ hlast, hcopied.work_eq]; rfl

end

/-! ### The obligations about copies -/

/-- Settles O23: `outAt_copyLoop`, and every k is 0 modulo 1. -/
theorem overlapLaw : Obligations.OverlapLaw := by
  intro s off len k hpos hback hroom hk
  have hbyte := outAt_copyLoop hpos hback (by omega) hk
  refine ⟨hbyte, fun hone => ?_⟩
  rw [hbyte, hone, Nat.mod_one, Nat.add_zero]

/-- Settles O15: without the escape length the two bytes are a complete copy token. -/
theorem shortCopyToken : Obligations.ShortCopyToken := by
  rintro ohi lf olo s off len rfl rfl hlf hpos hback hroom h
  rw [← copyOffset_toNat] at hpos hback ⊢
  have hcopied := finishCopy_copies (cap := Config.pBufCap) (w := { s.cursor with p := s.cursor.p + 2 })
    (t := s.cursor.p) hpos hback hroom h
  exact ⟨_, copyToken_short ohi olo hlf h, hcopied.eq, hcopied.bytes, hcopied.frame⟩

/-- Settles O18: a last extension byte completes the copy token. -/
theorem extensionByteEndsCopy : Obligations.ExtensionByteEndsCopy := by
  rintro e s w c len hw hc rfl hne h hpos hback hroom
  have hcopied := finishCopy_copies (cap := Config.pBufCap) (w := { w with p := w.p + 1 }) (t := c.t)
    hpos hback hroom h
  exact ⟨_, exec_ext_last hw hc hne h, hcopied.eq, hcopied.bytes, hcopied.frame⟩

/-- Settles O19: the step takes the two bytes of the token, then its extension bytes up to the one that ends it. -/
theorem extendedCopyStep : Obligations.ExtendedCopyStep := by
  rintro s s0 s1 e m off len hpend hp hw hsel hbit h0 h1 hlf hff he hne hend rfl rfl hpos hback hroom
  rw [← copyOffset_toNat] at hpos hback ⊢
  have hescape := tokenElement_copy_escape hp hw hsel hbit h0 h1 hlf (by omega)
  have hp3 : s.ic.toNat + 3 + m = s.ic.toNat + 2 + m + 1 := by omega
  rw [step_lTok hpend hp hw, tokenLoop_continue _ hescape, cursor_of_none hw, hp3]
  obtain ⟨t, ht, hcopied⟩ := tokenLoop_extension_bytes (n := s.bend.toNat - s.ic.toNat)
    (w := { p := s.ic.toNat + 2, m := s.mask, s := s.sel, copy := some _ })
    (c := { t := s.ic.toNat, len := 10, off := _ }) hp rfl hff he hne (by dsimp only; omega) (by omega) hpos hback hroom
  exact ⟨t, ht, hcopied.eq, hcopied.bytes, hcopied.frame⟩

/-- Settles O20: the copy token of offset 0 is complete, or waits for its extension bytes with that offset. -/
theorem zeroOffsetCopyFaults : Obligations.ZeroOffsetCopyFaults := by
  refine fun lf s h => ⟨fun hlf => ?_, fun hlf => ?_⟩
  · have hp : s.cursor.p < 2 ^ 32 := by omega
    exact (copyToken_short 0 0 hlf h).trans (congrArg _ (finishCopy_zeroOffset rfl hp (by omega)))
  · rw [hlf]
    exact copyToken_escape 0 0 h

/-- Settles O21: both forms end in `finishCopy`, whose checks come in this order. -/
theorem copyFaultOrder : Obligations.CopyFaultOrder := by
  refine ⟨?_, ?_⟩
  · rintro e s w c len hw hc rfl hne h hlen ht
    rw [exec_ext_last hw hc hne h]
    refine ⟨fun h0 => ?_, fun h0 hback => ?_, fun h0 hback hfull => ?_⟩
    · rw [finishCopy_zeroOffset h0 ht hlen]
    · rw [finishCopy_offsetBeforeStart h0 hback ht, BitVec.ofNat_toNat]
    · rw [finishCopy_overflow h0 hback hfull ht hlen]
  · rintro ohi lf olo s off len rfl rfl hlf hpos h
    have hp : s.cursor.p < 2 ^ 32 := by omega
    have hexec : exec (.cpy ohi lf olo) s = _ := copyToken_short ohi olo hlf h
    rw [← copyOffset_toNat] at hpos ⊢
    have h0 : copyOffset ohi olo ≠ 0 := fun h0 => by simp [h0] at hpos
    rw [hexec]
    refine ⟨fun hback => ?_, fun hback hfull => ?_⟩
    · rw [finishCopy_offsetBeforeStart h0 hback hp]
    · rw [finishCopy_overflow h0 hback hfull hp (by omega)]

/-! ### The obligations about the other elements -/

/-- Settles O13: `runMask` where the mask word lies below BEND. -/
theorem maskOpensGroup : Obligations.MaskOpensGroup := by
  intro m s h
  change runMask Config.hw m s = _
  simp only [runMask, need_of_le h, if_true, firstSelector_withBufCap]
  rfl

/-- Settles O14: the two checks of a literal in their order, then one byte of output and the commit. -/
theorem literalToken : Obligations.LiteralToken := by
  intro b s hlt
  refine ⟨fun hpast => ?_, fun h hfull => ?_, fun h hroom => ⟨_, exec_lit_emits b h hroom, ?_, fun a => ?_⟩⟩
  · rw [exec_lit_past_bend b hpast, incomplete_eq_faultState s hlt]
  · rw [exec_lit_overflow b h hfull, fault, raiseFault_eq_faultState _ _ hlt (by decide)]
    rfl
  · have hoc : s.oc + 1 = BitVec.ofNat 32 (s.oc.toNat + 1) := by
      rw [BitVec.ofNat_add, BitVec.ofNat_toNat, BitVec.setWidth_eq]
      rfl
    rw [commitToken_eq_afterToken h, hoc]
    rfl
  · rw [State.outAt, commitToken_out]
    split
    case isTrue ha =>
      subst ha
      exact outAt_emit [b] s (k := 0) Nat.one_pos
    case isFalse ha => exact outAt_emit_of_not_mem [b] s (by simp only [List.length_singleton]; omega)

/-- Settles O16: the escape length leaves the copy pending. -/
theorem extendedCopyAwaitsExtension : Obligations.ExtendedCopyAwaitsExtension :=
  fun ohi olo _ h => copyToken_escape ohi olo h

/-- Settles O17: 0xFF leaves the copy pending with its length grown by 255. -/
theorem extensionByteContinues : Obligations.ExtensionByteContinues :=
  fun _ _ _ hw hc h => exec_ext_ff hw hc h

end Sys2Proof.Machine

/-! PROOFS. Faults, completion and the interrupt output (60_exceptions.md R140 to R143, R146): the two ways an engine
step can set a flag, and the level of IRQ. -/

namespace Sys2Proof.Machine

section
variable {cap : Word} {s t : State}

/-! ### Precise faults (60_exceptions.md R140 to R142) -/

/-- UnrecognizedFormat is the one code below 2 (60_exceptions.md R140). -/
theorem two_le_causeCode {c : Cause} (hc : c ≠ .unrecognizedFormat) : 2 ≤ (causeCode c).toNat := by
  cases c with
  | unrecognizedFormat => exact absurd rfl hc
  | _ => decide

/-- Only fault capture, applied to the state before the step, sets ERR. -/
theorem EngineResult.fault_or_err_eq (r : EngineResult cap s t) :
    (∃ c inp val, c ≠ .unrecognizedFormat ∧ t = raiseFault c inp val s) ∨ t.err = s.err := by
  cases r with
  | fault _ c inp val hc => exact .inl ⟨c, inp, val, hc, rfl⟩
  | token _ w u _ _ _ he => exact .inr he.err_eq
  | _ => exact .inr (by simp)

/-! ### The completing steps (60_exceptions.md R143) -/

/-- The engine's next step is END, the IV step of a KEYGEN, the check of an empty region or its last block. -/
abbrev AtCompletion (s : State) : Prop :=
  (s.phase = .lHdr ∧ s.ic.toNat + 2 ≤ s.bufLen.toNat ∧ be16At s s.ic.toNat = 0) ∨
  (s.phase = .xIv ∧ s.op = 2 ∧ s.xbase.toNat + s.xivoff.toNat + 16 ≤ s.bufLen.toNat) ∨
  (s.phase = .xChk ∧ s.xlen = 0 ∧ s.xstart.toNat % 0x80 = 0) ∨
  (s.phase = .xBlk ∧ s.ic.toNat + 0x80 = s.xbase.toNat + s.xstart.toNat + s.xlen.toNat)

/-- A zero header that fits is END, whatever MODEL is (43_lzd_blocks.md R121). -/
theorem engineStep_endMarker (hp : s.phase = .lHdr) (hb : s.ic.toNat + 2 ≤ s.bufLen.toNat)
    (hv : be16At s s.ic.toNat = 0) :
    engineStep (.withBufCap cap) s = .next (complete { s with ic := BitVec.ofNat 32 (s.ic.toNat + 2) }) := by
  rw [engineStep_lHdr s hp, if_pos hb, decodeHeader, if_pos hv]
  exact exec_endMarker hb

theorem engineStep_of_atCompletion (cap : Word) (h : AtCompletion s) :
    ∃ u, engineStep (.withBufCap cap) s = .next (complete u) := by
  rcases h with ⟨hp, hb, hv⟩ | ⟨hp, hop, hb⟩ | ⟨hp, hl, hs⟩ | ⟨hp, he⟩
  · exact ⟨_, engineStep_endMarker hp hb hv⟩
  · exact ⟨_, by rw [engineStep_xIv hp, xIvStep_keygen hb hop]⟩
  · exact ⟨_, by rw [engineStep_xChk hp, xChkStep_empty hs hl]⟩
  · exact ⟨_, by rw [engineStep_xBlk hp, xBlkStep_withBufCap, if_pos he]⟩

/-- No other step writes DONE. -/
theorem EngineResult.atCompletion_or_done_eq (r : EngineResult cap s t) : AtCompletion s ∨ t.done = s.done := by
  cases r with
  | streamEnd hp hb hv => exact .inl (.inl ⟨hp, hb, hv⟩)
  | keygen hp hop hb => exact .inl (.inr (.inl ⟨hp, hop, hb⟩))
  | noBlocks hp hs hl => exact .inl (.inr (.inr (.inl ⟨hp, hl, hs⟩)))
  | lastBlock hp he => exact .inl (.inr (.inr (.inr ⟨hp, he⟩)))
  | token _ w u _ _ _ he => exact .inr he.done_eq
  | _ => exact .inr (by simp)

/-! ### START and the interrupt output (60_exceptions.md R146) -/

theorem irq_iff : s.irq = true ↔ s.ie = true ∧ (s.done = true ∨ s.err = true) := by
  simp only [State.irq, Bool.and_eq_true, Bool.or_eq_true]

/-- The instructions of a CTRL write but CFG_CTRL have START = 1 (30_encoding.md R87). -/
theorem exec_ctrlWrite_start {i : Instr} (hadm : Ctx.admits Config.hw .ctrlWrite i = true)
    (hcfg : ∀ op e ie, i ≠ .cfgCtrl op e ie) (s : State) :
    ∃ op e ie, exec i s = .next (writeCtrl true op e ie s) := by
  cases i with
  | cmdDecompress e ie | cmdXorRegion e ie | cmdKeygen e ie | illegalCommand e ie =>
    exact ⟨_, e, ie, rfl⟩
  | cfgCtrl op e ie => exact absurd rfl (hcfg op e ie)
  | _ => simp [Ctx.admits] at hadm

end

/-! ### The obligations about faults and completion -/

/-- Settles O40: the step that sets ERR is fault capture on the state before it, for a cause other than
UnrecognizedFormat. -/
theorem faultsArePrecise : Obligations.FaultsArePrecise := by
  intro cap s t _ hclear _ hstep herr
  rcases (engineStep_result hstep).fault_or_err_eq with ⟨c, inp, val, hc, rfl⟩ | hkept
  · exact ⟨rfl, two_le_causeCode hc, causeCode_toNat_le c⟩
  · rw [hkept, hclear] at herr
    cases herr

/-- Settles O41: the listed steps complete, and no other step writes DONE. -/
theorem completionSteps : Obligations.CompletionSteps := by
  intro cap s t _ hclear hstep
  refine ⟨fun hdone => (engineStep_result hstep).atCompletion_or_done_eq.resolve_right fun hkept => ?_, fun h => ?_⟩
  · rw [hkept, hclear] at hdone
    cases hdone
  · obtain ⟨u, hu⟩ := engineStep_of_atCompletion cap h
    obtain rfl : complete u = t := Host.Outcome.next.inj (hu.symm.trans hstep)
    exact complete_done u

/-- Settles O55: completion and fault set one of the flags and keep IE; START clears both. -/
theorem irqLevel : Obligations.IrqLevel := by
  refine fun s => ⟨irq_iff, fun hie => ⟨irq_iff.2 ⟨hie, .inl rfl⟩, fun c inp val => irq_iff.2 ⟨hie, .inr rfl⟩⟩, ?_⟩
  intro i t hidle hadm hcfg hexec
  obtain ⟨op, e, ie, hstart⟩ := exec_ctrlWrite_start hadm hcfg s
  rw [hstart, writeCtrl_of_idle hidle] at hexec
  cases hexec
  simp [State.irq]

end Sys2Proof.Machine

/-! PROOFS. Reset and the host's accesses to the memories (70_reset_and_hazards.md R160, R161, R173; 20_memory.md R60,
R61): what a reset leaves, and the one step each access to BUF and OUT is. -/

namespace Sys2Proof.Machine

section
variable {cfg : Config} {s : State} {absent : Fault} {k : State → State} {fits : Bool} {P : Prop}
variable {off n : Nat} {bs : List Byte} {rest : List HostOp}

/-! ### Reset (70_reset_and_hazards.md R160, R161) -/

/-- No register reads the model's own fields, which are all that a reset keeps (log entries 2, 3 and 12). -/
theorem readReg_resetBlock (cfg : Config) (off : Nat) (s : State) :
    readReg cfg off (resetBlock s) = readReg cfg off State.reset := rfl

theorem statusWord_resetBlock (s : State) : (resetBlock s).statusWord = 0 :=
  (by decide : State.reset.statusWord = 0)

theorem ctrlWord_resetBlock (s : State) : (resetBlock s).ctrlWord = 0 :=
  (by decide : State.reset.ctrlWord = 0)

/-! ### A memory access by its three outcomes (70_reset_and_hazards.md R173) -/

theorem memAccess_of_busy (h : s.phase ≠ .idle) : memAccess fits absent k s = .refused .memoryWhileBusy :=
  if_pos (decide_eq_true h)

theorem memAccess_of_idle [Decidable P] (h : s.phase = .idle) :
    memAccess (decide P) absent k s = if P then .next (k s) else .fault absent := by
  have hbusy : ¬ s.busy = true := by simp [State.busy, h]
  simp only [memAccess, if_neg hbusy, decide_eq_true_eq]

/-! ### The accesses as steps -/

/-- R173 refuses all five accesses while a command runs. -/
theorem stepWith_memory_of_busy {op : HostOp} (h : s.phase ≠ .idle)
    (hop : op ∈ [HostOp.load off bs, .storeOut off bs, .readBuf off n, .readOut off n, .readImage])
    (hp : s.pending = op :: rest) : stepWith cfg s = .refused .memoryWhileBusy := by
  rw [stepWith_of_pending hp]
  simp only [List.mem_cons, List.not_mem_nil, or_false] at hop
  rcases hop with rfl | rfl | rfl | rfl | rfl
  all_goals
    rw [hostStep]
    exact memAccess_of_busy (s := { s with pending := rest }) h

theorem stepWith_load (h : s.phase = .idle) (hp : s.pending = .load off bs :: rest) :
    stepWith cfg s =
      if off + bs.length ≤ cfg.bufCap.toNat then .next { s with pending := rest, buf := storeBytes s.buf off bs }
      else .fault .bufOffsetAbsent := by
  rw [stepWith_of_pending hp, hostStep]
  exact memAccess_of_idle (s := { s with pending := rest }) h

theorem stepWith_storeOut (h : s.phase = .idle) (hp : s.pending = .storeOut off bs :: rest) :
    stepWith cfg s =
      if off + bs.length ≤ cfg.outCap then .next { s with pending := rest, out := storeBytes s.out off bs }
      else .fault .outOffsetAbsent := by
  rw [stepWith_of_pending hp, hostStep]
  exact memAccess_of_idle (s := { s with pending := rest }) h

theorem stepWith_readBuf (h : s.phase = .idle) (hp : s.pending = .readBuf off n :: rest) :
    stepWith cfg s =
      if off + n ≤ cfg.bufCap.toNat then
        .next { s with pending := rest, memData := bufBytes s off n, draws := s.draws + 1 }
      else .fault .bufOffsetAbsent := by
  rw [stepWith_of_pending hp, hostStep, bufBytes_congr (s := s) (t := { s with pending := rest }) rfl rfl]
  exact memAccess_of_idle (s := { s with pending := rest }) h

theorem stepWith_readOut (h : s.phase = .idle) (hp : s.pending = .readOut off n :: rest) :
    stepWith cfg s =
      if off + n ≤ cfg.outCap then
        .next { s with pending := rest, memData := outBytes s off n, draws := s.draws + 1 }
      else .fault .outOffsetAbsent := by
  rw [stepWith_of_pending hp, hostStep, outBytes_congr (s := s) (t := { s with pending := rest }) rfl rfl]
  exact memAccess_of_idle (s := { s with pending := rest }) h

/-- The image is the first OUT_LEN bytes of OUT, and OUT_LEN reads OC. -/
theorem stepWith_readImage (h : s.phase = .idle) (hp : s.pending = .readImage :: rest) :
    stepWith cfg s =
      if s.oc.toNat ≤ cfg.outCap then
        .next { s with pending := rest, memData := outBytes s 0 s.oc.toNat, draws := s.draws + 1 }
      else .fault .outOffsetAbsent := by
  rw [stepWith_of_pending hp, hostStep, outBytes_congr (s := s) (t := { s with pending := rest }) rfl rfl]
  exact memAccess_of_idle (s := { s with pending := rest }) h

/-- Each stored byte reads as stored, in order. -/
theorem readCell_storeBytes_add (m : Memory) (a : Nat) {i : Nat} (hi : i < bs.length) :
    readCell (storeBytes m a bs) (a + i) = bs[i]? := by
  rw [readCell_storeBytes, if_pos (by omega), Nat.add_sub_cancel_left]

end

/-! ### The obligations about reset and the memories -/

/-- Settles O57: the step is `resetBlock`, which differs from the reset state in the model's own fields only. -/
theorem resetAbandonsCommand : Obligations.ResetAbandonsCommand := by
  intro s rest hp
  refine ⟨resetBlock { s with pending := rest }, step_of_pending hp, rfl, rfl, statusWord_resetBlock _,
    ctrlWord_resetBlock _, rfl, rfl, rfl, rfl, rfl, rfl, rfl, fun off _ _ hout hbuf => ?_, fun _ => ⟨rfl, rfl⟩⟩
  rw [readReg_resetBlock, readReg_reset _ _ hout hbuf]

/-- Settles O58: refused while busy; while idle each access by its own step lemma, inside the memory and past its
end. -/
theorem hostMemoryAccess : Obligations.HostMemoryAccess := by
  intro cap s off n bs rest
  refine ⟨fun hbusy _ hop hp => stepWith_memory_of_busy hbusy hop hp, fun hidle => ⟨fun hp => ?load, fun hp => ?storeOut,
    fun hp => ?readBuf, fun hp => ?readOut, fun hp => ?readImage⟩⟩
  case load =>
    rw [stepWith_load hidle hp]
    exact ⟨fun hfits => ⟨_, if_pos hfits, rfl, fun _ hk => readCell_storeBytes_add _ _ hk,
      readCell_storeBytes_of_not_mem _ _ _⟩, fun hpast => if_neg (Nat.not_le.2 hpast)⟩
  case storeOut =>
    rw [stepWith_storeOut hidle hp]
    exact ⟨fun hfits => ⟨_, if_pos hfits, rfl, fun _ hk => readCell_storeBytes_add _ _ hk,
      readCell_storeBytes_of_not_mem _ _ _⟩, fun hpast => if_neg (Nat.not_le.2 hpast)⟩
  case readBuf =>
    rw [stepWith_readBuf hidle hp]
    exact ⟨fun hfits => ⟨_, if_pos hfits, length_bufBytes _ _ _, getElem?_bufBytes s off n⟩,
      fun hpast => if_neg (Nat.not_le.2 hpast)⟩
  case readOut =>
    rw [stepWith_readOut hidle hp]
    exact ⟨fun hfits => ⟨_, if_pos hfits, length_outBytes _ _ _, getElem?_outBytes s off n⟩,
      fun hpast => if_neg (Nat.not_le.2 hpast)⟩
  case readImage =>
    rw [stepWith_readImage hidle hp]
    refine ⟨fun hfits => ⟨_, if_pos hfits, length_outBytes _ _ _, fun k hk => ?_⟩,
      fun hpast => if_neg (Nat.not_le.2 hpast)⟩
    rw [getElem?_outBytes s 0 _ k hk, Nat.zero_add]

end Sys2Proof.Machine
